-- ==== Sys2Proof/Word.lean ====
section
/-! DEFINITION. The byte and word types (spec R6, R11: memory is made of 8-bit bytes, every register,
address and immediate is a 16-bit unsigned value). -/

namespace Sys2Proof

/-- One byte of memory, bits numbered 7 down to 0 (R10). -/
abbrev Byte := BitVec 8

/-- A 16-bit unsigned value, bits numbered 15 down to 0 (R6, R10). -/
abbrev Word := BitVec 16

end Sys2Proof
end

