-- ==== Sys2Proof/Config.lean ====
section
/-! DEFINITION. The parameters the spec leaves open (R7): memory size, stack head, stack capacity. -/

namespace Sys2Proof

/-- A configuration (R7, R15): fixed once at startup by `InitMemory` and `InitStack` (R262). -/
structure Config where
  /-- `MEM_SIZE`, the number of bytes of memory. -/
  memSize : Nat
  /-- `STACK_HEAD`, the address the stack grows down from. -/
  stackHead : Nat
  /-- `STACK_SLOTS`, the stack capacity in 16-bit slots. -/
  stackSlots : Nat
  deriving DecidableEq, Repr

/-- `STACK_LIMIT = STACK_HEAD - 2*STACK_SLOTS`, the lowest address a stack slot may occupy (R7). -/
def Config.stackLimit (c : Config) : Nat := c.stackHead - 2 * c.stackSlots

/-- The constraints of R7. -/
def Config.wf (c : Config) : Bool :=
  decide (2 ≤ c.memSize) && decide (c.memSize ≤ 65535) && decide (c.stackHead ≤ c.memSize) &&
    decide (2 * c.stackSlots ≤ c.stackHead)

/-- The test configuration T of R9.
DESIGN CHOICE (log 2): no source gives these numbers; they are the only ones the spec writes. -/
def Config.test : Config := { memSize := 256, stackHead := 256, stackSlots := 32 }

end Sys2Proof
end

