-- ==== Sys2Proof/Syntax.lean ====
section
/-! DEFINITION. The instruction set: one constructor for each row of spec/opcode_table.json. -/

namespace Sys2Proof

/-- A register index 0 to 16 (R20). -/
abbrev RegIdx := Fin 17

/-- A label id 0 to 15 (R31). -/
abbrev LabelId := Fin 16

/-- The condition bit of GOTO (R86): `z` is c = 0 (jump if R0 is zero), `nz` is c = 1. -/
inductive Cond where
  | z
  | nz
  deriving DecidableEq, Repr

/-- The decoded instructions. PUSH and POP are split into the register form and the accumulator
form, the explicit operand variant that R85 asks for. -/
inductive Instr where
  /-- `SET imm5` (R120). -/
  | set (imm5 : BitVec 5)
  /-- `ADD Rn`, n in 1..16 (R127). -/
  | add (n : RegIdx)
  /-- `SUB Rn`, n in 1..16 (R128). -/
  | sub (n : RegIdx)
  /-- `MUL Rn`, n in 1..16 (R129). -/
  | mul (n : RegIdx)
  /-- `PUSH Rn`, n in 1..16 (R137). -/
  | pushReg (n : RegIdx)
  /-- `PUSH R0` (R138). -/
  | pushAcc
  /-- `POP Rn`, n in 1..16 (R139). -/
  | popReg (n : RegIdx)
  /-- `POP R0` (R140). -/
  | popAcc
  /-- `GOTO l,c` (R145). -/
  | goto (l : LabelId) (c : Cond)
  /-- `LABEL l`, l in 0..7 when executed (R87, R146). -/
  | label (l : LabelId)
  /-- `NOOP` (R155). -/
  | noop
  /-- `HALT` (R156). -/
  | halt
  /-- `STORE addr` (R161). -/
  | store (addr : Word)
  /-- `LOAD addr` (R162). -/
  | load (addr : Word)
  /-- `SWAP Ra,Rb`, a and b in 0..15 (R170). -/
  | swap (a b : RegIdx)
  /-- `CALL addr` (R176). -/
  | call (addr : Word)
  /-- `RET` (R177). -/
  | ret
  /-- `CMP` (R185). -/
  | cmp
  /-- `XSET imm16` (R186). -/
  | xset (imm16 : Word)
  /-- The reserved opcode byte 0xF9 (R96). -/
  | reservedF9
  /-- The reserved opcode bytes 0xFA and 0xFB; `low` is bit 0 (R96). -/
  | reservedFA (low : BitVec 1)
  /-- The reserved opcode bytes 0xFC to 0xFF; `low` is bits 1:0 (R96). -/
  | reservedFC (low : BitVec 2)
  deriving DecidableEq, Repr

end Sys2Proof
end

