-- ==== Sys2Proof/WellFormed.lean ====
section
/-! DEFINITION. Which instruction terms an encoding can form (R22, R84, R87, R92). -/

namespace Sys2Proof

/-- The base set's register field selects R1 to R16 and never R0 (R22, R84); SWAP's nibbles select
R0 to R15 and never R16 (R22, R92); an executed LABEL has its id in 0..7 (R87). -/
def Instr.wf : Instr → Bool
  | .set _ => true
  | .add n => n != 0
  | .sub n => n != 0
  | .mul n => n != 0
  | .pushReg n => n != 0
  | .pushAcc => true
  | .popReg n => n != 0
  | .popAcc => true
  | .goto _ _ => true
  | .label l => decide (l.val < 8)
  | .noop => true
  | .halt => true
  | .store _ => true
  | .load _ => true
  | .swap a b => a != 16 && b != 16
  | .call _ => true
  | .ret => true
  | .cmp => true
  | .xset _ => true
  | .reservedF9 => true
  | .reservedFA _ => true
  | .reservedFC _ => true

end Sys2Proof
end

