-- ==== Sys2Proof/Decode.lean ====
section
/-! DEFINITION. The decoder (R80 to R99), total on any bytes, then the encoder written from the same
formats, the opcode table of spec/opcode_table.json, and the host's entry `decodeTableWord`. -/

namespace Sys2Proof

/-! ## Byte-order and field helpers -/

/-- Bits 15:8 of a word: the byte at the lower address (R50). -/
def hiByte (w : Word) : Byte := w.extractLsb' 8 8

/-- Bits 7:0 of a word: the byte at the next address (R50). -/
def loByte (w : Word) : Byte := w.extractLsb' 0 8

/-- `hi ++ lo`, the big-endian word of two bytes (R50). -/
def wordOf (hi lo : Byte) : Word := hi ++ lo

/-- Bits 7:5 of an opcode byte, the base opcode (R81). -/
def baseOp (b : Byte) : BitVec 3 := b.extractLsb' 5 3

/-- Bits 7:4 of a byte, the tag nibble of an opcode byte or `ra` of SWAP's operand (R81, R91). -/
def hiNibble (b : Byte) : BitVec 4 := b.extractLsb' 4 4

/-- Bits 3:0 of a byte, the extended opcode or `rb` of SWAP's operand (R81, R91). -/
def loNibble (b : Byte) : BitVec 4 := b.extractLsb' 0 4

/-- Bits 4:1 of an opcode byte: a register field `rf` or a label id `l` (R93). -/
def midField (b : Byte) : BitVec 4 := b.extractLsb' 1 4

/-- Bit 0 of an opcode byte: `acc` or `c` (R93). -/
def lowBit (b : Byte) : Bool := b.getLsbD 0

/-- `EXT_TAG`, the value of bits 7:4 that marks an extended instruction (R8, R81; decision D1). -/
def extTag : BitVec 4 := 0xF

/-- The register `rf + 1` that a base-set register field selects (R84). -/
def regOfField (rf : BitVec 4) : RegIdx := ⟨rf.toNat + 1, by have := rf.isLt; omega⟩

/-- The register a SWAP nibble selects, with no offset (R92). -/
def regOfNibble (v : BitVec 4) : RegIdx := ⟨v.toNat, by have := v.isLt; omega⟩

/-- The label id of a 4-bit field (R86, R87). -/
def labelOfField (l : BitVec 4) : LabelId := ⟨l.toNat, l.isLt⟩

/-- The condition of GOTO's bit 0 (R86). -/
def condOfBit (c : Bool) : Cond := if c then .nz else .z

/-! ## Decoding -/

/-- A base-set opcode byte, chosen by bits 7:5 (R82 to R87, R94). -/
def decodeBase (b : Byte) : Instr :=
  match (baseOp b).toNat with
  | 0 => .set (b.extractLsb' 0 5)
  | 1 => .add (regOfField (midField b))
  | 2 => .sub (regOfField (midField b))
  | 3 => .mul (regOfField (midField b))
  | 4 => if lowBit b then .pushAcc else .pushReg (regOfField (midField b))
  | 5 => if lowBit b then .popAcc else .popReg (regOfField (midField b))
  | 6 => .goto (labelOfField (midField b)) (condOfBit (lowBit b))
  | _ => .label (labelOfField (midField b))

/-- An extended instruction, chosen by bits 3:0 of its opcode byte `b`; `o1` and `o2` are the bytes
after it (R88 to R92, R96). -/
def decodeExt (b o1 o2 : Byte) : Instr :=
  match (loNibble b).toNat with
  | 0 => .noop
  | 1 => .halt
  | 2 => .store (wordOf o1 o2)
  | 3 => .load (wordOf o1 o2)
  | 4 => .swap (regOfNibble (hiNibble o1)) (regOfNibble (loNibble o1))
  | 5 => .call (wordOf o1 o2)
  | 6 => .ret
  | 7 => .cmp
  | 8 => .xset (wordOf o1 o2)
  | 9 => .reservedF9
  | 10 => .reservedFA (b.extractLsb' 0 1)
  | 11 => .reservedFA (b.extractLsb' 0 1)
  | _ => .reservedFC (b.extractLsb' 0 2)

/-- The decode order of R81: the tag nibble first, else the top three bits. `b` is the opcode byte;
`o1` and `o2` are the two bytes after it, which only the operands of the extended set look at. -/
def decodeWindow (b o1 o2 : Byte) : Instr :=
  if hiNibble b = extTag then decodeExt b o1 o2 else decodeBase b

/-- The length of an instruction in bytes, told from the opcode byte alone (R80, R88, R95). -/
def lengthOfOpcode (b : Byte) : Nat :=
  if hiNibble b = extTag then
    match (loNibble b).toNat with
    | 2 => 3
    | 3 => 3
    | 4 => 2
    | 5 => 3
    | 8 => 3
    | _ => 1
  else 1

/-- Why a list of bytes holds no whole instruction. -/
inductive DecodeRefusal where
  /-- The list is empty: there is no opcode byte. -/
  | noOpcodeByte
  /-- The list ends before the operand bytes the opcode byte asks for. -/
  | operandBytesMissing
  deriving DecidableEq, Repr

/-- Decoding of a byte sequence: the instruction at its head and the bytes after it. Every opcode
byte decodes (R94); the reserved ones decode to the constructors named after them (R96). -/
def decode : List Byte → Except DecodeRefusal (Instr × List Byte)
  | [] => .error .noOpcodeByte
  | b :: bs =>
    if bs.length + 1 < lengthOfOpcode b then .error .operandBytesMissing
    else .ok (decodeWindow b (bs.getD 0 0) (bs.getD 1 0), bs.drop (lengthOfOpcode b - 1))

/-! ## Encoding -/

/-- The register field `n - 1` of the base set (R83, R85). -/
def fieldOfReg (n : RegIdx) : BitVec 4 := BitVec.ofNat 4 (n.val - 1)

/-- The nibble of a SWAP register (R92). -/
def nibbleOfReg (n : RegIdx) : BitVec 4 := BitVec.ofNat 4 n.val

/-- The 4-bit field of a label id (R86, R87). -/
def fieldOfLabel (l : LabelId) : BitVec 4 := BitVec.ofNat 4 l.val

/-- Bit 0 of GOTO (R86). -/
def bitOfCond : Cond → BitVec 1
  | .z => 0
  | .nz => 1

/-- A base-set byte from bits 7:5, bits 4:1 and bit 0 (R83 to R87). -/
def baseByte (op : BitVec 3) (mid : BitVec 4) (low : BitVec 1) : Byte := op ++ (mid ++ low : BitVec 5)

/-- An extended opcode byte (R88). -/
def extByte (xop : BitVec 4) : Byte := extTag ++ xop

/-- Format X-16: the opcode byte and a big-endian operand (R90). -/
def extWord (xop : BitVec 4) (w : Word) : List Byte := [extByte xop, hiByte w, loByte w]

/-- The bytes of an instruction, ignored bits written as 0 (R82 to R91, R97). -/
def encode : Instr → List Byte
  | .set imm5 => [(0b000#3 ++ imm5 : BitVec 8)]
  | .add n => [baseByte 0b001 (fieldOfReg n) 0]
  | .sub n => [baseByte 0b010 (fieldOfReg n) 0]
  | .mul n => [baseByte 0b011 (fieldOfReg n) 0]
  | .pushReg n => [baseByte 0b100 (fieldOfReg n) 0]
  | .pushAcc => [baseByte 0b100 0 1]
  | .popReg n => [baseByte 0b101 (fieldOfReg n) 0]
  | .popAcc => [baseByte 0b101 0 1]
  | .goto l c => [baseByte 0b110 (fieldOfLabel l) (bitOfCond c)]
  | .label l => [baseByte 0b111 (fieldOfLabel l) 0]
  | .noop => [extByte 0]
  | .halt => [extByte 1]
  | .store addr => extWord 2 addr
  | .load addr => extWord 3 addr
  | .swap a b => [extByte 4, nibbleOfReg a ++ nibbleOfReg b]
  | .call addr => extWord 5 addr
  | .ret => [extByte 6]
  | .cmp => [extByte 7]
  | .xset imm16 => extWord 8 imm16
  | .reservedF9 => [extByte 9]
  | .reservedFA low => [extByte (0b101#3 ++ low)]
  | .reservedFC low => [extByte (0b11#2 ++ low)]

/-- The width of an instruction in bytes, the advance column of R25 (R80). -/
def Instr.width : Instr → Nat
  | .store _ => 3
  | .load _ => 3
  | .swap _ _ => 2
  | .call _ => 3
  | .xset _ => 3
  | .set _ => 1
  | .add _ => 1
  | .sub _ => 1
  | .mul _ => 1
  | .pushReg _ => 1
  | .pushAcc => 1
  | .popReg _ => 1
  | .popAcc => 1
  | .goto _ _ => 1
  | .label _ => 1
  | .noop => 1
  | .halt => 1
  | .ret => 1
  | .cmp => 1
  | .reservedF9 => 1
  | .reservedFA _ => 1
  | .reservedFC _ => 1

/-! ## The opcode table -/

/-- A row of spec/opcode_table.json: its mnemonic, its mask and match on the opcode byte, its length. -/
structure OpcodeRow where
  /-- The row's mnemonic, letter for letter. -/
  mnemonic : String
  /-- The bits of the opcode byte that the row fixes. -/
  mask : Byte
  /-- Their values. -/
  pattern : Byte
  /-- The row's length in bytes. -/
  length : Nat
  deriving DecidableEq, Repr

/-- The rows of the base set. -/
def baseRows : List OpcodeRow :=
  [⟨"SET_imm5", 0xE0, 0x00, 1⟩, ⟨"ADD_Rn", 0xE0, 0x20, 1⟩, ⟨"SUB_Rn", 0xE0, 0x40, 1⟩,
   ⟨"MUL_Rn", 0xE0, 0x60, 1⟩, ⟨"PUSH_Rn", 0xE1, 0x80, 1⟩, ⟨"PUSH_R0", 0xE1, 0x81, 1⟩,
   ⟨"POP_Rn", 0xE1, 0xA0, 1⟩, ⟨"POP_R0", 0xE1, 0xA1, 1⟩, ⟨"GOTO_l_c", 0xE0, 0xC0, 1⟩,
   ⟨"LABEL_l", 0xF0, 0xE0, 1⟩]

/-- The rows of the extended set and its reserved space. -/
def extRows : List OpcodeRow :=
  [⟨"NOOP", 0xFF, 0xF0, 1⟩, ⟨"HALT", 0xFF, 0xF1, 1⟩, ⟨"STORE_addr", 0xFF, 0xF2, 3⟩,
   ⟨"LOAD_addr", 0xFF, 0xF3, 3⟩, ⟨"SWAP_Ra_Rb", 0xFF, 0xF4, 2⟩, ⟨"CALL_addr", 0xFF, 0xF5, 3⟩,
   ⟨"RET", 0xFF, 0xF6, 1⟩, ⟨"CMP", 0xFF, 0xF7, 1⟩, ⟨"XSET_imm16", 0xFF, 0xF8, 3⟩,
   ⟨"reserved_0xF9", 0xFF, 0xF9, 1⟩, ⟨"reserved_0xFA..0xFB", 0xFE, 0xFA, 1⟩,
   ⟨"reserved_0xFC..0xFF", 0xFC, 0xFC, 1⟩]

/-- The opcode table, all 22 rows. -/
def opcodeTable : List OpcodeRow := baseRows ++ extRows

/-- The table's mnemonic of an instruction. -/
def Instr.tableMnemonic : Instr → String
  | .set _ => "SET_imm5"
  | .add _ => "ADD_Rn"
  | .sub _ => "SUB_Rn"
  | .mul _ => "MUL_Rn"
  | .pushReg _ => "PUSH_Rn"
  | .pushAcc => "PUSH_R0"
  | .popReg _ => "POP_Rn"
  | .popAcc => "POP_R0"
  | .goto _ _ => "GOTO_l_c"
  | .label _ => "LABEL_l"
  | .noop => "NOOP"
  | .halt => "HALT"
  | .store _ => "STORE_addr"
  | .load _ => "LOAD_addr"
  | .swap _ _ => "SWAP_Ra_Rb"
  | .call _ => "CALL_addr"
  | .ret => "RET"
  | .cmp => "CMP"
  | .xset _ => "XSET_imm16"
  | .reservedF9 => "reserved_0xF9"
  | .reservedFA _ => "reserved_0xFA..0xFB"
  | .reservedFC _ => "reserved_0xFC..0xFF"

/-! ## The host's entry -/

/-- Byte `k` of an instruction whose bits, numbered as the table numbers them, are `w`: bit 0 is the
least significant bit of the first byte, and every bit at or above `nbits` is 0. -/
def tableByte (nbits w k : Nat) : Byte := BitVec.ofNat 8 (w % 2 ^ nbits / 2 ^ (8 * k))

/-- The three bytes of the longest instruction, as the machine stores them, first byte lowest. -/
def tableBytes (nbits w : Nat) : List Byte :=
  [tableByte nbits w 0, tableByte nbits w 1, tableByte nbits w 2]

/-- The instruction the decoder reads from a table word. -/
def decodeTableWord (nbits w : Nat) : Option Instr :=
  match decode (tableBytes nbits w) with
  | .ok (i, _) => some i
  | .error _ => none

end Sys2Proof
end

