-- ==== Sys2Proof/Machine/State.lean ====
section
/-! DEFINITION. The machine's state as plain data, the reasons a machine can stop, and the state after
reset (spec/10_state.md). -/

namespace Sys2Proof.Machine

/-- Memory as (address, byte) pairs, addresses strictly rising, no byte 0 listed: an address that is
not listed reads 0, the reset value of every byte (R45). -/
abbrev Memory := List Host.Cell

/-- The execution faults of R230. Each is TAKEN as R240 describes: the entry is a next state (STATUS
Halted, event `Faulted`), so `step` never answers `Host.Outcome.fault` (log 5; safe, the spec
describes the entry). -/
inductive Fault where
  /-- Raised by the opcode bytes 0xF9..0xFF, always (R96, R231). Safe: the spec's own fault. -/
  | unknownExtendedOpcode
  /-- Raised by any instruction whose opcode byte or operand byte lies at or beyond `MEM_SIZE`
  (R160, R191, R232). Safe: the spec's own fault. -/
  | endOfMemory
  /-- Raised by STORE and LOAD when `addr + 1 >= MEM_SIZE` (R233). Safe: the spec's own fault. -/
  | boundsViolation
  /-- Raised by PUSH and CALL when `SP - 2 < STACK_LIMIT` (R135, R234). Safe: the spec's own fault. -/
  | stackOverflow
  /-- Raised by POP and RET when `SP + 2 > STACK_HEAD` (R136, R235). Safe: the spec's own fault. -/
  | stackUnderflow
  deriving DecidableEq, Repr

/-- Why an instruction would have no meaning. -/
inductive Refusal where
  /-- An arm of `exec` with no meaning yet. No arm answers it: every row of the table has its
  meaning. Safe. -/
  | notModelled (mnemonic : String)
  deriving DecidableEq, Repr

/-- STATUS, the processor status (R40). -/
inductive Status where
  | idle
  | loaded
  | running
  | paused
  | halted
  deriving DecidableEq, Repr

/-- The reasons a command is refused (R220, R221). -/
inductive Diagnostic where
  /-- The program-presence check fails (R205, R206, R207). -/
  | noProgram
  /-- `load` of more than `MEM_SIZE` bytes (R204). -/
  | programTooLarge
  /-- `step` with PC at or beyond `MEM_SIZE` (R207). -/
  | endOfMemory
  /-- `run` or `step` in Halted (R206, R207). -/
  | machineHalted
  deriving DecidableEq, Repr

/-- The events of the event output (R220). -/
inductive Event where
  | completed
  | halted
  | faulted (reason : Fault)
  | stepped
  | paused
  | diagnostic (reason : Diagnostic)
  deriving DecidableEq, Repr

/-- The six commands of the command input (R194). -/
inductive Command where
  | reset
  | load (bytes : List Byte)
  | run
  | step
  | pause
  | halt
  deriving DecidableEq, Repr

/-- A pending command and how many ticks the host grants before it becomes ready.
DESIGN CHOICE (log 3): the form in which a session's inputs are held. -/
structure Arrival where
  /-- Ticks granted before the command is ready, counted from the command before it. -/
  afterTicks : Nat
  /-- The command. -/
  command : Command
  deriving DecidableEq, Repr

/-- The whole machine (R20 to R45), with the configuration it was sized with and its two streams. -/
structure State where
  /-- The configuration; never changed by a step (R7, R42; log 1). -/
  cfg : Config
  /-- x[0] .. x[16] (R20). -/
  regs : Vector Word 17
  /-- PC (R24). -/
  pc : Word
  /-- SP (R27). -/
  sp : Word
  /-- FLAG (R29). -/
  flag : Bool
  /-- MEM (R30). -/
  mem : Memory
  /-- LABELS[0] .. LABELS[15] (R31). -/
  labels : Vector Word 16
  /-- PROGLEN (R32). -/
  progLen : Word
  /-- STATUS (R40). -/
  status : Status
  /-- The command input: pending commands, oldest first (R194; the model's own field, log 3). -/
  inbox : List Arrival
  /-- The event output, oldest first (R194, R220; the model's own field, log 4). -/
  events : List Event
  deriving DecidableEq, Repr

/-- The state a machine sized with `c` has right after its first reset (R45, R262): every value is the
table's of R45. -/
def State.resetWith (c : Config) : State :=
  { cfg := c, regs := Vector.replicate 17 0, pc := 0, sp := BitVec.ofNat 16 c.stackHead,
    flag := false, mem := [], labels := Vector.replicate 16 0, progLen := 0, status := .idle,
    inbox := [], events := [] }

/-- The machine right after reset, in the test configuration T of R9.
DESIGN CHOICE (log 2): the sizes. Every other field is R45's value. -/
def State.reset : State := State.resetWith Config.test

end Sys2Proof.Machine
end

