-- ==== Sys2Proof/Machine/Ops.lean ====
section
/-! DEFINITION. The operations every meaning is built from: memory, registers, PC, the stack
primitives, events, and taking a fault. -/

namespace Sys2Proof.Machine

/-! ## Memory (spec/20_memory.md) -/

/-- The byte at address `a`; 0 where nothing is listed (R45, R61). -/
def Memory.read : Memory → Nat → Byte
  | [], _ => 0
  | c :: m, a => if c.1 = a then c.2 else Memory.read m a

/-- Memory with no cell listed at `a`. -/
def Memory.eraseAt (m : Memory) (a : Nat) : Memory := m.filter fun c => c.1 != a

/-- Memory with the cell `c` put in its place by address. -/
def Memory.insertCell (c : Host.Cell) : Memory → Memory
  | [] => [c]
  | d :: m => if c.1 < d.1 then c :: d :: m else d :: Memory.insertCell c m

/-- `MEM[a] <- v`, keeping the canonical form: a 0 byte is not listed. -/
def Memory.write (m : Memory) (a : Nat) (v : Byte) : Memory :=
  if v = 0 then m.eraseAt a else Memory.insertCell (a, v) (m.eraseAt a)

/-- `MemRead(a, 2)`, big-endian (R12, R50). -/
def Memory.readWord (m : Memory) (a : Nat) : Word := wordOf (m.read a) (m.read (a + 1))

/-- `MemWrite(a, 2, w)`, big-endian (R12, R50). -/
def Memory.writeWord (m : Memory) (a : Nat) (w : Word) : Memory :=
  (m.write a (hiByte w)).write (a + 1) (loByte w)

/-- The bytes `bs` copied to `a`, `a + 1`, ... in ascending order (R201). -/
def Memory.copyIn (m : Memory) : Nat → List Byte → Memory
  | _, [] => m
  | a, b :: bs => (m.write a b).copyIn (a + 1) bs

/-- The canonical form: addresses strictly rising, no byte 0 listed. -/
def Memory.wf (m : Memory) : Bool :=
  decide (m.Pairwise fun c d => c.1 < d.1) && m.all fun c => c.2 != 0

/-! ## Registers, PC, events -/

/-- `x[r]` (R12). -/
def State.x (s : State) (r : RegIdx) : Word := s.regs[r.val]

/-- `x[r] <- v` (R12). -/
def State.setX (s : State) (r : RegIdx) (v : Word) : State :=
  { s with regs := s.regs.set r.val v }

/-- `LABELS[l]` (R12). -/
def State.labelAt (s : State) (l : LabelId) : Word := s.labels[l.val]

/-- `PC <- PC + n` (R25). -/
def State.advance (s : State) (n : Nat) : State := { s with pc := s.pc + BitVec.ofNat 16 n }

/-- `PC <- target` (R12); the target is not checked (R26). -/
def State.jump (s : State) (target : Word) : State := { s with pc := target }

/-- `emit e` (R12, R220). -/
def State.emit (s : State) (e : Event) : State := { s with events := s.events ++ [e] }

/-- `STATUS <- v`. -/
def State.setStatus (s : State) (v : Status) : State := { s with status := v }

/-- The 16-bit store of a rule that has checked its range (R12). -/
def State.storeWord (s : State) (a : Nat) (w : Word) : State :=
  { s with mem := s.mem.writeWord a w }

/-! ## Taking a fault (spec/60_exceptions.md) -/

/-- Fault entry (R240): nothing is saved and nothing else changes (R193, R239); STATUS becomes Halted
and the reason is reported. There is no return from it (R244): only `reset` and `load` leave Halted. -/
def State.takeFault (s : State) (f : Fault) : State := (s.setStatus .halted).emit (.faulted f)

/-- `raise f` (R12): the instruction has no effect and the fault is taken. -/
def raise (f : Fault) (s : State) : Host.Outcome State Fault Refusal := .next (s.takeFault f)

/-- The end of an instruction whose effect was computed whole before anything was assigned: the new
state, or the fault taken from the old one (R193). -/
def finish (s : State) (r : Except Fault State) : Host.Outcome State Fault Refusal :=
  match r with
  | .ok t => .next t
  | .error f => raise f s

/-! ## Stack primitives (spec/42_push_pop.md) -/

/-- The address of the slot the next push writes: SP - 2 (R27, R135). -/
def State.pushSlot (s : State) : Nat := (s.sp - 2).toNat

/-- `Push(v)` (R135): the check `SP - 2 < STACK_LIMIT` is over the integers (R11). -/
def State.push (s : State) (v : Word) : Except Fault State :=
  if s.sp.toNat < s.cfg.stackLimit + 2 then .error .stackOverflow
  else .ok { s with sp := s.sp - 2, mem := s.mem.writeWord s.pushSlot v }

/-- `Pop()` (R136): the popped bytes stay in memory. -/
def State.pop (s : State) : Except Fault (Word × State) :=
  if s.cfg.stackHead < s.sp.toNat + 2 then .error .stackUnderflow
  else .ok (s.mem.readWord s.sp.toNat, { s with sp := s.sp + 2 })

/-! ## Reset, load (spec/50_run_control.md) -/

/-- `Reset` (R45, R200): every piece of the spec's state to its value; the configuration, the command
input and the event output are not its to touch (R42, R260). -/
def State.resetAll (s : State) : State :=
  { s with regs := Vector.replicate 17 0, pc := 0, sp := BitVec.ofNat 16 s.cfg.stackHead,
           flag := false, mem := [], labels := Vector.replicate 16 0, progLen := 0, status := .idle }

/-- One step of the Resolver's pass (R203): a byte with bits 7:5 = 0b111 at offset `i` defines the
label of its bits 4:1 as `i + 1`. -/
def resolveByte (m : Memory) (labels : Vector Word 16) (i : Nat) : Vector Word 16 :=
  if baseOp (m.read i) = 0b111 then
    labels.set (midField (m.read i)).toNat (BitVec.ofNat 16 (i + 1)) (midField (m.read i)).isLt
  else labels

/-- `Preprocess` (R203): one ascending pass over the first PROGLEN bytes, over bytes and not over
instructions; the table is not cleared first. -/
def State.preprocess (s : State) : State :=
  { s with labels := (List.range s.progLen.toNat).foldl (resolveByte s.mem) s.labels }

/-- The program-presence check (R205). -/
def State.present (s : State) : Bool := s.mem.read 0 != 0 || s.mem.read 1 != 0

end Sys2Proof.Machine
end

