-- ==== Sys2Proof/Machine/Flags.lean ====
section
/-! DEFINITION. The machine's one flag, and the condition GOTO tests, which is not the flag (R29). -/

namespace Sys2Proof.Machine

/-- The value CMP gives FLAG: R0 equals R1, all 16 bits (R185). -/
def State.compareFlag (s : State) : Bool := s.x 0 == s.x 1

/-- `FLAG <- v` (R29). -/
def State.setFlag (s : State) (v : Bool) : State := { s with flag := v }

/-- Whether GOTO's jump is taken: on R0, not on FLAG (R29, R145). -/
def State.taken (s : State) (c : Cond) : Bool :=
  match c with
  | .z => s.x 0 == 0
  | .nz => s.x 0 != 0

end Sys2Proof.Machine
end

