-- ==== Sys2Proof/Machine/Operands.lean ====
section
/-! DEFINITION. Operands: the operand fetch (R160), the data-address check (R161, R162), and the
register exchange of SWAP. Register, label, condition and immediate fields are extracted once, in
Decode.lean (R93). -/

namespace Sys2Proof.Machine

/-- The byte at PC + k, as the fetch reads it (R53). Where PC + k lies at or beyond `MEM_SIZE` the
answer is 0 and is not used: the fetch or the operand check faults first (log 8). -/
def State.fetchByte (s : State) (k : Nat) : Byte :=
  if s.pc.toNat + k < s.cfg.memSize then s.mem.read (s.pc.toNat + k) else 0

/-- The bytes from PC on, as many as the longest instruction has (R53, R80). -/
def State.fetchWindow (s : State) : List Byte := [s.fetchByte 0, s.fetchByte 1, s.fetchByte 2]

/-- `n` operand bytes after the opcode byte lie in memory: the check of `FetchOperand8` (n = 1) and
`FetchOperand16` (n = 2), whose failure is `EndOfMemory` (R160, R232). -/
def State.operandsInside (s : State) (n : Nat) : Bool := decide (s.pc.toNat + n < s.cfg.memSize)

/-- The word at `addr` lies wholly in memory: the check whose failure is `BoundsViolation`
(R161, R162, R233). -/
def State.wordInside (s : State) (addr : Word) : Bool := decide (addr.toNat + 1 < s.cfg.memSize)

/-- `t <- x[a]; x[a] <- x[b]; x[b] <- t` (R170). -/
def State.exchange (s : State) (a b : RegIdx) : State := (s.setX a (s.x b)).setX b (s.x a)

end Sys2Proof.Machine
end

