-- ==== Sys2Proof/Machine/Arith.lean ====
section
/-! DEFINITION. SET, ADD, SUB, MUL (spec/40_set.md, 41_add_sub_mul.md), CMP and XSET
(48_ext_cmp_xset.md). The arithmetic is modulo 65536 (R125). -/

namespace Sys2Proof.Machine

/-- `SET imm5` (R120): all 16 bits of R0 are written. -/
def execSet (imm5 : BitVec 5) (s : State) : Host.Outcome State Fault Refusal :=
  .next ((s.setX 0 (imm5.setWidth 16)).advance 1)

/-- `ADD Rn` (R127). -/
def execAdd (n : RegIdx) (s : State) : Host.Outcome State Fault Refusal :=
  .next ((s.setX 0 (s.x 0 + s.x n)).advance 1)

/-- `SUB Rn` (R128): the accumulator is the minuend. -/
def execSub (n : RegIdx) (s : State) : Host.Outcome State Fault Refusal :=
  .next ((s.setX 0 (s.x 0 - s.x n)).advance 1)

/-- `MUL Rn` (R129): the low 16 bits of the product. -/
def execMul (n : RegIdx) (s : State) : Host.Outcome State Fault Refusal :=
  .next ((s.setX 0 (s.x 0 * s.x n)).advance 1)

/-- `CMP` (R185). -/
def execCmp (s : State) : Host.Outcome State Fault Refusal :=
  .next ((s.setFlag s.compareFlag).advance 1)

/-- `XSET imm16` (R186), after its operand fetch (R160). -/
def execXset (imm16 : Word) (s : State) : Host.Outcome State Fault Refusal :=
  if s.operandsInside 2 then .next ((s.setX 0 imm16).advance 3) else raise .endOfMemory s

end Sys2Proof.Machine
end

