-- ==== Sys2Proof/Machine/Control.lean ====
section
/-! DEFINITION. GOTO and LABEL (spec/43_goto_label.md), CALL and RET (47_ext_call_ret.md). -/

namespace Sys2Proof.Machine

/-- `GOTO l,c` (R145): the target is LABELS[l], unchecked. -/
def execGoto (l : LabelId) (c : Cond) (s : State) : Host.Outcome State Fault Refusal :=
  .next (if s.taken c then s.jump (s.labelAt l) else s.advance 1)

/-- `LABEL l` (R146): a marker; the label table is not written. -/
def execLabel (_l : LabelId) (s : State) : Host.Outcome State Fault Refusal := .next (s.advance 1)

/-- `CALL addr` (R176): the operand fetch is checked before the push (R242). -/
def execCall (addr : Word) (s : State) : Host.Outcome State Fault Refusal :=
  if s.operandsInside 2 then finish s ((s.push (s.pc + 3)).map fun t => t.jump addr)
  else raise .endOfMemory s

/-- `RET` (R177): PC is the popped value and is not advanced further. -/
def execRet (s : State) : Host.Outcome State Fault Refusal :=
  finish s (s.pop.map fun vt => vt.2.jump vt.1)

end Sys2Proof.Machine
end

