-- ==== Sys2Proof/Machine/LoadStore.lean ====
section
/-! DEFINITION. STORE and LOAD (spec/45_ext_store_load.md) and SWAP (46_ext_swap.md). Checks come in
the order of R242: operand bytes, then the data address. -/

namespace Sys2Proof.Machine

/-- `STORE addr` (R161). -/
def execStore (addr : Word) (s : State) : Host.Outcome State Fault Refusal :=
  if s.operandsInside 2 then
    if s.wordInside addr then .next ((s.storeWord addr.toNat (s.x 0)).advance 3)
    else raise .boundsViolation s
  else raise .endOfMemory s

/-- `LOAD addr` (R162). -/
def execLoad (addr : Word) (s : State) : Host.Outcome State Fault Refusal :=
  if s.operandsInside 2 then
    if s.wordInside addr then .next ((s.setX 0 (s.mem.readWord addr.toNat)).advance 3)
    else raise .boundsViolation s
  else raise .endOfMemory s

/-- `SWAP Ra,Rb` (R170). -/
def execSwap (a b : RegIdx) (s : State) : Host.Outcome State Fault Refusal :=
  if s.operandsInside 1 then .next ((s.exchange a b).advance 2) else raise .endOfMemory s

end Sys2Proof.Machine
end

