-- ==== Sys2Proof/Machine/Stack.lean ====
section
/-! DEFINITION. PUSH and POP (spec/42_push_pop.md). -/

namespace Sys2Proof.Machine

/-- Push a register and go on to the next instruction (R137, R138). -/
def pushFrom (r : RegIdx) (s : State) : Host.Outcome State Fault Refusal :=
  finish s ((s.push (s.x r)).map fun t => t.advance 1)

/-- Pop into a register and go on to the next instruction (R139, R140). -/
def popInto (r : RegIdx) (s : State) : Host.Outcome State Fault Refusal :=
  finish s (s.pop.map fun vt => (vt.2.setX r vt.1).advance 1)

/-- `PUSH Rn` (R137). -/
def execPushReg (n : RegIdx) (s : State) : Host.Outcome State Fault Refusal := pushFrom n s

/-- `PUSH R0` (R138). -/
def execPushAcc (s : State) : Host.Outcome State Fault Refusal := pushFrom 0 s

/-- `POP Rn` (R139). -/
def execPopReg (n : RegIdx) (s : State) : Host.Outcome State Fault Refusal := popInto n s

/-- `POP R0` (R140). -/
def execPopAcc (s : State) : Host.Outcome State Fault Refusal := popInto 0 s

end Sys2Proof.Machine
end

