-- ==== Sys2Proof/Machine/System.lean ====
section
/-! DEFINITION. NOOP and HALT (spec/44_ext_noop_halt.md) and the reserved opcodes (R96, R231). -/

namespace Sys2Proof.Machine

/-- `NOOP` (R155). -/
def execNoop (s : State) : Host.Outcome State Fault Refusal := .next (s.advance 1)

/-- `HALT` (R156): the event is emitted after the change it reports. -/
def execHalt (s : State) : Host.Outcome State Fault Refusal :=
  .next (((s.advance 1).setStatus .halted).emit .halted)

/-- The opcode byte 0xF9 (R96, R231): the fault `UnknownExtendedOpcode` is taken. -/
def execReservedF9 (s : State) : Host.Outcome State Fault Refusal := raise .unknownExtendedOpcode s

/-- The opcode bytes 0xFA, 0xFB (R96, R231). -/
def execReservedFA (_low : BitVec 1) (s : State) : Host.Outcome State Fault Refusal :=
  raise .unknownExtendedOpcode s

/-- The opcode bytes 0xFC..0xFF (R96, R231). -/
def execReservedFC (_low : BitVec 2) (s : State) : Host.Outcome State Fault Refusal :=
  raise .unknownExtendedOpcode s

end Sys2Proof.Machine
end

