-- ==== Sys2Proof/Machine/Dispatch.lean ====
section
/-! DEFINITION. The dispatch (R191 steps 3 and 4): one arm per constructor of `Instr`. -/

namespace Sys2Proof.Machine

/-- The meaning of an instruction (R191). -/
def exec (i : Instr) (s : State) : Host.Outcome State Fault Refusal :=
  match i with
  | .set imm5 => Sys2Proof.Machine.execSet imm5 s
  | .add n => Sys2Proof.Machine.execAdd n s
  | .sub n => Sys2Proof.Machine.execSub n s
  | .mul n => Sys2Proof.Machine.execMul n s
  | .pushReg n => Sys2Proof.Machine.execPushReg n s
  | .pushAcc => Sys2Proof.Machine.execPushAcc s
  | .popReg n => Sys2Proof.Machine.execPopReg n s
  | .popAcc => Sys2Proof.Machine.execPopAcc s
  | .goto l c => Sys2Proof.Machine.execGoto l c s
  | .label l => Sys2Proof.Machine.execLabel l s
  | .noop => Sys2Proof.Machine.execNoop s
  | .halt => Sys2Proof.Machine.execHalt s
  | .store addr => Sys2Proof.Machine.execStore addr s
  | .load addr => Sys2Proof.Machine.execLoad addr s
  | .swap a b => Sys2Proof.Machine.execSwap a b s
  | .call addr => Sys2Proof.Machine.execCall addr s
  | .ret => Sys2Proof.Machine.execRet s
  | .cmp => Sys2Proof.Machine.execCmp s
  | .xset imm16 => Sys2Proof.Machine.execXset imm16 s
  | .reservedF9 => Sys2Proof.Machine.execReservedF9 s
  | .reservedFA low => Sys2Proof.Machine.execReservedFA low s
  | .reservedFC low => Sys2Proof.Machine.execReservedFC low s

end Sys2Proof.Machine
end

