-- ==== Sys2Proof/Machine/RunControl.lean ====
section
/-! DEFINITION. The fetch-execute primitive, the commands and the tick (spec/50_run_control.md). -/

namespace Sys2Proof.Machine

/-- `FetchExecute()` (R190, R191): the opcode fetch with its `EndOfMemory` check, decode, dispatch. -/
def fetchExecute (s : State) : Host.Outcome State Fault Refusal :=
  if s.cfg.memSize ≤ s.pc.toNat then raise .endOfMemory s
  else exec (decodeWindow (s.fetchByte 0) (s.fetchByte 1) (s.fetchByte 2)) s

/-- The refusal of a command (R221): one event, no other change. -/
def diagnose (d : Diagnostic) (s : State) : Host.Outcome State Fault Refusal :=
  .next (s.emit (.diagnostic d))

/-- `reset` (R200). -/
def commandReset (s : State) : Host.Outcome State Fault Refusal := .next s.resetAll

/-- A program of `bytes` in a machine just reset: copy, PROGLEN, `Preprocess`, Loaded (R201). -/
def State.install (s : State) (bytes : List Byte) : State :=
  ({ s with mem := s.mem.copyIn 0 bytes, progLen := BitVec.ofNat 16 bytes.length }.preprocess).setStatus
    .loaded

/-- `load(bytes)` (R201, R204): the reset comes first, then the size check. -/
def commandLoad (bytes : List Byte) (s : State) : Host.Outcome State Fault Refusal :=
  if s.cfg.memSize < bytes.length then diagnose .programTooLarge s.resetAll
  else .next (s.resetAll.install bytes)

/-- `run` (R206): it executes no instruction itself. -/
def commandRun (s : State) : Host.Outcome State Fault Refusal :=
  match s.status with
  | .running => .next s
  | .halted => diagnose .machineHalted s
  | _ => if s.present then .next (s.setStatus .running) else diagnose .noProgram s

/-- What `step` does after its instruction (R207): in Halted (the instruction was HALT or took a
fault; `step` never starts one in Halted) nothing more, else STATUS becomes Paused and `Stepped` is
emitted (log 12). -/
def afterStep (t : State) : State :=
  match t.status with
  | .halted => t
  | _ => (t.setStatus .paused).emit .stepped

/-- One instruction and what `step` does after it (R207). -/
def stepFetched (s : State) : Host.Outcome State Fault Refusal :=
  match fetchExecute s with
  | .next t => .next (afterStep t)
  | .fault f => .fault f
  | .refused r => .refused r

/-- `step` (R207): the bound is `MEM_SIZE`, not PROGLEN. -/
def commandStep (s : State) : Host.Outcome State Fault Refusal :=
  match s.status with
  | .halted => diagnose .machineHalted s
  | _ =>
    if s.present then
      if s.cfg.memSize ≤ s.pc.toNat then diagnose .endOfMemory s else stepFetched s
    else diagnose .noProgram s

/-- `pause` (R208). -/
def commandPause (s : State) : Host.Outcome State Fault Refusal :=
  match s.status with
  | .running => .next ((s.setStatus .paused).emit .paused)
  | _ => .next s

/-- `halt` (R209). -/
def commandHalt (s : State) : Host.Outcome State Fault Refusal :=
  .next ((s.setStatus .halted).emit .halted)

/-- One command of the command input (R194). -/
def runCommand (c : Command) (s : State) : Host.Outcome State Fault Refusal :=
  match c with
  | .reset => commandReset s
  | .load bytes => commandLoad bytes s
  | .run => commandRun s
  | .step => commandStep s
  | .pause => commandPause s
  | .halt => commandHalt s

/-- A tick (R210, R211, R212): in Running, the program-bounds test and then one instruction; in any
other status, nothing. -/
def tick (s : State) : Host.Outcome State Fault Refusal :=
  match s.status with
  | .running =>
    if s.progLen.toNat ≤ s.pc.toNat then .next ((s.setStatus .halted).emit .completed)
    else fetchExecute s
  | _ => .next s

/-- The command that is ready, if one is, and the state with the input taken out of the inbox: a
command that still waits has one tick fewer to wait (R196; log 3). -/
def takeInput (s : State) : Option Command × State :=
  match s.inbox with
  | [] => (none, s)
  | ⟨0, c⟩ :: rest => (some c, { s with inbox := rest })
  | ⟨n + 1, c⟩ :: rest => (none, { s with inbox := ⟨n, c⟩ :: rest })

/-- One input of the machine: a ready command before the tick (R196). -/
def serveInput (s : State) : Host.Outcome State Fault Refusal :=
  match takeInput s with
  | (some c, t) => runCommand c t
  | (none, t) => tick t

/-- The state that runs `bytes` as its next instruction: they stand at PC and, so that the very next
step is a tick that reaches them, STATUS is Running, PROGLEN covers them and no command is pending
(log 7). -/
def State.withInstruction (s : State) (bytes : List Byte) : State :=
  { s with mem := s.mem.copyIn s.pc.toNat bytes,
           progLen := BitVec.ofNat 16 (max s.progLen.toNat (s.pc.toNat + bytes.length)),
           status := .running, inbox := [] }

end Sys2Proof.Machine
end

