-- ==== Sys2Proof/Machine/Step.lean ====
section
/-! DEFINITION. One step of the machine: one input, a command or a tick, served whole (R62, R196). -/

namespace Sys2Proof.Machine

/-- One step. -/
def step (s : State) : Host.Outcome State Fault Refusal := serveInput s

/-- `s` with the instruction of a table word placed where the next step fetches, and set to run it
(log 7). -/
def State.withFetchWord (s : State) (nbits w : Nat) : State := s.withInstruction (tableBytes nbits w)

end Sys2Proof.Machine
end

