-- ==== Sys2Proof/Machine/Assembler.lean ====
section
/-! DEFINITION. The encoder of mnemonic strings (R105 to R111) and the listing notation (R112). It is
no part of the machine's state: a pure function from text to bytes (R4(g)). -/

namespace Sys2Proof.Machine

/-- The eight operation names the encoder knows (R105). -/
inductive BaseName where
  | set
  | add
  | sub
  | mul
  | push
  | pop
  | goto
  | label
  deriving DecidableEq, Repr

/-- Why the encoder refuses a string whose operation it knows (R111, D26). -/
inductive EncoderRefusal where
  /-- An operand outside the range the rule states. -/
  | operandOutOfRange
  /-- A missing operand, one too many, or one that is no decimal numeral (log 13). -/
  | operandsMalformed
  deriving DecidableEq, Repr

/-- The operation a name denotes, if any (R105). -/
def baseName? (cs : List Char) : Option BaseName :=
  if cs = ['s', 'e', 't'] then some .set
  else if cs = ['a', 'd', 'd'] then some .add
  else if cs = ['s', 'u', 'b'] then some .sub
  else if cs = ['m', 'u', 'l'] then some .mul
  else if cs = ['p', 'u', 's', 'h'] then some .push
  else if cs = ['p', 'o', 'p'] then some .pop
  else if cs = ['g', 'o', 't', 'o'] then some .goto
  else if cs = ['l', 'a', 'b', 'e', 'l'] then some .label
  else none

/-- The parts of a string between its underscores, in order; always at least one. -/
def splitUnderscore : List Char → List (List Char)
  | [] => [[]]
  | c :: cs =>
    if c = '_' then [] :: splitUnderscore cs
    else
      match splitUnderscore cs with
      | [] => [[c]]
      | p :: ps => (c :: p) :: ps

/-- The value of a decimal digit. -/
def digit? (c : Char) : Option Nat :=
  if '0' ≤ c ∧ c ≤ '9' then some (c.toNat - '0'.toNat) else none

/-- The value of a run of decimal digits read after the value `acc`. -/
def digits? : Nat → List Char → Option Nat
  | acc, [] => some acc
  | acc, c :: cs =>
    match digit? c with
    | none => none
    | some d => digits? (10 * acc + d) cs

/-- A decimal numeral (R105); leading zeros are allowed (log 13). -/
def numeral? : List Char → Option Nat
  | [] => none
  | c :: cs => digits? 0 (c :: cs)

/-- `n` in `lo..hi`, then the byte `base + n`; else refused. -/
def ranged (lo hi n base : Nat) : Except EncoderRefusal Byte :=
  if lo ≤ n ∧ n ≤ hi then .ok (BitVec.ofNat 8 base) else .error .operandOutOfRange

/-- The byte of an operation with its operands (R106 to R110). -/
def encodeOperands (op : BaseName) (args : List (Option Nat)) : Except EncoderRefusal Byte :=
  match op, args with
  | .set, [some n] => ranged 0 31 n n
  | .add, [some n] => ranged 1 16 n (0x20 + 2 * (n - 1))
  | .sub, [some n] => ranged 1 16 n (0x40 + 2 * (n - 1))
  | .mul, [some n] => ranged 1 16 n (0x60 + 2 * (n - 1))
  | .push, [some n] => if n = 0 then .ok 0x81 else ranged 1 16 n (0x80 + 2 * (n - 1))
  | .pop, [some n] => if n = 0 then .ok 0xA1 else ranged 1 16 n (0xA0 + 2 * (n - 1))
  | .goto, [some l, some o] =>
    if l ≤ 15 ∧ o ≤ 1 then .ok (BitVec.ofNat 8 (0xC0 + 2 * l + o)) else .error .operandOutOfRange
  | .label, [some l] => ranged 0 15 l (0xE0 + 2 * l)
  | _, _ => .error .operandsMalformed

/-- The encoder (R105, R111): an unrecognized operation name gives the zero byte. -/
def encodeMnemonic (text : String) : Except EncoderRefusal Byte :=
  match splitUnderscore text.toList with
  | [] => .ok 0
  | name :: args =>
    match baseName? name with
    | none => .ok 0
    | some op => encodeOperands op (args.map numeral?)

/-- A full program (R111): mnemonic number k becomes the byte at offset k. -/
def assemble : List String → Except EncoderRefusal (List Byte)
  | [] => .ok []
  | t :: ts =>
    match encodeMnemonic t with
    | .error e => .error e
    | .ok b =>
      match assemble ts with
      | .error e => .error e
      | .ok bs => .ok (b :: bs)

end Sys2Proof.Machine

namespace Sys2Proof

/-- The encoder's string of a base-set instruction; the extended set has none (R105, R112). -/
def Instr.encoderString : Instr → Option String
  | .set imm5 => some ("set_" ++ toString imm5.toNat)
  | .add n => some ("add_" ++ toString n.val)
  | .sub n => some ("sub_" ++ toString n.val)
  | .mul n => some ("mul_" ++ toString n.val)
  | .pushReg n => some ("push_" ++ toString n.val)
  | .pushAcc => some "push_0"
  | .popReg n => some ("pop_" ++ toString n.val)
  | .popAcc => some "pop_0"
  | .goto l c => some ("goto_" ++ toString l.val ++ "_" ++ toString (bitOfCond c).toNat)
  | .label l => some ("label_" ++ toString l.val)
  | .noop => none
  | .halt => none
  | .store _ => none
  | .load _ => none
  | .swap _ _ => none
  | .call _ => none
  | .ret => none
  | .cmp => none
  | .xset _ => none
  | .reservedF9 => none
  | .reservedFA _ => none
  | .reservedFC _ => none

/-- A hexadecimal digit, upper case. -/
def hexDigit (n : Nat) : Char := if n < 10 then Char.ofNat (48 + n) else Char.ofNat (55 + n)

/-- A byte in hexadecimal, two digits. -/
def hexByte (b : Byte) : String := String.ofList [hexDigit (b.toNat / 16), hexDigit (b.toNat % 16)]

/-- A word in hexadecimal as the vectors write addresses: `0x0080`. -/
def hexWord (w : Word) : String := "0x" ++ hexByte (hiByte w) ++ hexByte (loByte w)

/-- The listing of an instruction (R13, R112): a 16-bit operand in hexadecimal, every other number in
decimal, a reserved byte by its number (log 14). -/
def Instr.listing : Instr → String
  | .set imm5 => "SET " ++ toString imm5.toNat
  | .add n => "ADD R" ++ toString n.val
  | .sub n => "SUB R" ++ toString n.val
  | .mul n => "MUL R" ++ toString n.val
  | .pushReg n => "PUSH R" ++ toString n.val
  | .pushAcc => "PUSH R0"
  | .popReg n => "POP R" ++ toString n.val
  | .popAcc => "POP R0"
  | .goto l .z => "GOTO " ++ toString l.val ++ ",Z"
  | .goto l .nz => "GOTO " ++ toString l.val ++ ",NZ"
  | .label l => "LABEL " ++ toString l.val
  | .noop => "NOOP"
  | .halt => "HALT"
  | .store addr => "STORE " ++ hexWord addr
  | .load addr => "LOAD " ++ hexWord addr
  | .swap a b => "SWAP R" ++ toString a.val ++ ",R" ++ toString b.val
  | .call addr => "CALL " ++ hexWord addr
  | .ret => "RET"
  | .cmp => "CMP"
  | .xset imm16 => "XSET " ++ hexWord imm16
  | .reservedF9 => "reserved 0xF9"
  | .reservedFA low => "reserved 0x" ++ hexByte (BitVec.ofNat 8 (0xFA + low.toNat))
  | .reservedFC low => "reserved 0x" ++ hexByte (BitVec.ofNat 8 (0xFC + low.toNat))

end Sys2Proof
end

