-- ==== Sys2Proof/Machine/Introspect.lean ====
section
/-! DEFINITION. The observation output: pure functions of the state (R222), and the two booleans that
the status is read as (R40). Registers, PC, SP, FLAG and STATUS are the fields themselves. -/

namespace Sys2Proof.Machine

/-- `RunFlag = (STATUS == Running)` (R40). -/
def State.runFlag (s : State) : Bool := s.status == .running

/-- `HaltFlag = (STATUS == Halted)` (R40). -/
def State.haltFlag (s : State) : Bool := s.status == .halted

/-- `Registers = (x[0], ..., x[16])` (R222). -/
def State.registerDump (s : State) : List Word := s.regs.toList

/-- `Memory(a) = MEM[a]` for `a` in 0..MEM_SIZE-1, and no value elsewhere (R222). -/
def State.memoryAt (s : State) (a : Nat) : Option Byte :=
  if a < s.cfg.memSize then some (s.mem.read a) else none

/-- `n` words of memory from `a` on, two bytes apart. -/
def wordsFrom (m : Memory) : Nat → Nat → List Word
  | 0, _ => []
  | n + 1, a => m.readWord a :: wordsFrom m n (a + 2)

/-- The depth of the stack in slots (R28). -/
def State.depth (s : State) : Nat := (s.cfg.stackHead - s.sp.toNat) / 2

/-- `Stack = (MemRead(SP, 2), ..., MemRead(STACK_HEAD - 2, 2))`, the top first (R222). -/
def State.stackDump (s : State) : List Word := wordsFrom s.mem s.depth s.sp.toNat

/-- The results of `FetchExecute` (R190). -/
inductive FetchResult where
  | ok
  | halted
  | fault (reason : Fault)
  deriving DecidableEq, Repr

/-- The result of a fetch-execute that went from `s` to `t` (R192), read from the event it emitted. -/
def fetchResult (s t : State) : FetchResult :=
  match t.events.drop s.events.length with
  | [.faulted f] => .fault f
  | [.halted] => .halted
  | _ => .ok

end Sys2Proof.Machine
end

