-- ==== Sys2Proof/Safety.lean ====
section
/-! DEFINITION. The terms claims are stated in: which fault the spec lists for an instruction, what a
frame keeps, what the stack forms push and pop, the table of transitions, and the invariant of a machine
that started from a reset. -/

namespace Sys2Proof.Machine

/-! ## The faults the spec lists (R230, R242) -/

/-- The reserved opcodes (R96). -/
def isReserved : Instr → Bool
  | .set _ => false
  | .add _ => false
  | .sub _ => false
  | .mul _ => false
  | .pushReg _ => false
  | .pushAcc => false
  | .popReg _ => false
  | .popAcc => false
  | .goto _ _ => false
  | .label _ => false
  | .noop => false
  | .halt => false
  | .store _ => false
  | .load _ => false
  | .swap _ _ => false
  | .call _ => false
  | .ret => false
  | .cmp => false
  | .xset _ => false
  | .reservedF9 => true
  | .reservedFA _ => true
  | .reservedFC _ => true

/-- The data address of STORE and LOAD (R55, R230). -/
def dataAddress : Instr → Option Word
  | .set _ => none
  | .add _ => none
  | .sub _ => none
  | .mul _ => none
  | .pushReg _ => none
  | .pushAcc => none
  | .popReg _ => none
  | .popAcc => none
  | .goto _ _ => none
  | .label _ => none
  | .noop => none
  | .halt => none
  | .store addr => some addr
  | .load addr => some addr
  | .swap _ _ => none
  | .call _ => none
  | .ret => none
  | .cmp => none
  | .xset _ => none
  | .reservedF9 => none
  | .reservedFA _ => none
  | .reservedFC _ => none

/-- The instructions that push: PUSH and CALL (R28, R55). -/
def isPush : Instr → Bool
  | .set _ => false
  | .add _ => false
  | .sub _ => false
  | .mul _ => false
  | .pushReg _ => true
  | .pushAcc => true
  | .popReg _ => false
  | .popAcc => false
  | .goto _ _ => false
  | .label _ => false
  | .noop => false
  | .halt => false
  | .store _ => false
  | .load _ => false
  | .swap _ _ => false
  | .call _ => true
  | .ret => false
  | .cmp => false
  | .xset _ => false
  | .reservedF9 => false
  | .reservedFA _ => false
  | .reservedFC _ => false

/-- The instructions that pop: POP and RET (R28, R55). -/
def isPop : Instr → Bool
  | .set _ => false
  | .add _ => false
  | .sub _ => false
  | .mul _ => false
  | .pushReg _ => false
  | .pushAcc => false
  | .popReg _ => true
  | .popAcc => true
  | .goto _ _ => false
  | .label _ => false
  | .noop => false
  | .halt => false
  | .store _ => false
  | .load _ => false
  | .swap _ _ => false
  | .call _ => false
  | .ret => true
  | .cmp => false
  | .xset _ => false
  | .reservedF9 => false
  | .reservedFA _ => false
  | .reservedFC _ => false

/-- R233's condition, for an instruction with a data address. -/
def BoundsViolated (i : Instr) (s : State) : Prop :=
  ∃ addr, dataAddress i = some addr ∧ addr.toNat + 1 ≥ s.cfg.memSize

/-- R232(b)'s condition: an operand byte lies at or beyond `MEM_SIZE`. -/
def OperandOutside (i : Instr) (s : State) : Prop :=
  1 < i.width ∧ s.pc.toNat + (i.width - 1) ≥ s.cfg.memSize

/-- R234's condition, over the integers. -/
def StackFull (s : State) : Prop := (s.sp.toNat : Int) - 2 < (s.cfg.stackLimit : Int)

/-- R235's condition. -/
def StackEmpty (s : State) : Prop := s.sp.toNat + 2 > s.cfg.stackHead

/-- The fault the instruction reports when its opcode byte has been fetched: R230's conditions in
R242's order, the first that fails being the one reported. -/
def Reports (i : Instr) (s : State) : Fault → Prop
  | .unknownExtendedOpcode => isReserved i = true
  | .endOfMemory => isReserved i = false ∧ OperandOutside i s
  | .boundsViolation => isReserved i = false ∧ ¬ OperandOutside i s ∧ BoundsViolated i s
  | .stackOverflow =>
    isReserved i = false ∧ ¬ OperandOutside i s ∧ ¬ BoundsViolated i s ∧ isPush i = true ∧ StackFull s
  | .stackUnderflow =>
    isReserved i = false ∧ ¬ OperandOutside i s ∧ ¬ BoundsViolated i s ∧ isPop i = true ∧ StackEmpty s

/-- The instruction reports no fault: its run is safe. -/
def Completes (i : Instr) (s : State) : Prop := ∀ f, ¬ Reports i s f

/-! ## What the tables list (R21, R25) -/

/-- The "reads" column of R21. -/
def regsRead : Instr → List RegIdx
  | .set _ => []
  | .add n => [0, n]
  | .sub n => [0, n]
  | .mul n => [0, n]
  | .pushReg n => [n]
  | .pushAcc => [0]
  | .popReg _ => []
  | .popAcc => []
  | .goto _ _ => [0]
  | .label _ => []
  | .noop => []
  | .halt => []
  | .store _ => [0]
  | .load _ => []
  | .swap a b => [a, b]
  | .call _ => []
  | .ret => []
  | .cmp => [0, 1]
  | .xset _ => []
  | .reservedF9 => []
  | .reservedFA _ => []
  | .reservedFC _ => []

/-- The "writes" column of R21. -/
def regsWritten : Instr → List RegIdx
  | .set _ => [0]
  | .add _ => [0]
  | .sub _ => [0]
  | .mul _ => [0]
  | .pushReg _ => []
  | .pushAcc => []
  | .popReg n => [n]
  | .popAcc => [0]
  | .goto _ _ => []
  | .label _ => []
  | .noop => []
  | .halt => []
  | .store _ => []
  | .load _ => [0]
  | .swap a b => [a, b]
  | .call _ => []
  | .ret => []
  | .cmp => []
  | .xset _ => [0]
  | .reservedF9 => []
  | .reservedFA _ => []
  | .reservedFC _ => []

/-- The two bytes at `a` and `a + 1` are `w`, big-endian (R50). -/
def BigEndianAt (m : Memory) (a : Nat) (w : Word) : Prop :=
  256 * (m.read a).toNat + (m.read (a + 1)).toNat = w.toNat

/-- R25's table: where PC goes when the instruction completes. -/
def NewPc (i : Instr) (s : State) (pc : Word) : Prop :=
  match i with
  | .set _ => pc = s.pc + BitVec.ofNat 16 i.width
  | .add _ => pc = s.pc + BitVec.ofNat 16 i.width
  | .sub _ => pc = s.pc + BitVec.ofNat 16 i.width
  | .mul _ => pc = s.pc + BitVec.ofNat 16 i.width
  | .pushReg _ => pc = s.pc + BitVec.ofNat 16 i.width
  | .pushAcc => pc = s.pc + BitVec.ofNat 16 i.width
  | .popReg _ => pc = s.pc + BitVec.ofNat 16 i.width
  | .popAcc => pc = s.pc + BitVec.ofNat 16 i.width
  | .goto l c =>
    pc = if (c = .z ∧ s.x 0 = 0) ∨ (c = .nz ∧ s.x 0 ≠ 0) then s.labelAt l else s.pc + 1
  | .label _ => pc = s.pc + BitVec.ofNat 16 i.width
  | .noop => pc = s.pc + BitVec.ofNat 16 i.width
  | .halt => pc = s.pc + BitVec.ofNat 16 i.width
  | .store _ => pc = s.pc + BitVec.ofNat 16 i.width
  | .load _ => pc = s.pc + BitVec.ofNat 16 i.width
  | .swap _ _ => pc = s.pc + BitVec.ofNat 16 i.width
  | .call addr => pc = addr
  | .ret => BigEndianAt s.mem s.sp.toNat pc
  | .cmp => pc = s.pc + BitVec.ofNat 16 i.width
  | .xset _ => pc = s.pc + BitVec.ofNat 16 i.width
  | .reservedF9 => pc = s.pc + BitVec.ofNat 16 i.width
  | .reservedFA _ => pc = s.pc + BitVec.ofNat 16 i.width
  | .reservedFC _ => pc = s.pc + BitVec.ofNat 16 i.width

/-- The instructions that may load PC from elsewhere (R26): GOTO, CALL, RET. -/
def isTransfer : Instr → Bool
  | .set _ => false
  | .add _ => false
  | .sub _ => false
  | .mul _ => false
  | .pushReg _ => false
  | .pushAcc => false
  | .popReg _ => false
  | .popAcc => false
  | .goto _ _ => true
  | .label _ => false
  | .noop => false
  | .halt => false
  | .store _ => false
  | .load _ => false
  | .swap _ _ => false
  | .call _ => true
  | .ret => true
  | .cmp => false
  | .xset _ => false
  | .reservedF9 => false
  | .reservedFA _ => false
  | .reservedFC _ => false

/-! ## Frames -/

/-- Every register but those of `ds` keeps its value. -/
def RegsKeptBut (ds : List RegIdx) (s t : State) : Prop := ∀ r, r ∉ ds → t.x r = s.x r

/-- Every byte of memory but the `n` bytes from `lo` on keeps its value. -/
def MemKeptBut (lo n : Nat) (s t : State) : Prop :=
  ∀ a, ¬ (lo ≤ a ∧ a < lo + n) → t.mem.read a = s.mem.read a

/-- Every byte of memory keeps its value. -/
def MemKept (s t : State) : Prop := ∀ a, t.mem.read a = s.mem.read a

/-- The configuration, the label table, PROGLEN and the command input are kept: no instruction writes
them (R31, R32, R42). -/
def TablesKept (s t : State) : Prop :=
  t.cfg = s.cfg ∧ (∀ l, t.labelAt l = s.labelAt l) ∧ t.progLen = s.progLen ∧ t.inbox = s.inbox

/-- STATUS and the event output are kept. -/
def RunKept (s t : State) : Prop := t.status = s.status ∧ t.events = s.events

/-- At most the registers of `ds` and PC change. -/
def OnlyRegs (ds : List RegIdx) (s t : State) : Prop :=
  RegsKeptBut ds s t ∧ t.sp = s.sp ∧ t.flag = s.flag ∧ MemKept s t ∧ TablesKept s t ∧ RunKept s t

/-- Everything but STATUS and the two streams is kept: registers, PC, SP, FLAG, memory, labels,
PROGLEN and the configuration. -/
def CoreKept (s t : State) : Prop :=
  RegsKeptBut [] s t ∧ t.pc = s.pc ∧ t.sp = s.sp ∧ t.flag = s.flag ∧ MemKept s t ∧
    (∀ l, t.labelAt l = s.labelAt l) ∧ t.progLen = s.progLen ∧ t.cfg = s.cfg

/-- The fault `f` is taken from `s` (R193, R240): everything is kept but STATUS, which is Halted, and
the event output, which has `Faulted(f)` more. -/
def TakesFault (f : Fault) (s t : State) : Prop :=
  CoreKept s t ∧ t.inbox = s.inbox ∧ t.status = .halted ∧ t.events = s.events ++ [.faulted f]

/-! ## The stack forms (R135 to R140) -/

/-- What R135 and R137 say of the instruction `i` that pushes register `r` from the state `s`. -/
def PushesRegister (i : Instr) (r : RegIdx) (s : State) : Prop :=
  (¬ StackFull s → ∃ t, exec i s = .next t ∧ t.sp.toNat + 2 = s.sp.toNat ∧
    s.pushSlot = t.sp.toNat ∧ (t.mem.read s.pushSlot).toNat = (s.x r).toNat / 256 ∧
    (t.mem.read (s.pushSlot + 1)).toNat = (s.x r).toNat % 256 ∧ MemKeptBut s.pushSlot 2 s t ∧
    t.pc = s.pc + 1 ∧ RegsKeptBut [] s t ∧ t.flag = s.flag ∧ TablesKept s t ∧ RunKept s t) ∧
  (StackFull s → ∃ t, exec i s = .next t ∧ TakesFault .stackOverflow s t)

/-- What R136 and R139 say of the instruction `i` that pops into register `r` from the state `s`. -/
def PopsRegister (i : Instr) (r : RegIdx) (s : State) : Prop :=
  (¬ StackEmpty s → ∃ t, exec i s = .next t ∧ BigEndianAt s.mem s.sp.toNat (t.x r) ∧
    t.sp = s.sp + 2 ∧ t.pc = s.pc + 1 ∧ RegsKeptBut [r] s t ∧ MemKept s t ∧ t.flag = s.flag ∧
    TablesKept s t ∧ RunKept s t) ∧
  (StackEmpty s → ∃ t, exec i s = .next t ∧ TakesFault .stackUnderflow s t)

/-- The value an instruction that pushes puts on the stack, from the state before it (R137, R138,
R176). -/
def pushedValue : Instr → State → Option Word
  | .set _, _ => none
  | .add _, _ => none
  | .sub _, _ => none
  | .mul _, _ => none
  | .pushReg n, s => some (s.x n)
  | .pushAcc, s => some (s.x 0)
  | .popReg _, _ => none
  | .popAcc, _ => none
  | .goto _ _, _ => none
  | .label _, _ => none
  | .noop, _ => none
  | .halt, _ => none
  | .store _, _ => none
  | .load _, _ => none
  | .swap _ _, _ => none
  | .call _, s => some (s.pc + 3)
  | .ret, _ => none
  | .cmp, _ => none
  | .xset _, _ => none
  | .reservedF9, _ => none
  | .reservedFA _, _ => none
  | .reservedFC _, _ => none

/-- The value an instruction that pops took off the stack, from the state after it (R139, R140,
R177). -/
def poppedValue : Instr → State → Option Word
  | .set _, _ => none
  | .add _, _ => none
  | .sub _, _ => none
  | .mul _, _ => none
  | .pushReg _, _ => none
  | .pushAcc, _ => none
  | .popReg n, t => some (t.x n)
  | .popAcc, t => some (t.x 0)
  | .goto _ _, _ => none
  | .label _, _ => none
  | .noop, _ => none
  | .halt, _ => none
  | .store _, _ => none
  | .load _, _ => none
  | .swap _ _, _ => none
  | .call _, _ => none
  | .ret, t => some t.pc
  | .cmp, _ => none
  | .xset _, _ => none
  | .reservedF9, _ => none
  | .reservedFA _, _ => none
  | .reservedFC _, _ => none

/-- The instruction pushes register `r`, in either form (R137, R138). -/
def PushOf (i : Instr) (r : RegIdx) : Prop := i = .pushReg r ∨ (i = .pushAcc ∧ r = 0)

/-- The instruction pops into register `r`, in either form (R139, R140). -/
def PopOf (i : Instr) (r : RegIdx) : Prop := i = .popReg r ∨ (i = .popAcc ∧ r = 0)

/-- The instruction, run in `s`, advances PC linearly (R25, R26): it is no transfer, or a GOTO whose
condition is false. -/
def AdvancesLinearly (i : Instr) (s : State) : Prop :=
  isTransfer i = false ∨ (∃ l, i = .goto l .z ∧ s.x 0 ≠ 0) ∨ ∃ l, i = .goto l .nz ∧ s.x 0 = 0

/-! ## Inputs -/

/-- The next input of `s` is the command `c` (R196). -/
def Ready (c : Command) (s : State) : Prop := ∃ rest, s.inbox = ⟨0, c⟩ :: rest

/-- The next input of `s` is a tick (R196, R210). -/
def TickNext (s : State) : Prop := ∀ c, ¬ Ready c s

/-- The machine's next input is neither `reset` nor `load`. -/
def NoReload (s : State) : Prop := ¬ Ready .reset s ∧ ∀ bytes, ¬ Ready (.load bytes) s

/-- The program-presence check passes (R205). -/
def Present (s : State) : Prop := s.mem.read 0 ≠ 0 ∨ s.mem.read 1 ≠ 0

/-- The instruction that the bytes at PC decode to is `i`. -/
def InstrAt (s : State) (i : Instr) : Prop := ∃ tail, decode s.fetchWindow = .ok (i, tail)

/-- "No change of any state" (R195): everything but the command input is kept. -/
def Unmoved (s t : State) : Prop := CoreKept s t ∧ RunKept s t

/-- No change of any state, with one diagnostic (R195, R221). -/
def Refused (s t : State) : Prop :=
  CoreKept s t ∧ t.status = s.status ∧ ∃ d, t.events = s.events ++ [.diagnostic d]

/-- The table of R195 for one step from `s` to `t`, row by row. -/
structure StatusTable (s t : State) : Prop where
  /-- `reset`, every status. -/
  reset : Ready .reset s → t.status = .idle
  /-- `load`, fits, every status. -/
  loadFits : ∀ bytes, Ready (.load bytes) s → bytes.length ≤ s.cfg.memSize → t.status = .loaded
  /-- `load`, too large, every status. -/
  loadTooLarge : ∀ bytes, Ready (.load bytes) s → s.cfg.memSize < bytes.length → t.status = .idle
  /-- In Idle the check cannot pass. -/
  idleCannotPass : s.status = .idle → ¬ Present s
  /-- `run`, check passes, Loaded and Paused. -/
  runPasses : Ready .run s → s.status = .loaded ∨ s.status = .paused → Present s → t.status = .running
  /-- `run` in Running. -/
  runRunning : Ready .run s → s.status = .running → Unmoved s t
  /-- `run` in Halted. -/
  runHalted : Ready .run s → s.status = .halted → Refused s t
  /-- `run`, check fails, Idle, Loaded and Paused. -/
  runFails : Ready .run s → s.status ≠ .running → s.status ≠ .halted → ¬ Present s → Refused s t
  /-- `step`, executes, result ok. -/
  stepOk : ∀ i, Ready .step s → s.status ≠ .halted → Present s → s.pc.toNat < s.cfg.memSize →
    InstrAt s i → Completes i s → i ≠ .halt → t.status = .paused
  /-- `step`, executes HALT or faults. -/
  stepStops : ∀ i, Ready .step s → s.status ≠ .halted → Present s → s.pc.toNat < s.cfg.memSize →
    InstrAt s i → i = .halt ∨ (∃ f, Reports i s f) → t.status = .halted
  /-- `step`, refused. -/
  stepRefused : Ready .step s → s.status = .halted ∨ ¬ Present s ∨ s.cfg.memSize ≤ s.pc.toNat →
    Refused s t
  /-- `pause` in Running. -/
  pauseRunning : Ready .pause s → s.status = .running → t.status = .paused
  /-- `pause` in any other status. -/
  pauseElse : Ready .pause s → s.status ≠ .running → Unmoved s t
  /-- `halt`, every status. -/
  halt : Ready .halt s → t.status = .halted
  /-- A tick outside Running. -/
  tickElse : TickNext s → s.status ≠ .running → Unmoved s t
  /-- A tick in Running, PC < PROGLEN, result ok. -/
  tickOk : ∀ i, TickNext s → s.status = .running → s.pc.toNat < s.progLen.toNat → InstrAt s i →
    Completes i s → i ≠ .halt → t.status = .running
  /-- A tick in Running, PC < PROGLEN, HALT or fault. -/
  tickStops : ∀ i, TickNext s → s.status = .running → s.pc.toNat < s.progLen.toNat → InstrAt s i →
    i = .halt ∨ (∃ f, Reports i s f) → t.status = .halted
  /-- A tick in Running, PC >= PROGLEN. -/
  tickPast : TickNext s → s.status = .running → s.progLen.toNat ≤ s.pc.toNat → t.status = .halted

/-- The command input after one tick: the first pending command waits one tick fewer. -/
def waited : List Arrival → List Arrival
  | [] => []
  | a :: rest => ⟨a.afterTicks - 1, a.command⟩ :: rest

/-- The meanings of a list of instructions, one after the other. -/
def execAll : List Instr → State → Host.Outcome State Fault Refusal
  | [], s => .next s
  | i :: is, s =>
    match exec i s with
    | .next t => execAll is t
    | .fault f => .fault f
    | .refused r => .refused r

/-! ## Labels and the encoder -/

/-- The byte at offset `k` of `bytes` defines label `l` (R203). -/
def Defines (bytes : List Byte) (l : LabelId) (k : Nat) : Prop :=
  ∃ b, bytes[k]? = some b ∧ b.toNat / 32 = 7 ∧ b.toNat / 2 % 16 = l.val

/-- The offset `k` is the last at which `bytes` defines label `l` (R203, R147). -/
def DefinesLast (bytes : List Byte) (l : LabelId) (k : Nat) : Prop :=
  Defines bytes l k ∧ ∀ j, k < j → ¬ Defines bytes l j

/-- The operation names the encoder knows (R105). -/
def encoderNames : List String := ["set", "add", "sub", "mul", "push", "pop", "goto", "label"]

/-- How many operands an operation takes (R105). -/
def operandCount (name : String) : Nat := if name = "goto" then 2 else 1

/-- The text is no decimal numeral: it is empty or has a character that is no digit (R105, R111). -/
def NoNumeral (part : String) : Prop := part = "" ∨ ∃ c ∈ part.toList, c.isDigit = false

/-- The encoder's string of the instruction, if it has one, gives the byte it is encoded as (R105). -/
def Assembles (i : Instr) : Prop :=
  ∀ text b, i.encoderString = some text → encode i = [b] → encodeMnemonic text = .ok b

/-! ## The invariant -/

/-- Registers, PC, SP and FLAG as `Reset` leaves them (R45). -/
def FreshCore (s : State) : Prop :=
  (∀ r, s.x r = 0) ∧ s.pc = 0 ∧ s.sp.toNat = s.cfg.stackHead ∧ s.flag = false

/-- Every piece of the spec's state has its value of R45. -/
def AsReset (t : State) : Prop := FreshCore t ∧ (∀ l, t.labelAt l = 0) ∧ t.progLen = 0 ∧
  (∀ a, t.mem.read a = 0) ∧ t.status = .idle

/-- What holds in every state that follows a reset. -/
structure Inv (s : State) : Prop where
  /-- The configuration meets the constraints of R7. -/
  cfgOk : s.cfg.wf = true
  /-- Memory is in its canonical form. -/
  memCanonical : s.mem.wf = true
  /-- No byte outside 0..MEM_SIZE-1 was ever written (R57). -/
  memInside : ∀ c ∈ s.mem, c.1 < s.cfg.memSize
  /-- `STACK_LIMIT <= SP` (R28). -/
  spLow : s.cfg.stackLimit ≤ s.sp.toNat
  /-- `SP <= STACK_HEAD` (R28). -/
  spHigh : s.sp.toNat ≤ s.cfg.stackHead
  /-- `STACK_HEAD - SP` is even (R28). -/
  spEven : (s.cfg.stackHead - s.sp.toNat) % 2 = 0
  /-- `PROGLEN <= MEM_SIZE` (R32). -/
  progLenInside : s.progLen.toNat ≤ s.cfg.memSize
  /-- A label entry is at most PROGLEN (R203). -/
  labelsInside : ∀ l, (s.labelAt l).toNat ≤ s.progLen.toNat
  /-- In Idle and Loaded no instruction has executed since the reset (R195, R252). -/
  fresh : s.status = .idle ∨ s.status = .loaded → FreshCore s
  /-- In Idle no program is installed (R45, R195). -/
  idleEmpty : s.status = .idle → s.mem = [] ∧ s.progLen = 0

end Sys2Proof.Machine
end

