-- ==== Sys2Proof/Certificates/Slice0/Obligations.lean ====
section
/-! DEFINITION. The statements for the provers. Each docstring names the rule of the spec it
formalises; frames and conditions are defined in Sys2Proof/Safety.lean. -/

open Sys2Proof Sys2Proof.Machine

/-! ## Encoding (spec/30_encoding.md) -/

/-- R82 to R92: decoding the bytes of a well-formed instruction gives it back, with every operand at
every value, and leaves the bytes after it. -/
def Obligations.DecodeInvertsEncode : Prop :=
  ∀ (i : Instr) (rest : List Byte), i.wf = true → decode (encode i ++ rest) = .ok (i, rest)

/-- R22, R80, R87: what the decoder gives is well-formed (no index an encoding forms is out of its
range) and took exactly its width, 1, 2 or 3 bytes, from the front. -/
def Obligations.DecodeYieldsWellFormed : Prop :=
  ∀ (bs : List Byte) (i : Instr) (rest : List Byte), decode bs = .ok (i, rest) →
    i.wf = true ∧ 1 ≤ i.width ∧ i.width ≤ 3 ∧ ∃ used, bs = used ++ rest ∧ used.length = i.width

/-- R95 (with R88's table): the opcode byte alone tells the length, whatever the operand bytes, and
decoding succeeds exactly when that many bytes are there. -/
def Obligations.OpcodeByteAloneTellsLength : Prop :=
  ∀ (b : Byte) (bs : List Byte),
    (∀ o1 o2, (decodeWindow b o1 o2).width = lengthOfOpcode b) ∧
    (b.toNat / 16 ≠ 15 → lengthOfOpcode b = 1) ∧
    (lengthOfOpcode b = 3 ↔ b.toNat ∈ [0xF2, 0xF3, 0xF5, 0xF8]) ∧
    (lengthOfOpcode b = 2 ↔ b.toNat = 0xF4) ∧
    (lengthOfOpcode b = 1 ↔ b.toNat ∉ [0xF2, 0xF3, 0xF4, 0xF5, 0xF8]) ∧
    ((∃ i rest, decode (b :: bs) = .ok (i, rest)) ↔ lengthOfOpcode b ≤ (b :: bs).length)

/-- R94: the opcode map, all 256 opcode bytes. -/
def Obligations.OpcodeMapOfEveryByte : Prop :=
  ∀ b o1 o2 : Byte,
    (b.toNat ≤ 0x1F → decodeWindow b o1 o2 = .set (BitVec.ofNat 5 b.toNat)) ∧
    (∀ n : RegIdx, n.val = b.toNat / 2 % 16 + 1 →
      (0x20 ≤ b.toNat → b.toNat ≤ 0x3F → decodeWindow b o1 o2 = .add n) ∧
      (0x40 ≤ b.toNat → b.toNat ≤ 0x5F → decodeWindow b o1 o2 = .sub n) ∧
      (0x60 ≤ b.toNat → b.toNat ≤ 0x7F → decodeWindow b o1 o2 = .mul n) ∧
      (0x80 ≤ b.toNat → b.toNat ≤ 0x9F → b.toNat % 2 = 0 → decodeWindow b o1 o2 = .pushReg n) ∧
      (0xA0 ≤ b.toNat → b.toNat ≤ 0xBF → b.toNat % 2 = 0 → decodeWindow b o1 o2 = .popReg n)) ∧
    (0x80 ≤ b.toNat → b.toNat ≤ 0x9F → b.toNat % 2 = 1 → decodeWindow b o1 o2 = .pushAcc) ∧
    (0xA0 ≤ b.toNat → b.toNat ≤ 0xBF → b.toNat % 2 = 1 → decodeWindow b o1 o2 = .popAcc) ∧
    (∀ l : LabelId, l.val = b.toNat / 2 % 16 →
      (0xC0 ≤ b.toNat → b.toNat ≤ 0xDF → b.toNat % 2 = 0 → decodeWindow b o1 o2 = .goto l .z) ∧
      (0xC0 ≤ b.toNat → b.toNat ≤ 0xDF → b.toNat % 2 = 1 → decodeWindow b o1 o2 = .goto l .nz) ∧
      (0xE0 ≤ b.toNat → b.toNat ≤ 0xEF → decodeWindow b o1 o2 = .label l ∧ l.val ≤ 7)) ∧
    (b = 0xF0 → decodeWindow b o1 o2 = .noop) ∧
    (b = 0xF1 → decodeWindow b o1 o2 = .halt) ∧
    (∀ w : Word, w.toNat = 256 * o1.toNat + o2.toNat →
      (b = 0xF2 → decodeWindow b o1 o2 = .store w) ∧
      (b = 0xF3 → decodeWindow b o1 o2 = .load w) ∧
      (b = 0xF5 → decodeWindow b o1 o2 = .call w) ∧
      (b = 0xF8 → decodeWindow b o1 o2 = .xset w)) ∧
    (∀ ra rb : RegIdx, ra.val = o1.toNat / 16 → rb.val = o1.toNat % 16 →
      b = 0xF4 → decodeWindow b o1 o2 = .swap ra rb) ∧
    (b = 0xF6 → decodeWindow b o1 o2 = .ret) ∧
    (b = 0xF7 → decodeWindow b o1 o2 = .cmp) ∧
    (0xF9 ≤ b.toNat → isReserved (decodeWindow b o1 o2) = true) ∧
    (b.toNat < 0xF9 → isReserved (decodeWindow b o1 o2) = false)

/-- spec/opcode_table.json, R81, R94: of the table's 22 mask-and-match rows every opcode byte meets
exactly one, that of the instruction it decodes to, with that row's length. -/
def Obligations.EveryOpcodeByteMeetsExactlyItsRow : Prop :=
  ∀ b o1 o2 : Byte, ∃ row ∈ opcodeTable,
    row.mnemonic = (decodeWindow b o1 o2).tableMnemonic ∧ row.length = (decodeWindow b o1 o2).width ∧
    ∀ r ∈ opcodeTable, b &&& r.mask = r.pattern ↔ r = row

/-- R97: bit 0 of ADD, SUB, MUL and LABEL bytes and bits 4:1 of PUSH and POP bytes whose bit 0 is 1
do not matter, and the encoder never writes them as anything but 0. -/
def Obligations.IgnoredBitsDoNotMatter : Prop :=
  (∀ b b' o1 o2 : Byte, b.toNat / 2 = b'.toNat / 2 →
    (0x20 ≤ b.toNat ∧ b.toNat ≤ 0x7F ∨ 0xE0 ≤ b.toNat ∧ b.toNat ≤ 0xEF) →
    decodeWindow b o1 o2 = decodeWindow b' o1 o2) ∧
  (∀ b o1 o2 : Byte, 0x80 ≤ b.toNat → b.toNat ≤ 0x9F → b.toNat % 2 = 1 →
    decodeWindow b o1 o2 = decodeWindow 0x81 o1 o2) ∧
  (∀ b o1 o2 : Byte, 0xA0 ≤ b.toNat → b.toNat ≤ 0xBF → b.toNat % 2 = 1 →
    decodeWindow b o1 o2 = decodeWindow 0xA1 o1 o2) ∧
  (∀ (text : String) (b : Byte), encodeMnemonic text = .ok b →
    (0x20 ≤ b.toNat ∧ b.toNat ≤ 0x7F ∨ 0xE0 ≤ b.toNat ∧ b.toNat ≤ 0xEF → b.toNat % 2 = 0) ∧
    (0x80 ≤ b.toNat → b.toNat ≤ 0x9F → b.toNat % 2 = 1 → b = 0x81) ∧
    (0xA0 ≤ b.toNat → b.toNat ≤ 0xBF → b.toNat % 2 = 1 → b = 0xA1))

/-- R82 to R91: words written out from the formats, one or more of each, decode to the instructions they
stand for. -/
def Obligations.WrittenOutWordsDecode : Prop :=
  decode [0b00001010] = .ok (.set 10, []) ∧
  decode [0b00100010] = .ok (.add 2, []) ∧
  decode [0b01000100] = .ok (.sub 3, []) ∧
  decode [0b10011110] = .ok (.pushReg 16, []) ∧
  decode [0b10100001] = .ok (.popAcc, []) ∧
  decode [0b11000001] = .ok (.goto 0 .nz, []) ∧
  decode [0b11101110] = .ok (.label 7, []) ∧
  decode [0b11110111] = .ok (.cmp, []) ∧
  decode [0b11110010, 0b00000001, 0b10000000] = .ok (.store 0x0180, []) ∧
  decode [0b11110100, 0b00001111] = .ok (.swap 0 15, []) ∧
  decode [0b11111000, 0b00010010, 0b00110100] = .ok (.xset 0x1234, [])

/-- R106 to R110: the byte of every mnemonic of the base set with every operand in its range. -/
def Obligations.EncoderGivesTheStatedBytes : Prop :=
  ∀ n : Nat,
    (n ≤ 31 → encodeMnemonic ("set_" ++ toString n) = .ok (BitVec.ofNat 8 n)) ∧
    (1 ≤ n → n ≤ 16 →
      encodeMnemonic ("add_" ++ toString n) = .ok (BitVec.ofNat 8 (0x20 + 2 * (n - 1))) ∧
      encodeMnemonic ("sub_" ++ toString n) = .ok (BitVec.ofNat 8 (0x40 + 2 * (n - 1))) ∧
      encodeMnemonic ("mul_" ++ toString n) = .ok (BitVec.ofNat 8 (0x60 + 2 * (n - 1))) ∧
      encodeMnemonic ("push_" ++ toString n) = .ok (BitVec.ofNat 8 (0x80 + 2 * (n - 1))) ∧
      encodeMnemonic ("pop_" ++ toString n) = .ok (BitVec.ofNat 8 (0xA0 + 2 * (n - 1)))) ∧
    (n = 0 → encodeMnemonic ("push_" ++ toString n) = .ok 0x81 ∧
      encodeMnemonic ("pop_" ++ toString n) = .ok 0xA1) ∧
    (n ≤ 15 → encodeMnemonic ("label_" ++ toString n) = .ok (BitVec.ofNat 8 (0xE0 + 2 * n)) ∧
      ∀ o : Nat, o ≤ 1 → encodeMnemonic ("goto_" ++ toString n ++ "_" ++ toString o) =
        .ok (BitVec.ofNat 8 (0xC0 + 2 * n + o)))

/-- R105, R111 and decision D26: a text whose operation name is none of the eight gives the zero byte; a
known name with an operand outside its range, with an operand missing, or with one that is no numeral
is refused (that the model refuses, one operand too many included, is log 13's choice where R111 says
"should"); a program's mnemonic number k becomes the byte at offset k. -/
def Obligations.EncoderOutsideItsTable : Prop :=
  (∀ name rest : List Char, '_' ∉ name → String.ofList name ∉ encoderNames →
    rest = [] ∨ rest.head? = some '_' → encodeMnemonic (String.ofList (name ++ rest)) = .ok 0) ∧
  (∀ n : Nat, 31 < n → ∃ e, encodeMnemonic ("set_" ++ toString n) = .error e) ∧
  (∀ n : Nat, n = 0 ∨ 16 < n →
    (∃ e, encodeMnemonic ("add_" ++ toString n) = .error e) ∧
    (∃ e, encodeMnemonic ("sub_" ++ toString n) = .error e) ∧
    (∃ e, encodeMnemonic ("mul_" ++ toString n) = .error e)) ∧
  (∀ n : Nat, 16 < n →
    (∃ e, encodeMnemonic ("push_" ++ toString n) = .error e) ∧
    (∃ e, encodeMnemonic ("pop_" ++ toString n) = .error e)) ∧
  (∀ l o : Nat, 15 < l ∨ 1 < o →
    ∃ e, encodeMnemonic ("goto_" ++ toString l ++ "_" ++ toString o) = .error e) ∧
  (∀ l : Nat, 15 < l → ∃ e, encodeMnemonic ("label_" ++ toString l) = .error e) ∧
  (∀ l : Nat, ∃ e, encodeMnemonic ("goto_" ++ toString l) = .error e) ∧
  (∀ name ∈ encoderNames, ∀ parts : List String, (∀ p ∈ parts, '_' ∉ p.toList) →
    parts.length ≠ operandCount name ∨ (∃ p ∈ parts, NoNumeral p) →
    ∃ e, encodeMnemonic ("_".intercalate (name :: parts)) = .error e) ∧
  (∀ (texts : List String) (bytes : List Byte), assemble texts = .ok bytes →
    bytes.length = texts.length ∧
    ∀ (k : Nat) (text : String), texts[k]? = some text → ∃ b, bytes[k]? = some b ∧ encodeMnemonic text = .ok b)

/-! ## The step -/

/-- R191, R211: in Running, with the next input a tick and PC inside the program and memory, a step is
`exec` of the instruction that the bytes at PC decode to (after the tick is taken off the wait of the
first pending command, if there is one; log 3). -/
def Obligations.StepRunsDecodedInstruction : Prop :=
  ∀ (s : State) (i : Instr) (rest : List Byte), s.status = .running → TickNext s →
    s.pc.toNat < s.progLen.toNat → s.pc.toNat < s.cfg.memSize → decode s.fetchWindow = .ok (i, rest) →
    step s = exec i { s with inbox := waited s.inbox }

/-- Log 7 (the model's choice of how a program is placed): the instruction of a table word put where
the next step fetches is the instruction the next step runs. -/
def Obligations.PlacedWordIsRunNext : Prop :=
  ∀ (s : State) (nbits w : Nat) (i : Instr), s.cfg.wf = true → s.pc.toNat + 3 ≤ s.cfg.memSize →
    s.progLen.toNat ≤ s.cfg.memSize → decodeTableWord nbits w = some i →
    step (s.withFetchWord nbits w) = exec i (s.withFetchWord nbits w)

/-- R190, R193 ("The Engine never throws"): every instruction and every step, in every state, has a
next state. That a fault is taken, and so is a next state, is what log 5 deduces. -/
def Obligations.EveryStepHasANextState : Prop :=
  (∀ (i : Instr) (s : State), ∃ t, exec i s = .next t) ∧ ∀ s : State, ∃ t, step s = .next t

/-- R7, R28, R32, R57, R195, R203: the invariant of a machine that started from a reset (`Inv`) is kept
by every step from every state that meets it. -/
def Obligations.InvariantKeptByEveryStep : Prop :=
  ∀ s t : State, Inv s → step s = .next t → Inv t

/-- R45, R260: the state after reset meets the invariant, in every configuration that R7 allows. -/
def Obligations.ResetMeetsInvariant : Prop :=
  (∀ c : Config, c.wf = true → Inv (State.resetWith c)) ∧ Inv State.reset

/-- Log 8 (the model's own form of memory): memories in the canonical form that read alike at every
address are the same data. -/
def Obligations.CanonicalMemoriesThatReadAlikeAreEqual : Prop :=
  ∀ m n : Memory, m.wf = true → n.wf = true → (∀ a, m.read a = n.read a) → m = n

/-! ## Result, completion and frame of every instruction -/

/-- R120, SET. -/
def Obligations.SetLoadsItsImmediate : Prop :=
  ∀ (imm5 : BitVec 5) (s : State),
    (∃ t, exec (.set imm5) s = .next t ∧ (t.x 0).toNat = imm5.toNat ∧ t.pc = s.pc + 1 ∧
      OnlyRegs [0] s t) ∧
    (∀ b o1 o2 : Byte, b.toNat = imm5.toNat → decodeWindow b o1 o2 = .set imm5) ∧
    Assembles (.set imm5)

/-- R186, XSET: it completes when its two operand bytes lie in memory, else `EndOfMemory` is taken. -/
def Obligations.XsetLoadsItsImmediate : Prop :=
  ∀ (imm16 : Word) (s : State),
    (s.pc.toNat + 2 < s.cfg.memSize → ∃ t, exec (.xset imm16) s = .next t ∧ t.x 0 = imm16 ∧
      t.pc = s.pc + 3 ∧ OnlyRegs [0] s t) ∧
    (s.pc.toNat + 2 ≥ s.cfg.memSize → ∃ t, exec (.xset imm16) s = .next t ∧
      TakesFault .endOfMemory s t) ∧
    (∀ o1 o2 : Byte, 256 * o1.toNat + o2.toNat = imm16.toNat →
      decodeWindow 0xF8 o1 o2 = .xset imm16)

/-- R125, R127, R128, R129: ADD, SUB and MUL give the mathematical result modulo 65536 and change
nothing else; R0 is the left operand, and the minuend. -/
def Obligations.AddSubMulModulo65536 : Prop :=
  ∀ (n : RegIdx) (s : State),
    (∃ t, exec (.add n) s = .next t ∧
      (t.x 0).toNat = ((s.x 0).toNat + (s.x n).toNat) % 65536 ∧ t.pc = s.pc + 1 ∧ OnlyRegs [0] s t) ∧
    (∃ t, exec (.sub n) s = .next t ∧
      ((t.x 0).toNat : Int) = (((s.x 0).toNat : Int) - ((s.x n).toNat : Int)) % 65536 ∧
      t.pc = s.pc + 1 ∧ OnlyRegs [0] s t) ∧
    (∃ t, exec (.mul n) s = .next t ∧
      (t.x 0).toNat = (s.x 0).toNat * (s.x n).toNat % 65536 ∧ t.pc = s.pc + 1 ∧ OnlyRegs [0] s t) ∧
    (n ≠ 0 → Assembles (.add n) ∧ Assembles (.sub n) ∧ Assembles (.mul n) ∧
      ∀ b o1 o2 : Byte, n.val = b.toNat / 2 % 16 + 1 →
        (0x20 ≤ b.toNat → b.toNat ≤ 0x3F → decodeWindow b o1 o2 = .add n) ∧
        (0x40 ≤ b.toNat → b.toNat ≤ 0x5F → decodeWindow b o1 o2 = .sub n) ∧
        (0x60 ≤ b.toNat → b.toNat ≤ 0x7F → decodeWindow b o1 o2 = .mul n))

/-- R135, R137, R138: PUSH Rn and PUSH R0. -/
def Obligations.PushStoresBelowTheStack : Prop :=
  (∀ (n : RegIdx) (s : State), PushesRegister (.pushReg n) n s) ∧
  (∀ s : State, PushesRegister .pushAcc 0 s) ∧
  (∀ n : RegIdx, n ≠ 0 → Assembles (.pushReg n)) ∧ Assembles .pushAcc ∧
  (∀ (n : RegIdx) (b o1 o2 : Byte), n.val = b.toNat / 2 % 16 + 1 → 0x80 ≤ b.toNat →
    b.toNat ≤ 0x9F →
    decodeWindow b o1 o2 = if b.toNat % 2 = 0 then Instr.pushReg n else Instr.pushAcc)

/-- R136, R139, R140: POP Rn and POP R0. -/
def Obligations.PopLoadsFromTheStack : Prop :=
  (∀ (n : RegIdx) (s : State), PopsRegister (.popReg n) n s) ∧
  (∀ s : State, PopsRegister .popAcc 0 s) ∧
  (∀ n : RegIdx, n ≠ 0 → Assembles (.popReg n)) ∧ Assembles .popAcc ∧
  (∀ (n : RegIdx) (b o1 o2 : Byte), n.val = b.toNat / 2 % 16 + 1 → 0xA0 ≤ b.toNat →
    b.toNat ≤ 0xBF →
    decodeWindow b o1 o2 = if b.toNat % 2 = 0 then Instr.popReg n else Instr.popAcc)

/-- R145, GOTO: the condition is on R0, the target is the table entry, nothing but PC changes. -/
def Obligations.GotoJumpsOnItsCondition : Prop :=
  ∀ (l : LabelId) (s : State),
    (s.x 0 = 0 →
      (∃ t, exec (.goto l .z) s = .next t ∧ t.pc = s.labelAt l ∧ OnlyRegs [] s t) ∧
      (∃ t, exec (.goto l .nz) s = .next t ∧ t.pc = s.pc + 1 ∧ OnlyRegs [] s t)) ∧
    (s.x 0 ≠ 0 →
      (∃ t, exec (.goto l .z) s = .next t ∧ t.pc = s.pc + 1 ∧ OnlyRegs [] s t) ∧
      (∃ t, exec (.goto l .nz) s = .next t ∧ t.pc = s.labelAt l ∧ OnlyRegs [] s t)) ∧
    Assembles (.goto l .z) ∧ Assembles (.goto l .nz) ∧
    (∀ b o1 o2 : Byte, b.toNat = 0xC0 + 2 * l.val → decodeWindow b o1 o2 = .goto l .z) ∧
    (∀ b o1 o2 : Byte, b.toNat = 0xC0 + 2 * l.val + 1 → decodeWindow b o1 o2 = .goto l .nz)

/-- R146, R155: LABEL and NOOP move PC on by 1 and change nothing else, the label table included. -/
def Obligations.LabelAndNoopOnlyAdvance : Prop :=
  (∀ (l : LabelId) (s : State),
    (∃ t, exec (.label l) s = .next t ∧ t.pc = s.pc + 1 ∧ OnlyRegs [] s t) ∧
    (l.val < 8 → Assembles (.label l) ∧
      ∀ b o1 o2 : Byte, b.toNat / 2 = 0x70 + l.val → decodeWindow b o1 o2 = .label l)) ∧
  (∀ s : State, ∃ t, exec .noop s = .next t ∧ t.pc = s.pc + 1 ∧ OnlyRegs [] s t) ∧
  (∀ o1 o2 : Byte, decodeWindow 0xF0 o1 o2 = .noop)

/-- R156, HALT: PC moves on by 1, STATUS becomes Halted, `Halted` is emitted, nothing else changes; and
from there neither a tick nor `run` nor `step` changes anything but the event output. -/
def Obligations.HaltStopsTheMachine : Prop :=
  (∀ s : State, ∃ t, exec .halt s = .next t ∧ t.pc = s.pc + 1 ∧ t.status = .halted ∧
    t.events = s.events ++ [.halted] ∧ RegsKeptBut [] s t ∧ t.sp = s.sp ∧ t.flag = s.flag ∧
    MemKept s t ∧ TablesKept s t ∧
    ∀ u, tick t = .next u ∨ commandRun t = .next u ∨ commandStep t = .next u →
      CoreKept t u ∧ u.status = .halted) ∧
  (∀ o1 o2 : Byte, decodeWindow 0xF1 o1 o2 = .halt)

/-- R161, STORE: the two bytes at the operand address are R0, big-endian; or the first fault of R242's
order is taken. -/
def Obligations.StoreWritesTheAccumulator : Prop :=
  ∀ (addr : Word) (s : State),
    (s.pc.toNat + 2 < s.cfg.memSize → addr.toNat + 1 < s.cfg.memSize →
      ∃ t, exec (.store addr) s = .next t ∧
        (t.mem.read addr.toNat).toNat = (s.x 0).toNat / 256 ∧
        (t.mem.read (addr.toNat + 1)).toNat = (s.x 0).toNat % 256 ∧ MemKeptBut addr.toNat 2 s t ∧
        t.pc = s.pc + 3 ∧ RegsKeptBut [] s t ∧ t.sp = s.sp ∧ t.flag = s.flag ∧ TablesKept s t ∧
        RunKept s t) ∧
    (s.pc.toNat + 2 ≥ s.cfg.memSize → ∃ t, exec (.store addr) s = .next t ∧
      TakesFault .endOfMemory s t) ∧
    (s.pc.toNat + 2 < s.cfg.memSize → addr.toNat + 1 ≥ s.cfg.memSize →
      ∃ t, exec (.store addr) s = .next t ∧ TakesFault .boundsViolation s t) ∧
    (∀ o1 o2 : Byte, 256 * o1.toNat + o2.toNat = addr.toNat →
      decodeWindow 0xF2 o1 o2 = .store addr)

/-- R162, LOAD: R0 is the big-endian word at the operand address; or the first fault of R242's order is
taken. -/
def Obligations.LoadReadsTheWord : Prop :=
  ∀ (addr : Word) (s : State),
    (s.pc.toNat + 2 < s.cfg.memSize → addr.toNat + 1 < s.cfg.memSize →
      ∃ t, exec (.load addr) s = .next t ∧ BigEndianAt s.mem addr.toNat (t.x 0) ∧
        t.pc = s.pc + 3 ∧ OnlyRegs [0] s t) ∧
    (s.pc.toNat + 2 ≥ s.cfg.memSize → ∃ t, exec (.load addr) s = .next t ∧
      TakesFault .endOfMemory s t) ∧
    (s.pc.toNat + 2 < s.cfg.memSize → addr.toNat + 1 ≥ s.cfg.memSize →
      ∃ t, exec (.load addr) s = .next t ∧ TakesFault .boundsViolation s t) ∧
    (∀ o1 o2 : Byte, 256 * o1.toNat + o2.toNat = addr.toNat →
      decodeWindow 0xF3 o1 o2 = .load addr)

/-- R170, SWAP: the two registers are exchanged, equal ones included. -/
def Obligations.SwapExchangesRegisters : Prop :=
  ∀ (a b : RegIdx) (s : State),
    (s.pc.toNat + 1 < s.cfg.memSize → ∃ t, exec (.swap a b) s = .next t ∧ t.x a = s.x b ∧
      t.x b = s.x a ∧ t.pc = s.pc + 2 ∧ OnlyRegs [a, b] s t) ∧
    (s.pc.toNat + 1 ≥ s.cfg.memSize → ∃ t, exec (.swap a b) s = .next t ∧
      TakesFault .endOfMemory s t) ∧
    (∀ o1 o2 : Byte, a.val = o1.toNat / 16 → b.val = o1.toNat % 16 →
      decodeWindow 0xF4 o1 o2 = .swap a b)

/-- R176, CALL: the return address PC + 3 is pushed and PC is the operand; the operand fetch is checked
before the push. -/
def Obligations.CallPushesTheReturnAddress : Prop :=
  ∀ (addr : Word) (s : State),
    (s.pc.toNat + 2 < s.cfg.memSize → ¬ StackFull s →
      ∃ t, exec (.call addr) s = .next t ∧ t.pc = addr ∧ t.sp.toNat + 2 = s.sp.toNat ∧
        s.pushSlot = t.sp.toNat ∧ BigEndianAt t.mem s.pushSlot (s.pc + 3) ∧
        MemKeptBut s.pushSlot 2 s t ∧ RegsKeptBut [] s t ∧ t.flag = s.flag ∧ TablesKept s t ∧
        RunKept s t) ∧
    (s.pc.toNat + 2 ≥ s.cfg.memSize → ∃ t, exec (.call addr) s = .next t ∧
      TakesFault .endOfMemory s t) ∧
    (s.pc.toNat + 2 < s.cfg.memSize → StackFull s →
      ∃ t, exec (.call addr) s = .next t ∧ TakesFault .stackOverflow s t) ∧
    (∀ o1 o2 : Byte, 256 * o1.toNat + o2.toNat = addr.toNat →
      decodeWindow 0xF5 o1 o2 = .call addr)

/-- R177, RET: PC is the popped word, not advanced further. -/
def Obligations.RetPopsThePc : Prop :=
  (∀ s : State,
    (¬ StackEmpty s → ∃ t, exec .ret s = .next t ∧ BigEndianAt s.mem s.sp.toNat t.pc ∧
      t.sp = s.sp + 2 ∧ RegsKeptBut [] s t ∧ MemKept s t ∧ t.flag = s.flag ∧ TablesKept s t ∧
      RunKept s t) ∧
    (StackEmpty s → ∃ t, exec .ret s = .next t ∧ TakesFault .stackUnderflow s t)) ∧
  (∀ o1 o2 : Byte, decodeWindow 0xF6 o1 o2 = .ret)

/-- R185, CMP: FLAG is whether R0 equals R1, whatever it was. -/
def Obligations.CmpSetsTheFlag : Prop :=
  (∀ s : State, ∃ t, exec .cmp s = .next t ∧ (t.flag = true ↔ (s.x 0).toNat = (s.x 1).toNat) ∧
    t.pc = s.pc + 1 ∧ RegsKeptBut [] s t ∧ t.sp = s.sp ∧ MemKept s t ∧ TablesKept s t ∧
    RunKept s t) ∧
  (∀ o1 o2 : Byte, decodeWindow 0xF7 o1 o2 = .cmp)

/-- R96, R231: a reserved opcode byte always takes `UnknownExtendedOpcode`, PC staying on it. -/
def Obligations.ReservedOpcodesTakeTheirFault : Prop :=
  (∀ s : State,
    (∃ t, exec .reservedF9 s = .next t ∧ TakesFault .unknownExtendedOpcode s t) ∧
    (∀ low, ∃ t, exec (.reservedFA low) s = .next t ∧ TakesFault .unknownExtendedOpcode s t) ∧
    (∀ low, ∃ t, exec (.reservedFC low) s = .next t ∧ TakesFault .unknownExtendedOpcode s t)) ∧
  (∀ s : State, s.pc.toNat < s.cfg.memSize → 0xF9 ≤ (s.mem.read s.pc.toNat).toNat →
    ∃ t, fetchExecute s = .next t ∧ TakesFault .unknownExtendedOpcode s t)

/-! ## Whole-machine rules about instructions -/

/-- R193, R230, R242: fetch-execute with PC outside memory takes `EndOfMemory`; else the instruction
at PC takes exactly the fault the table of R230 lists for it, the first in R242's order, and where none
is listed it completes and reports none; only HALT writes STATUS. -/
def Obligations.FaultsAreExactlyThoseListed : Prop :=
  (∀ s : State, s.cfg.memSize ≤ s.pc.toNat →
    ∃ t, fetchExecute s = .next t ∧ TakesFault .endOfMemory s t) ∧
  (∀ (i : Instr) (s : State) (tail : List Byte), s.pc.toNat < s.cfg.memSize →
    decode s.fetchWindow = .ok (i, tail) → fetchExecute s = exec i s) ∧
  ∀ (i : Instr) (s : State),
    (∀ f, Reports i s f → ∃ t, exec i s = .next t ∧ TakesFault f s t) ∧
    (Completes i s → i ≠ .halt → ∃ t, exec i s = .next t ∧ RunKept s t) ∧
    (Completes i s → i = .halt → ∃ t, exec i s = .next t ∧ t.status = .halted ∧
      t.events = s.events ++ [.halted])

/-- R192: the three results of fetch-execute: `fault` where a fault is raised, `halted` for HALT, `ok`
for any other instruction. That the result is read from the event emitted is what log 12 deduces: the
model's fetch-execute gives the next state only. -/
def Obligations.FetchResultIsOneOfThree : Prop :=
  (∀ s : State, s.cfg.memSize ≤ s.pc.toNat →
    ∃ t, fetchExecute s = .next t ∧ fetchResult s t = .fault .endOfMemory ∧
      TakesFault .endOfMemory s t) ∧
  ∀ (i : Instr) (s : State) (tail : List Byte), s.pc.toNat < s.cfg.memSize →
    decode s.fetchWindow = .ok (i, tail) →
    (∀ f, Reports i s f → ∃ t, fetchExecute s = .next t ∧ fetchResult s t = .fault f ∧
      TakesFault f s t) ∧
    (Completes i s → i = .halt → ∃ t, fetchExecute s = .next t ∧ fetchResult s t = .halted ∧
      t.pc = s.pc + 1 ∧ t.status = .halted) ∧
    (Completes i s → i ≠ .halt → ∃ t, fetchExecute s = .next t ∧ exec i s = .next t ∧
      fetchResult s t = .ok)

/-- R25: the new PC of every instruction. -/
def Obligations.NewPcIsTheTables : Prop :=
  ∀ (i : Instr) (s t : State), exec i s = .next t →
    (Completes i s → NewPc i s t.pc) ∧ (∀ f, Reports i s f → t.pc = s.pc)

/-- R26: a linear advance, an untaken GOTO's included, never wraps and ends at `MEM_SIZE` at most. -/
def Obligations.LinearAdvanceNeverWraps : Prop :=
  ∀ (s t : State) (i : Instr) (rest : List Byte), s.cfg.wf = true → s.pc.toNat < s.cfg.memSize →
    decode s.fetchWindow = .ok (i, rest) → fetchExecute s = .next t → Completes i s →
    AdvancesLinearly i s → t.pc.toNat = s.pc.toNat + i.width ∧ t.pc.toNat ≤ s.cfg.memSize

/-- R21: the registers an instruction writes and reads are those of the table. Every other register is
kept; the value of a register not read makes no difference to anything else, nor to its own new value
where it is written; and in every place where the instruction completes there are contents of registers,
memory and labels with which it does change a register it writes (but for the exchange of a register
with itself), and with which the value of a register it reads does make a difference. -/
def Obligations.RegistersReadAndWrittenAreTheTables : Prop :=
  (∀ (i : Instr) (s t : State), exec i s = .next t → RegsKeptBut (regsWritten i) s t) ∧
  (∀ (i : Instr) (s : State) (q : RegIdx) (v : Word), q ∉ regsRead i →
    ∃ t u, exec i s = .next t ∧ exec i (s.setX q v) = .next u ∧ RegsKeptBut [q] t u ∧
      (Completes i s → q ∈ regsWritten i → u.x q = t.x q) ∧
      u.pc = t.pc ∧ u.sp = t.sp ∧ u.flag = t.flag ∧ u.mem = t.mem ∧ u.labels = t.labels ∧
      u.progLen = t.progLen ∧ u.status = t.status ∧ u.events = t.events) ∧
  (∀ (i : Instr) (s : State) (r : RegIdx), Completes i s → r ∈ regsWritten i →
    (∀ a, i ≠ .swap a a) → ∃ regs mem t, exec i { s with regs := regs, mem := mem } = .next t ∧
      t.x r ≠ State.x { s with regs := regs, mem := mem } r) ∧
  (∀ (i : Instr) (s : State) (q : RegIdx), i.wf = true → Completes i s → q ∈ regsRead i →
    ∃ regs mem labels v t u, exec i { s with regs := regs, mem := mem, labels := labels } = .next t ∧
      exec i (State.setX { s with regs := regs, mem := mem, labels := labels } q v) = .next u ∧
      (u.pc ≠ t.pc ∨ u.flag ≠ t.flag ∨ (∃ a, u.mem.read a ≠ t.mem.read a) ∨
        ∃ r, (r ≠ q ∨ r ∈ regsWritten i) ∧ u.x r ≠ t.x r))

/-- R22: R16 can be written only by POP R16, and SWAP cannot name it. -/
def Obligations.OnlyPopReachesR16 : Prop :=
  (∀ (i : Instr) (s t : State), i.wf = true → exec i s = .next t → t.x 16 ≠ s.x 16 →
    i = .popReg 16) ∧
  (∀ (b o1 o2 : Byte) (r q : RegIdx), decodeWindow b o1 o2 = .swap r q → r ≠ 16 ∧ q ≠ 16)

/-- R29: FLAG is written by CMP only and read by no instruction. -/
def Obligations.FlagIsCmpsAlone : Prop :=
  ∀ (i : Instr) (s : State),
    (∀ t, exec i s = .next t → i ≠ .cmp → t.flag = s.flag) ∧
    (∀ v : Bool, i ≠ .cmp → ∃ t, exec i s = .next t ∧
      exec i (s.setFlag v) = .next (t.setFlag v)) ∧
    (∀ v : Bool, exec .cmp (s.setFlag v) = exec .cmp s)

/-- R28: among the instructions only those that push or pop move SP, by 2. -/
def Obligations.OnlyTheStackPrimitivesMoveSp : Prop :=
  ∀ (i : Instr) (s t : State), exec i s = .next t → t.sp ≠ s.sp →
    (isPush i = true ∧ t.sp = s.sp - 2) ∨ (isPop i = true ∧ t.sp = s.sp + 2)

/-- R31, R32, R65, R66: no instruction writes the label table or PROGLEN, and no step does unless its
input is `reset` or `load`. -/
def Obligations.LabelsAndProgLenAreFixedAtLoad : Prop :=
  (∀ (i : Instr) (s t : State), exec i s = .next t → TablesKept s t) ∧
  (∀ s t : State, NoReload s → step s = .next t →
    (∀ l, t.labelAt l = s.labelAt l) ∧ t.progLen = s.progLen)

/-! ## Laws of several instructions -/

/-- R141: N pushes and then pops of at most N registers, in any forms: each pop returns the value of the
push it matches, last in first out, to a register that no later pop takes; after N pops SP is restored;
every register not popped and every byte outside the N slots is kept. -/
def Obligations.PushesThenPopsReturnTheValues : Prop :=
  ∀ (is js : List Instr) (rs qs : List RegIdx) (s : State), List.Forall₂ PushOf is rs →
    List.Forall₂ PopOf js qs → s.cfg.wf = true → s.sp.toNat ≤ s.cfg.stackHead →
    s.cfg.stackLimit + 2 * rs.length ≤ s.sp.toNat → qs.length ≤ rs.length →
    ∃ t, execAll (is ++ js) s = .next t ∧ t.sp.toNat + 2 * rs.length = s.sp.toNat + 2 * qs.length ∧
      (qs.length = rs.length → t.sp = s.sp) ∧
      (∀ (k : Nat) (q r : RegIdx), qs[k]? = some q → rs.reverse[k]? = some r → q ∉ qs.drop (k + 1) →
        t.x q = s.x r) ∧
      RegsKeptBut qs s t ∧ MemKeptBut (s.sp.toNat - 2 * rs.length) (2 * rs.length) s t ∧
      t.flag = s.flag

/-- R178: RET from any state that the callee left with the stack pointer and the return slot as CALL
left them resumes after the CALL, at the depth before it. -/
def Obligations.ReturnResumesAfterTheCall : Prop :=
  ∀ (addr : Word) (s t u : State), s.cfg.wf = true → s.sp.toNat ≤ s.cfg.stackHead →
    Completes (.call addr) s → exec (.call addr) s = .next t → u.cfg = t.cfg → u.sp = t.sp →
    u.mem.read t.sp.toNat = t.mem.read t.sp.toNat →
    u.mem.read (t.sp.toNat + 1) = t.mem.read (t.sp.toNat + 1) →
    ∃ v, exec .ret u = .next v ∧ v.pc = s.pc + 3 ∧ v.sp = s.sp ∧ OnlyRegs [] { u with sp := s.sp } v

/-- R52, R162: a LOAD after a STORE at the same address returns the stored value, and one at the next
address the low byte stored and the byte after it. -/
def Obligations.LoadAfterStore : Prop :=
  ∀ (a b : Word) (s t u : State), Completes (.store a) s → exec (.store a) s = .next t →
    Completes (.load b) t → exec (.load b) t = .next u →
    (b = a → u.x 0 = s.x 0) ∧
    (b.toNat = a.toNat + 1 →
      (u.x 0).toNat = 256 * ((s.x 0).toNat % 256) + (s.mem.read (a.toNat + 2)).toNat)

/-- R64, R65: the bytes a STORE, a PUSH or a CALL writes are what the next fetch at their address reads,
and the label table is as it was. -/
def Obligations.FetchSeesStoredBytes : Prop :=
  (∀ (a : Word) (s t : State), Completes (.store a) s → exec (.store a) s = .next t →
    (t.jump a).fetchByte 0 = hiByte (s.x 0) ∧ (t.jump a).fetchByte 1 = loByte (s.x 0) ∧
    t.labels = s.labels) ∧
  (∀ (n : RegIdx) (s t : State), Inv s → Completes (.pushReg n) s →
    exec (.pushReg n) s = .next t →
    (t.jump t.sp).fetchByte 0 = hiByte (s.x n) ∧ (t.jump t.sp).fetchByte 1 = loByte (s.x n) ∧
    t.labels = s.labels) ∧
  (∀ s t : State, Inv s → Completes .pushAcc s → exec .pushAcc s = .next t →
    (t.jump t.sp).fetchByte 0 = hiByte (s.x 0) ∧ (t.jump t.sp).fetchByte 1 = loByte (s.x 0) ∧
    t.labels = s.labels) ∧
  (∀ (a : Word) (s t : State), Inv s → Completes (.call a) s → exec (.call a) s = .next t →
    (t.jump t.sp).fetchByte 0 = hiByte (s.pc + 3) ∧ (t.jump t.sp).fetchByte 1 = loByte (s.pc + 3) ∧
    t.labels = s.labels)

/-- R222: what the stack dump shows: PUSH and CALL put their value on top, POP and RET take it off. -/
def Obligations.StackDumpFollowsPushAndPop : Prop :=
  ∀ (i : Instr) (v : Word) (s t : State), s.cfg.wf = true → s.sp.toNat ≤ s.cfg.stackHead →
    Completes i s → exec i s = .next t →
    (pushedValue i s = some v → t.stackDump = v :: s.stackDump) ∧
    (poppedValue i t = some v → s.stackDump = v :: t.stackDump)

/-! ## Commands and ticks (spec/50_run_control.md) -/

/-- R45, R200: the `reset` command, in every status. -/
def Obligations.ResetCommandZeroesTheMachine : Prop :=
  ∀ (s : State) (rest : List Arrival), s.cfg.wf = true → s.inbox = ⟨0, .reset⟩ :: rest →
    ∃ t, step s = .next t ∧ AsReset t ∧ t.cfg = s.cfg ∧ t.events = s.events ∧ t.inbox = rest

/-- R201, R204: the `load` command, in every status: a program that fits is installed, one that is too
large leaves the machine reset. -/
def Obligations.LoadCommandInstallsTheProgram : Prop :=
  ∀ (s : State) (bytes : List Byte) (rest : List Arrival), s.cfg.wf = true →
    s.inbox = ⟨0, .load bytes⟩ :: rest →
    (bytes.length ≤ s.cfg.memSize → ∃ t, step s = .next t ∧ FreshCore t ∧
      (∀ a, t.mem.read a = bytes.getD a 0) ∧ t.progLen.toNat = bytes.length ∧
      (∀ l k, DefinesLast bytes l k → (t.labelAt l).toNat = k + 1) ∧
      (∀ l, (∀ k, ¬ Defines bytes l k) → t.labelAt l = 0) ∧ t.status = .loaded ∧ t.cfg = s.cfg ∧
      t.events = s.events ∧ t.inbox = rest) ∧
    (s.cfg.memSize < bytes.length → ∃ t, step s = .next t ∧ AsReset t ∧ t.cfg = s.cfg ∧
      t.events = s.events ++ [.diagnostic .programTooLarge] ∧ t.inbox = rest)

/-- R203: `Preprocess` sets the entry of each label that a byte of the program defines to the offset
after its last definition, keeps every other entry, and changes nothing else. -/
def Obligations.ResolverRecordsTheLastDefinition : Prop :=
  ∀ (s : State) (bytes : List Byte), bytes.length = s.progLen.toNat →
    (∀ k b, bytes[k]? = some b → s.mem.read k = b) →
    (∀ l k, DefinesLast bytes l k → (s.preprocess.labelAt l).toNat = k + 1) ∧
    (∀ l, (∀ k, ¬ Defines bytes l k) → s.preprocess.labelAt l = s.labelAt l) ∧
    s.preprocess = { s with labels := s.preprocess.labels }

/-- R205, R206: the `run` command. -/
def Obligations.RunCommandStartsOrRefuses : Prop :=
  ∀ (s : State) (rest : List Arrival), s.inbox = ⟨0, .run⟩ :: rest →
    ∃ t, step s = .next t ∧ CoreKept s t ∧ t.inbox = rest ∧
      (s.status = .running → RunKept s t) ∧
      (s.status = .halted → t.status = .halted ∧
        t.events = s.events ++ [.diagnostic .machineHalted]) ∧
      (s.status ≠ .running → s.status ≠ .halted → s.mem.read 0 = 0 → s.mem.read 1 = 0 →
        t.status = s.status ∧ t.events = s.events ++ [.diagnostic .noProgram]) ∧
      (s.status ≠ .running → s.status ≠ .halted → s.mem.read 0 ≠ 0 ∨ s.mem.read 1 ≠ 0 →
        t.status = .running ∧ t.events = s.events)

/-- R205, R207: the `step` command: its three refusals, in their order, and the one instruction it
executes with each of its three results. -/
def Obligations.StepCommandExecutesOneInstruction : Prop :=
  ∀ (s : State) (rest : List Arrival), s.inbox = ⟨0, .step⟩ :: rest →
    (s.status = .halted → ∃ t, step s = .next t ∧ CoreKept s t ∧ t.inbox = rest ∧
      t.status = .halted ∧ t.events = s.events ++ [.diagnostic .machineHalted]) ∧
    (s.status ≠ .halted → s.mem.read 0 = 0 → s.mem.read 1 = 0 → ∃ t, step s = .next t ∧
      CoreKept s t ∧ t.inbox = rest ∧ t.status = s.status ∧
      t.events = s.events ++ [.diagnostic .noProgram]) ∧
    (s.status ≠ .halted → s.mem.read 0 ≠ 0 ∨ s.mem.read 1 ≠ 0 → s.cfg.memSize ≤ s.pc.toNat →
      ∃ t, step s = .next t ∧ CoreKept s t ∧ t.inbox = rest ∧ t.status = s.status ∧
        t.events = s.events ++ [.diagnostic .endOfMemory]) ∧
    (s.status ≠ .halted → s.mem.read 0 ≠ 0 ∨ s.mem.read 1 ≠ 0 → s.pc.toNat < s.cfg.memSize →
      ∀ i tail, decode s.fetchWindow = .ok (i, tail) →
        (∀ f, Reports i s f → ∃ t, step s = .next t ∧ TakesFault f { s with inbox := rest } t) ∧
        (Completes i s → i = .halt → step s = exec i { s with inbox := rest }) ∧
        (Completes i s → i ≠ .halt → ∃ t, exec i { s with inbox := rest } = .next t ∧
          step s = .next { t with status := .paused, events := s.events ++ [.stepped] }))

/-- R208, R209: the `pause` and `halt` commands. -/
def Obligations.PauseAndHaltCommandsOnlyMoveTheStatus : Prop :=
  ∀ (s : State) (rest : List Arrival),
    (s.inbox = ⟨0, .pause⟩ :: rest → ∃ t, step s = .next t ∧ CoreKept s t ∧ t.inbox = rest ∧
      (s.status = .running → t.status = .paused ∧ t.events = s.events ++ [.paused]) ∧
      (s.status ≠ .running → RunKept s t)) ∧
    (s.inbox = ⟨0, .halt⟩ :: rest → ∃ t, step s = .next t ∧ CoreKept s t ∧ t.inbox = rest ∧
      t.status = .halted ∧ t.events = s.events ++ [.halted])

/-- R210, R211: a tick: nothing outside Running; in Running the end of the run at PROGLEN, tested before
the fetch, and else one instruction with each of its results. That the first pending command then has
one tick fewer to wait (`waited`) is log 3's choice. -/
def Obligations.TickExecutesOneInstruction : Prop :=
  ∀ s : State, TickNext s →
    (s.status ≠ .running → step s = .next { s with inbox := waited s.inbox }) ∧
    (s.status = .running → s.progLen.toNat ≤ s.pc.toNat → ∃ t, step s = .next t ∧ CoreKept s t ∧
      t.inbox = waited s.inbox ∧ t.status = .halted ∧ t.events = s.events ++ [.completed]) ∧
    (s.status = .running → s.pc.toNat < s.progLen.toNat → s.cfg.memSize ≤ s.pc.toNat →
      ∃ t, step s = .next t ∧ TakesFault .endOfMemory { s with inbox := waited s.inbox } t) ∧
    (s.status = .running → s.pc.toNat < s.progLen.toNat → s.pc.toNat < s.cfg.memSize →
      ∀ i tail, decode s.fetchWindow = .ok (i, tail) →
        (∀ f, Reports i s f →
          ∃ t, step s = .next t ∧ TakesFault f { s with inbox := waited s.inbox } t) ∧
        (Completes i s → ∃ t, step s = .next t ∧ exec i { s with inbox := waited s.inbox } = .next t ∧
          (i ≠ .halt → t.status = .running) ∧ (i = .halt → t.status = .halted)))

/-- R62, R196: a command that is ready goes before the tick, and is taken alone; a command that waits
lets a tick pass (log 3). -/
def Obligations.ReadyCommandGoesBeforeTheTick : Prop :=
  ∀ (s : State) (c : Command) (rest : List Arrival),
    (s.inbox = ⟨0, c⟩ :: rest → step s = runCommand c { s with inbox := rest }) ∧
    (∀ n, s.inbox = ⟨n + 1, c⟩ :: rest → step s = tick { s with inbox := ⟨n, c⟩ :: rest }) ∧
    (s.inbox = [] → step s = tick s)

/-- R195: the table of transitions, every row with its condition; and from it, what the status after a
step tells of the input and the status before. From states that meet the invariant. -/
def Obligations.StatusMovesAsTheTableAllows : Prop :=
  ∀ s t : State, Inv s → step s = .next t → StatusTable s t ∧
    (t.status = .idle → s.status = .idle ∨ Ready .reset s ∨ ∃ bytes, Ready (.load bytes) s) ∧
    (t.status = .loaded → s.status = .loaded ∨ ∃ bytes, Ready (.load bytes) s) ∧
    (t.status = .running → s.status = .running ∨
      Ready .run s ∧ (s.status = .loaded ∨ s.status = .paused)) ∧
    (t.status = .paused → s.status = .paused ∨ (Ready .pause s ∧ s.status = .running) ∨
      Ready .step s ∧ (s.status = .loaded ∨ s.status = .running)) ∧
    (t.status = .halted → s.status = .halted ∨ Ready .halt s ∨ (TickNext s ∧ s.status = .running) ∨
      Ready .step s ∧ (s.status = .loaded ∨ s.status = .running ∨ s.status = .paused))

/-- R240, R244: a fault leaves everything but STATUS, which is Halted, and the event that reports it;
and in Halted nothing but `reset` and `load` changes anything but the event output, and no fault is
reported. -/
def Obligations.HaltedIsLeftOnlyByResetOrLoad : Prop :=
  (∀ (i : Instr) (s : State) (f : Fault), Reports i s f →
    ∃ t, exec i s = .next t ∧ TakesFault f s t) ∧
  ∀ s t : State, s.status = .halted → NoReload s → step s = .next t →
    t.status = .halted ∧ CoreKept s t ∧
      ∃ new, t.events = s.events ++ new ∧ ∀ f, Event.faulted f ∉ new

/-- R7, R42, R260: no step changes the configuration. -/
def Obligations.ConfigurationNeverChanges : Prop :=
  ∀ s t : State, step s = .next t → t.cfg = s.cfg

/-- R208, R251: pausing a running machine and running it again changes nothing but the event output. -/
def Obligations.PauseThenRunResumes : Prop :=
  ∀ (s : State) (rest : List Arrival), s.status = .running →
    s.mem.read 0 ≠ 0 ∨ s.mem.read 1 ≠ 0 → s.inbox = ⟨0, .pause⟩ :: ⟨0, .run⟩ :: rest →
    ∃ t u, step s = .next t ∧ step t = .next u ∧ t.status = .paused ∧ CoreKept s t ∧
      CoreKept s u ∧ u.status = .running ∧ u.inbox = rest ∧ u.events = s.events ++ [.paused]

/-- R42, R220: the event output is written and never read back: what it holds makes no difference to
anything else, and one step adds at most one event. -/
def Obligations.EventOutputIsNeverReadBack : Prop :=
  ∀ (s : State) (old : List Event), ∃ t, step s = .next t ∧
    step { s with events := old ++ s.events } = .next { t with events := old ++ t.events } ∧
    ∃ new, t.events = s.events ++ new ∧ new.length ≤ 1
end

