-- ==== Sys2Proof/Laws/Assembler.lean ====
section
/-! SUPPORT. What the encoder of mnemonic strings does, said once: a text is split at its underscores,
a decimal numeral is read back, and a known name gives the byte of its operands. -/

namespace Sys2Proof.Machine

/-! ## Numerals -/

theorem digits?_append (as bs : List Char) (acc : Nat) :
    digits? acc (as ++ bs) = (digits? acc as).bind fun n => digits? n bs := by
  induction as generalizing acc with
  | nil => rfl
  | cons c cs ih =>
    simp only [List.cons_append, digits?]
    cases digit? c with
    | none => rfl
    | some d => exact ih _

theorem digit?_digitChar : ∀ d : Fin 10, digit? (Nat.digitChar d.val) = some d.val := by decide

/-- The digits of a number read as that number. -/
theorem digits?_toDigits (n : Nat) : digits? 0 (Nat.toDigits 10 n) = some n := by
  induction n using Nat.strongRecOn with
  | ind n ih =>
    by_cases h : n < 10
    · rw [Nat.toDigits_of_lt_base h, digits?, digit?_digitChar ⟨n, h⟩]
      simp [digits?]
    · have e := Nat.toDigits_append_toDigits (b := 10) (n := n / 10) (d := n % 10) (by omega)
        (by omega) (by omega)
      rw [show 10 * (n / 10) + n % 10 = n by omega] at e
      rw [← e, digits?_append, ih (n / 10) (by omega), Nat.toDigits_of_lt_base (by omega)]
      simp only [Option.bind_some, digits?, digit?_digitChar ⟨n % 10, by omega⟩]
      congr 1
      omega

/-- The numeral a number is written as reads as that number. -/
theorem numeral?_toString (n : Nat) : numeral? (toString n).toList = some n := by
  have e : (toString n).toList = Nat.toDigits 10 n := by
    show (Nat.repr n).toList = _
    simp [Nat.repr]
  rw [e]
  cases h : Nat.toDigits 10 n with
  | nil => exact absurd h Nat.toDigits_ne_nil
  | cons c cs => rw [numeral?, ← h, digits?_toDigits]

theorem digit?_eq_none {c : Char} (h : c.isDigit = false) : digit? c = none := by
  unfold digit?
  rw [if_neg]
  rintro ⟨h1, h2⟩
  have : c.isDigit = true := by
    rw [Char.le_def] at h1 h2
    simpa [Char.isDigit] using And.intro h1 h2
  rw [this] at h
  cases h

theorem digits?_eq_none {cs : List Char} (h : ∃ c ∈ cs, c.isDigit = false) (acc : Nat) :
    digits? acc cs = none := by
  induction cs generalizing acc with
  | nil => simp at h
  | cons d ds ih =>
    simp only [digits?]
    cases hd : digit? d with
    | none => rfl
    | some k =>
      obtain ⟨c, hc, hn⟩ := h
      rcases List.mem_cons.1 hc with rfl | hc
      · rw [digit?_eq_none hn] at hd; cases hd
      · exact ih ⟨c, hc, hn⟩ _

/-- A part with no character, or with one that is no digit, is no numeral. -/
theorem numeral?_eq_none {cs : List Char} (h : cs = [] ∨ ∃ c ∈ cs, c.isDigit = false) :
    numeral? cs = none := by
  rcases h with rfl | h
  · rfl
  · cases cs with
    | nil => rfl
    | cons c cs => exact digits?_eq_none h 0

theorem underscore_not_mem_toString (n : Nat) : '_' ∉ (toString n).toList := fun h => by
  have := numeral?_eq_none (.inr ⟨'_', h, rfl⟩)
  rw [numeral?_toString] at this
  cases this

/-! ## Splitting -/

theorem splitUnderscore_append {name : List Char} (h : '_' ∉ name) (rest : List Char) :
    splitUnderscore (name ++ '_' :: rest) = name :: splitUnderscore rest := by
  induction name with
  | nil => simp [splitUnderscore]
  | cons c cs ih =>
    simp only [List.mem_cons, not_or] at h
    rw [List.cons_append, splitUnderscore, if_neg (Ne.symm h.1), ih h.2]

theorem splitUnderscore_self {name : List Char} (h : '_' ∉ name) : splitUnderscore name = [name] := by
  induction name with
  | nil => rfl
  | cons c cs ih =>
    simp only [List.mem_cons, not_or] at h
    rw [splitUnderscore, if_neg (Ne.symm h.1), ih h.2]

/-- The text of a name and operands joined by underscores. -/
theorem splitUnderscore_intercalate {name : String} (h : '_' ∉ name.toList) :
    ∀ {parts : List String}, (∀ p ∈ parts, '_' ∉ p.toList) →
      splitUnderscore ("_".intercalate (name :: parts)).toList =
        name.toList :: parts.map String.toList := by
  intro parts
  induction parts generalizing name with
  | nil => intro _; exact splitUnderscore_self h
  | cons p ps ih =>
    intro hp
    have e : ("_".intercalate (name :: p :: ps)).toList =
        name.toList ++ '_' :: ("_".intercalate (p :: ps)).toList := by
      simp
    rw [e, splitUnderscore_append h, ih (hp p (by simp)) fun q hq => hp q (by simp [hq])]
    rfl

/-! ## The encoder -/

/-- A name and operands, none with an underscore in it, joined by underscores: the zero byte where the
name is unknown, else the byte of the operands. -/
theorem encodeMnemonic_intercalate {name : String} {parts : List String} (h : '_' ∉ name.toList)
    (hp : ∀ p ∈ parts, '_' ∉ p.toList) :
    encodeMnemonic ("_".intercalate (name :: parts)) =
      match baseName? name.toList with
      | none => .ok 0
      | some op => encodeOperands op (parts.map fun p => numeral? p.toList) := by
  unfold encodeMnemonic
  rw [splitUnderscore_intercalate h hp]
  simp only [List.map_map]
  rfl

/-- Operands that are not one number (two for GOTO) are refused. -/
theorem encodeOperands_malformed {op : BaseName} {args : List (Option Nat)}
    (h : args.length ≠ (if op = .goto then 2 else 1) ∨ none ∈ args) :
    encodeOperands op args = .error .operandsMalformed := by
  unfold encodeOperands
  split <;> simp_all

end Sys2Proof.Machine
end

