-- ==== Sys2Proof/Laws/Decode.lean ====
section
/-! SUPPORT. The fields of an opcode byte as numbers, so that facts about all 256 bytes become
arithmetic. -/

namespace Sys2Proof

theorem baseOp_toNat (b : Byte) : (baseOp b).toNat = b.toNat / 32 := by
  have := b.isLt
  simp only [baseOp, BitVec.extractLsb'_toNat, Nat.shiftRight_eq_div_pow]
  omega

theorem hiNibble_toNat (b : Byte) : (hiNibble b).toNat = b.toNat / 16 := by
  have := b.isLt
  simp only [hiNibble, BitVec.extractLsb'_toNat, Nat.shiftRight_eq_div_pow]
  omega

theorem loNibble_toNat (b : Byte) : (loNibble b).toNat = b.toNat % 16 := by
  simp [loNibble, BitVec.extractLsb'_toNat]

theorem midField_toNat (b : Byte) : (midField b).toNat = b.toNat / 2 % 16 := by
  simp [midField, BitVec.extractLsb'_toNat, Nat.shiftRight_eq_div_pow]

theorem lowBit_iff (b : Byte) : lowBit b = true ↔ b.toNat % 2 = 1 := by
  simp [lowBit, BitVec.getLsbD, Nat.testBit_zero]

theorem hiNibble_eq_extTag (b : Byte) : hiNibble b = extTag ↔ 0xF0 ≤ b.toNat := by
  have := b.isLt
  have h : (extTag : BitVec 4).toNat = 15 := rfl
  rw [← BitVec.toNat_inj, hiNibble_toNat, h]
  omega

theorem decodeWindow_ext {b : Byte} (h : 0xF0 ≤ b.toNat) (o1 o2 : Byte) :
    decodeWindow b o1 o2 = decodeExt b o1 o2 := if_pos ((hiNibble_eq_extTag b).2 h)

theorem decodeWindow_base {b : Byte} (h : b.toNat < 0xF0) (o1 o2 : Byte) :
    decodeWindow b o1 o2 = decodeBase b :=
  if_neg fun e => by have := (hiNibble_eq_extTag b).1 e; omega

/-- Decoding a list with every byte there is decoding its first three bytes. -/
theorem decode_cons {b : Byte} {bs : List Byte} (h : lengthOfOpcode b ≤ bs.length + 1) :
    decode (b :: bs) =
      .ok (decodeWindow b (bs.getD 0 0) (bs.getD 1 0), bs.drop (lengthOfOpcode b - 1)) := by
  simp only [decode]
  rw [if_neg (by omega)]

theorem lengthOfOpcode_le (b : Byte) : 1 ≤ lengthOfOpcode b ∧ lengthOfOpcode b ≤ 3 := by
  unfold lengthOfOpcode
  split
  · split <;> simp
  · simp

end Sys2Proof
end

