-- ==== Sys2Proof/Laws/Memory.lean ====
section
/-! SUPPORT. The laws of memory: a read after a write, the canonical form and the bound are kept, and
canonical memories that read alike are equal. -/

namespace Sys2Proof.Machine

/-! ## Reads -/

@[simp] theorem read_nil (a : Nat) : Memory.read [] a = 0 := rfl

theorem read_cons (c : Host.Cell) (m : Memory) (a : Nat) :
    Memory.read (c :: m) a = if c.1 = a then c.2 else Memory.read m a := rfl

theorem read_eq_zero_of_absent {m : Memory} {a : Nat} (h : ∀ c ∈ m, c.1 ≠ a) : m.read a = 0 := by
  induction m with
  | nil => rfl
  | cons c m ih =>
    rw [read_cons, if_neg (h c (by simp))]
    exact ih fun d hd => h d (by simp [hd])

theorem read_eraseAt_self (m : Memory) (a : Nat) : (m.eraseAt a).read a = 0 :=
  read_eq_zero_of_absent fun c hc => by simpa [Memory.eraseAt] using (List.mem_filter.1 hc).2

theorem read_eraseAt_ne {a b : Nat} (h : b ≠ a) (m : Memory) : (m.eraseAt a).read b = m.read b := by
  induction m with
  | nil => rfl
  | cons c m ih =>
    by_cases hc : c.1 = a
    · have hb : ¬ c.1 = b := fun e => h (e.symm.trans hc)
      simp only [Memory.eraseAt, List.filter_cons, hc, bne_self_eq_false, Bool.false_eq_true,
        if_false, read_cons] at ih ⊢
      rw [hc] at hb
      rw [if_neg hb]
      exact ih
    · simp only [Memory.eraseAt, List.filter_cons, bne_iff_ne, ne_eq, hc, not_false_eq_true, if_true,
        read_cons] at ih ⊢
      rw [ih]

theorem read_insertCell_ne {c : Host.Cell} {b : Nat} (h : c.1 ≠ b) (m : Memory) :
    (Memory.insertCell c m).read b = m.read b := by
  induction m with
  | nil => simp [Memory.insertCell, read_cons, h]
  | cons d m ih =>
    simp only [Memory.insertCell]
    split
    · rw [read_cons, if_neg h]
    · rw [read_cons, read_cons, ih]

theorem read_insertCell_self {c : Host.Cell} {m : Memory} (h : ∀ d ∈ m, d.1 ≠ c.1) :
    (Memory.insertCell c m).read c.1 = c.2 := by
  induction m with
  | nil => simp [Memory.insertCell, read_cons]
  | cons d m ih =>
    simp only [Memory.insertCell]
    split
    · rw [read_cons, if_pos rfl]
    · rw [read_cons, if_neg (h d (by simp)), ih fun e he => h e (by simp [he])]

theorem absent_eraseAt (m : Memory) (a : Nat) : ∀ c ∈ m.eraseAt a, c.1 ≠ a :=
  fun c hc => by simpa [Memory.eraseAt] using (List.mem_filter.1 hc).2

@[simp] theorem read_write_self (m : Memory) (a : Nat) (v : Byte) : (m.write a v).read a = v := by
  unfold Memory.write
  split
  · rw [read_eraseAt_self]; exact ‹v = 0›.symm
  · exact read_insertCell_self (c := (a, v)) (absent_eraseAt m a)

theorem read_write_ne {a b : Nat} (h : b ≠ a) (m : Memory) (v : Byte) :
    (m.write a v).read b = m.read b := by
  unfold Memory.write
  split
  · exact read_eraseAt_ne h m
  · rw [read_insertCell_ne (c := (a, v)) (Ne.symm h), read_eraseAt_ne h]

theorem read_write (m : Memory) (a b : Nat) (v : Byte) :
    (m.write a v).read b = if b = a then v else m.read b := by
  split
  · subst_vars; simp
  · exact read_write_ne ‹_› m v

/-! ## Words -/

theorem hiByte_toNat (w : Word) : (hiByte w).toNat = w.toNat / 256 := by
  have := w.isLt
  simp only [hiByte, BitVec.extractLsb'_toNat, Nat.shiftRight_eq_div_pow]
  omega

theorem loByte_toNat (w : Word) : (loByte w).toNat = w.toNat % 256 := by
  simp [loByte, BitVec.extractLsb'_toNat]

theorem wordOf_toNat (h l : Byte) : (wordOf h l).toNat = 256 * h.toNat + l.toNat := by
  unfold wordOf
  rw [BitVec.toNat_append, ← Nat.shiftLeft_add_eq_or_of_lt l.isLt, Nat.shiftLeft_eq]
  omega

@[simp] theorem wordOf_hiByte_loByte (w : Word) : wordOf (hiByte w) (loByte w) = w := by
  apply BitVec.eq_of_toNat_eq
  rw [wordOf_toNat, hiByte_toNat, loByte_toNat]
  omega

@[simp] theorem hiByte_wordOf (h l : Byte) : hiByte (wordOf h l) = h := by
  apply BitVec.eq_of_toNat_eq
  have := l.isLt
  rw [hiByte_toNat, wordOf_toNat]
  omega

@[simp] theorem loByte_wordOf (h l : Byte) : loByte (wordOf h l) = l := by
  apply BitVec.eq_of_toNat_eq
  have := l.isLt
  rw [loByte_toNat, wordOf_toNat]
  omega

theorem read_writeWord_hi (m : Memory) (a : Nat) (w : Word) : (m.writeWord a w).read a = hiByte w := by
  simp [Memory.writeWord, read_write]

theorem read_writeWord_lo (m : Memory) (a : Nat) (w : Word) :
    (m.writeWord a w).read (a + 1) = loByte w := by
  simp [Memory.writeWord]

theorem read_writeWord_ne {m : Memory} {a b : Nat} (w : Word) (h : ¬ (a ≤ b ∧ b < a + 2)) :
    (m.writeWord a w).read b = m.read b := by
  unfold Memory.writeWord
  rw [read_write_ne (by omega), read_write_ne (by omega)]

@[simp] theorem readWord_writeWord (m : Memory) (a : Nat) (w : Word) :
    (m.writeWord a w).readWord a = w := by
  rw [Memory.readWord, read_writeWord_hi, read_writeWord_lo, wordOf_hiByte_loByte]

theorem readWord_writeWord_ne {m : Memory} {a b : Nat} (w : Word) (h : b + 1 < a ∨ a + 1 < b) :
    (m.writeWord a w).readWord b = m.readWord b := by
  unfold Memory.readWord
  rw [read_writeWord_ne w (by omega), read_writeWord_ne w (by omega)]

/-! ## Copies -/

theorem read_copyIn (bs : List Byte) : ∀ (m : Memory) (a b : Nat),
    (m.copyIn a bs).read b = if a ≤ b ∧ b < a + bs.length then bs.getD (b - a) 0 else m.read b := by
  induction bs with
  | nil => intro m a b; rw [Memory.copyIn, if_neg (by simp)]
  | cons v bs ih =>
    intro m a b
    rw [Memory.copyIn, ih, read_write]
    by_cases hb : b = a
    · subst hb; simp
    · rcases Nat.lt_or_gt_of_ne hb with h | h
      · rw [if_neg (by omega), if_neg hb, if_neg (by omega)]
      · obtain ⟨k, rfl⟩ : ∃ k, b = a + 1 + k := ⟨b - (a + 1), by omega⟩
        have e : a + 1 + k - a = k + 1 := by omega
        have e' : a + 1 + k - (a + 1) = k := by omega
        simp only [List.length_cons, e, e', List.getD_cons_succ, hb, if_false]
        by_cases hk : k < bs.length
        · rw [if_pos (by omega), if_pos (by omega)]
        · rw [if_neg (by omega), if_neg (by omega)]

/-! ## The canonical form -/

theorem wf_iff (m : Memory) :
    m.wf = true ↔ m.Pairwise (fun c d => c.1 < d.1) ∧ ∀ c ∈ m, c.2 ≠ 0 := by
  simp [Memory.wf]

theorem wf_nil : Memory.wf [] = true := by decide

theorem wf_eraseAt {m : Memory} (h : m.wf = true) (a : Nat) : (m.eraseAt a).wf = true := by
  rw [wf_iff] at h ⊢
  exact ⟨h.1.filter _, fun c hc => h.2 c (List.mem_filter.1 hc).1⟩

theorem mem_insertCell {c d : Host.Cell} {m : Memory} :
    d ∈ Memory.insertCell c m ↔ d = c ∨ d ∈ m := by
  induction m with
  | nil => simp [Memory.insertCell]
  | cons e m ih =>
    simp only [Memory.insertCell]
    split
    · simp
    · simp only [List.mem_cons, ih]; tauto

theorem wf_insertCell {c : Host.Cell} {m : Memory} (h : m.wf = true) (hc : c.2 ≠ 0)
    (ha : ∀ d ∈ m, d.1 ≠ c.1) : (Memory.insertCell c m).wf = true := by
  rw [wf_iff] at h ⊢
  refine ⟨?_, fun d hd => ?_⟩
  · induction m with
    | nil => simp [Memory.insertCell]
    | cons e m ih =>
      have hp := List.pairwise_cons.1 h.1
      have he := ha e (by simp)
      simp only [Memory.insertCell]
      split
      · refine List.pairwise_cons.2 ⟨fun d hd => ?_, h.1⟩
        rcases List.mem_cons.1 hd with rfl | hd
        · assumption
        · exact Nat.lt_trans ‹_› (hp.1 d hd)
      · refine List.pairwise_cons.2 ⟨fun d hd => ?_, ?_⟩
        · rcases mem_insertCell.1 hd with rfl | hd
          · omega
          · exact hp.1 d hd
        · exact ih ⟨hp.2, fun d hd => h.2 d (by simp [hd])⟩ fun d hd => ha d (by simp [hd])
  · rcases mem_insertCell.1 hd with rfl | hd
    · exact hc
    · exact h.2 d hd

/-- A write keeps the canonical form. -/
theorem wf_write {m : Memory} (h : m.wf = true) (a : Nat) (v : Byte) : (m.write a v).wf = true := by
  unfold Memory.write
  split
  · exact wf_eraseAt h a
  · exact wf_insertCell (wf_eraseAt h a) ‹_› (absent_eraseAt m a)

theorem wf_writeWord {m : Memory} (h : m.wf = true) (a : Nat) (w : Word) :
    (m.writeWord a w).wf = true := wf_write (wf_write h _ _) _ _

theorem wf_copyIn {m : Memory} (h : m.wf = true) (a : Nat) (bs : List Byte) :
    (m.copyIn a bs).wf = true := by
  induction bs generalizing m a with
  | nil => exact h
  | cons b bs ih => exact ih (wf_write h _ _) _

/-! ## The bound -/

theorem mem_write_addr {m : Memory} {a : Nat} {v : Byte} {c : Host.Cell} (h : c ∈ m.write a v) :
    c.1 = a ∨ c ∈ m := by
  unfold Memory.write at h
  split at h
  · exact .inr (List.mem_filter.1 h).1
  · rcases mem_insertCell.1 h with rfl | h
    · exact .inl rfl
    · exact .inr (List.mem_filter.1 h).1

theorem inside_write {m : Memory} {n a : Nat} (h : ∀ c ∈ m, c.1 < n) (ha : a < n) (v : Byte) :
    ∀ c ∈ m.write a v, c.1 < n := fun c hc => by
  rcases mem_write_addr hc with rfl | hc
  · exact ha
  · exact h c hc

theorem inside_writeWord {m : Memory} {n a : Nat} (h : ∀ c ∈ m, c.1 < n) (ha : a + 1 < n) (w : Word) :
    ∀ c ∈ m.writeWord a w, c.1 < n :=
  inside_write (inside_write h (by omega) _) ha _

theorem inside_copyIn {n : Nat} (bs : List Byte) : ∀ {m : Memory} {a : Nat}, (∀ c ∈ m, c.1 < n) →
    a + bs.length ≤ n → ∀ c ∈ m.copyIn a bs, c.1 < n := by
  induction bs with
  | nil => intro m a h _; exact h
  | cons b bs ih =>
    intro m a h ha
    simp only [List.length_cons] at ha
    exact ih (inside_write h (by omega) b) (by omega)

end Sys2Proof.Machine
end

