-- ==== Sys2Proof/Laws/State.lean ====
section
/-! SUPPORT. One lemma per field per update of the state, true by unfolding, so that no later proof
unfolds a record update; and the reads through accessors. -/

namespace Sys2Proof.Machine

/-! ### setX -/

@[simp] theorem setX_cfg (s : State) (r : RegIdx) (v : Word) : (s.setX r v).cfg = s.cfg := rfl
@[simp] theorem setX_regs (s : State) (r : RegIdx) (v : Word) :
    (s.setX r v).regs = s.regs.set r.val v := rfl
@[simp] theorem setX_pc (s : State) (r : RegIdx) (v : Word) : (s.setX r v).pc = s.pc := rfl
@[simp] theorem setX_sp (s : State) (r : RegIdx) (v : Word) : (s.setX r v).sp = s.sp := rfl
@[simp] theorem setX_flag (s : State) (r : RegIdx) (v : Word) : (s.setX r v).flag = s.flag := rfl
@[simp] theorem setX_mem (s : State) (r : RegIdx) (v : Word) : (s.setX r v).mem = s.mem := rfl
@[simp] theorem setX_labels (s : State) (r : RegIdx) (v : Word) :
    (s.setX r v).labels = s.labels := rfl
@[simp] theorem setX_progLen (s : State) (r : RegIdx) (v : Word) :
    (s.setX r v).progLen = s.progLen := rfl
@[simp] theorem setX_status (s : State) (r : RegIdx) (v : Word) :
    (s.setX r v).status = s.status := rfl
@[simp] theorem setX_inbox (s : State) (r : RegIdx) (v : Word) : (s.setX r v).inbox = s.inbox := rfl
@[simp] theorem setX_events (s : State) (r : RegIdx) (v : Word) :
    (s.setX r v).events = s.events := rfl

@[simp] theorem labelAt_setX (s : State) (r : RegIdx) (v : Word) (l : LabelId) :
    (s.setX r v).labelAt l = s.labelAt l := rfl

/-! ### advance -/

@[simp] theorem advance_cfg (s : State) (n : Nat) : (s.advance n).cfg = s.cfg := rfl
@[simp] theorem advance_regs (s : State) (n : Nat) : (s.advance n).regs = s.regs := rfl
@[simp] theorem advance_pc (s : State) (n : Nat) :
    (s.advance n).pc = s.pc + BitVec.ofNat 16 n := rfl
@[simp] theorem advance_sp (s : State) (n : Nat) : (s.advance n).sp = s.sp := rfl
@[simp] theorem advance_flag (s : State) (n : Nat) : (s.advance n).flag = s.flag := rfl
@[simp] theorem advance_mem (s : State) (n : Nat) : (s.advance n).mem = s.mem := rfl
@[simp] theorem advance_labels (s : State) (n : Nat) : (s.advance n).labels = s.labels := rfl
@[simp] theorem advance_progLen (s : State) (n : Nat) : (s.advance n).progLen = s.progLen := rfl
@[simp] theorem advance_status (s : State) (n : Nat) : (s.advance n).status = s.status := rfl
@[simp] theorem advance_inbox (s : State) (n : Nat) : (s.advance n).inbox = s.inbox := rfl
@[simp] theorem advance_events (s : State) (n : Nat) : (s.advance n).events = s.events := rfl

@[simp] theorem x_advance (s : State) (n : Nat) (r : RegIdx) : (s.advance n).x r = s.x r := rfl

@[simp] theorem labelAt_advance (s : State) (n : Nat) (l : LabelId) :
    (s.advance n).labelAt l = s.labelAt l := rfl

/-! ### jump -/

@[simp] theorem jump_cfg (s : State) (v : Word) : (s.jump v).cfg = s.cfg := rfl
@[simp] theorem jump_regs (s : State) (v : Word) : (s.jump v).regs = s.regs := rfl
@[simp] theorem jump_pc (s : State) (v : Word) : (s.jump v).pc = v := rfl
@[simp] theorem jump_sp (s : State) (v : Word) : (s.jump v).sp = s.sp := rfl
@[simp] theorem jump_flag (s : State) (v : Word) : (s.jump v).flag = s.flag := rfl
@[simp] theorem jump_mem (s : State) (v : Word) : (s.jump v).mem = s.mem := rfl
@[simp] theorem jump_labels (s : State) (v : Word) : (s.jump v).labels = s.labels := rfl
@[simp] theorem jump_progLen (s : State) (v : Word) : (s.jump v).progLen = s.progLen := rfl
@[simp] theorem jump_status (s : State) (v : Word) : (s.jump v).status = s.status := rfl
@[simp] theorem jump_inbox (s : State) (v : Word) : (s.jump v).inbox = s.inbox := rfl
@[simp] theorem jump_events (s : State) (v : Word) : (s.jump v).events = s.events := rfl

@[simp] theorem x_jump (s : State) (v : Word) (r : RegIdx) : (s.jump v).x r = s.x r := rfl

@[simp] theorem labelAt_jump (s : State) (v : Word) (l : LabelId) :
    (s.jump v).labelAt l = s.labelAt l := rfl

/-! ### emit -/

@[simp] theorem emit_cfg (s : State) (e : Event) : (s.emit e).cfg = s.cfg := rfl
@[simp] theorem emit_regs (s : State) (e : Event) : (s.emit e).regs = s.regs := rfl
@[simp] theorem emit_pc (s : State) (e : Event) : (s.emit e).pc = s.pc := rfl
@[simp] theorem emit_sp (s : State) (e : Event) : (s.emit e).sp = s.sp := rfl
@[simp] theorem emit_flag (s : State) (e : Event) : (s.emit e).flag = s.flag := rfl
@[simp] theorem emit_mem (s : State) (e : Event) : (s.emit e).mem = s.mem := rfl
@[simp] theorem emit_labels (s : State) (e : Event) : (s.emit e).labels = s.labels := rfl
@[simp] theorem emit_progLen (s : State) (e : Event) : (s.emit e).progLen = s.progLen := rfl
@[simp] theorem emit_status (s : State) (e : Event) : (s.emit e).status = s.status := rfl
@[simp] theorem emit_inbox (s : State) (e : Event) : (s.emit e).inbox = s.inbox := rfl
@[simp] theorem emit_events (s : State) (e : Event) : (s.emit e).events = s.events ++ [e] := rfl

@[simp] theorem x_emit (s : State) (e : Event) (r : RegIdx) : (s.emit e).x r = s.x r := rfl

@[simp] theorem labelAt_emit (s : State) (e : Event) (l : LabelId) :
    (s.emit e).labelAt l = s.labelAt l := rfl

/-! ### setStatus -/

@[simp] theorem setStatus_cfg (s : State) (v : Status) : (s.setStatus v).cfg = s.cfg := rfl
@[simp] theorem setStatus_regs (s : State) (v : Status) : (s.setStatus v).regs = s.regs := rfl
@[simp] theorem setStatus_pc (s : State) (v : Status) : (s.setStatus v).pc = s.pc := rfl
@[simp] theorem setStatus_sp (s : State) (v : Status) : (s.setStatus v).sp = s.sp := rfl
@[simp] theorem setStatus_flag (s : State) (v : Status) : (s.setStatus v).flag = s.flag := rfl
@[simp] theorem setStatus_mem (s : State) (v : Status) : (s.setStatus v).mem = s.mem := rfl
@[simp] theorem setStatus_labels (s : State) (v : Status) : (s.setStatus v).labels = s.labels := rfl
@[simp] theorem setStatus_progLen (s : State) (v : Status) :
    (s.setStatus v).progLen = s.progLen := rfl
@[simp] theorem setStatus_status (s : State) (v : Status) : (s.setStatus v).status = v := rfl
@[simp] theorem setStatus_inbox (s : State) (v : Status) : (s.setStatus v).inbox = s.inbox := rfl
@[simp] theorem setStatus_events (s : State) (v : Status) : (s.setStatus v).events = s.events := rfl

@[simp] theorem x_setStatus (s : State) (v : Status) (r : RegIdx) : (s.setStatus v).x r = s.x r := rfl

@[simp] theorem labelAt_setStatus (s : State) (v : Status) (l : LabelId) :
    (s.setStatus v).labelAt l = s.labelAt l := rfl

/-! ### storeWord -/

@[simp] theorem storeWord_cfg (s : State) (a : Nat) (w : Word) :
    (s.storeWord a w).cfg = s.cfg := rfl
@[simp] theorem storeWord_regs (s : State) (a : Nat) (w : Word) :
    (s.storeWord a w).regs = s.regs := rfl
@[simp] theorem storeWord_pc (s : State) (a : Nat) (w : Word) : (s.storeWord a w).pc = s.pc := rfl
@[simp] theorem storeWord_sp (s : State) (a : Nat) (w : Word) : (s.storeWord a w).sp = s.sp := rfl
@[simp] theorem storeWord_flag (s : State) (a : Nat) (w : Word) :
    (s.storeWord a w).flag = s.flag := rfl
@[simp] theorem storeWord_mem (s : State) (a : Nat) (w : Word) :
    (s.storeWord a w).mem = s.mem.writeWord a w := rfl
@[simp] theorem storeWord_labels (s : State) (a : Nat) (w : Word) :
    (s.storeWord a w).labels = s.labels := rfl
@[simp] theorem storeWord_progLen (s : State) (a : Nat) (w : Word) :
    (s.storeWord a w).progLen = s.progLen := rfl
@[simp] theorem storeWord_status (s : State) (a : Nat) (w : Word) :
    (s.storeWord a w).status = s.status := rfl
@[simp] theorem storeWord_inbox (s : State) (a : Nat) (w : Word) :
    (s.storeWord a w).inbox = s.inbox := rfl
@[simp] theorem storeWord_events (s : State) (a : Nat) (w : Word) :
    (s.storeWord a w).events = s.events := rfl

@[simp] theorem x_storeWord (s : State) (a : Nat) (w : Word) (r : RegIdx) : (s.storeWord a w).x r = s.x r := rfl

@[simp] theorem labelAt_storeWord (s : State) (a : Nat) (w : Word) (l : LabelId) :
    (s.storeWord a w).labelAt l = s.labelAt l := rfl

/-! ### setFlag -/

@[simp] theorem setFlag_cfg (s : State) (v : Bool) : (s.setFlag v).cfg = s.cfg := rfl
@[simp] theorem setFlag_regs (s : State) (v : Bool) : (s.setFlag v).regs = s.regs := rfl
@[simp] theorem setFlag_pc (s : State) (v : Bool) : (s.setFlag v).pc = s.pc := rfl
@[simp] theorem setFlag_sp (s : State) (v : Bool) : (s.setFlag v).sp = s.sp := rfl
@[simp] theorem setFlag_flag (s : State) (v : Bool) : (s.setFlag v).flag = v := rfl
@[simp] theorem setFlag_mem (s : State) (v : Bool) : (s.setFlag v).mem = s.mem := rfl
@[simp] theorem setFlag_labels (s : State) (v : Bool) : (s.setFlag v).labels = s.labels := rfl
@[simp] theorem setFlag_progLen (s : State) (v : Bool) : (s.setFlag v).progLen = s.progLen := rfl
@[simp] theorem setFlag_status (s : State) (v : Bool) : (s.setFlag v).status = s.status := rfl
@[simp] theorem setFlag_inbox (s : State) (v : Bool) : (s.setFlag v).inbox = s.inbox := rfl
@[simp] theorem setFlag_events (s : State) (v : Bool) : (s.setFlag v).events = s.events := rfl

@[simp] theorem x_setFlag (s : State) (v : Bool) (r : RegIdx) : (s.setFlag v).x r = s.x r := rfl

@[simp] theorem labelAt_setFlag (s : State) (v : Bool) (l : LabelId) :
    (s.setFlag v).labelAt l = s.labelAt l := rfl

/-! ### takeFault -/

@[simp] theorem takeFault_cfg (s : State) (f : Fault) : (s.takeFault f).cfg = s.cfg := rfl
@[simp] theorem takeFault_regs (s : State) (f : Fault) : (s.takeFault f).regs = s.regs := rfl
@[simp] theorem takeFault_pc (s : State) (f : Fault) : (s.takeFault f).pc = s.pc := rfl
@[simp] theorem takeFault_sp (s : State) (f : Fault) : (s.takeFault f).sp = s.sp := rfl
@[simp] theorem takeFault_flag (s : State) (f : Fault) : (s.takeFault f).flag = s.flag := rfl
@[simp] theorem takeFault_mem (s : State) (f : Fault) : (s.takeFault f).mem = s.mem := rfl
@[simp] theorem takeFault_labels (s : State) (f : Fault) : (s.takeFault f).labels = s.labels := rfl
@[simp] theorem takeFault_progLen (s : State) (f : Fault) :
    (s.takeFault f).progLen = s.progLen := rfl
@[simp] theorem takeFault_status (s : State) (f : Fault) : (s.takeFault f).status = .halted := rfl
@[simp] theorem takeFault_inbox (s : State) (f : Fault) : (s.takeFault f).inbox = s.inbox := rfl
@[simp] theorem takeFault_events (s : State) (f : Fault) :
    (s.takeFault f).events = s.events ++ [.faulted f] := rfl

@[simp] theorem x_takeFault (s : State) (f : Fault) (r : RegIdx) : (s.takeFault f).x r = s.x r := rfl

@[simp] theorem labelAt_takeFault (s : State) (f : Fault) (l : LabelId) :
    (s.takeFault f).labelAt l = s.labelAt l := rfl

/-! ### preprocess -/

@[simp] theorem preprocess_cfg (s : State) : (s.preprocess).cfg = s.cfg := rfl
@[simp] theorem preprocess_regs (s : State) : (s.preprocess).regs = s.regs := rfl
@[simp] theorem preprocess_pc (s : State) : (s.preprocess).pc = s.pc := rfl
@[simp] theorem preprocess_sp (s : State) : (s.preprocess).sp = s.sp := rfl
@[simp] theorem preprocess_flag (s : State) : (s.preprocess).flag = s.flag := rfl
@[simp] theorem preprocess_mem (s : State) : (s.preprocess).mem = s.mem := rfl
@[simp] theorem preprocess_labels (s : State) :
    (s.preprocess).labels = (List.range s.progLen.toNat).foldl (resolveByte s.mem) s.labels := rfl
@[simp] theorem preprocess_progLen (s : State) : (s.preprocess).progLen = s.progLen := rfl
@[simp] theorem preprocess_status (s : State) : (s.preprocess).status = s.status := rfl
@[simp] theorem preprocess_inbox (s : State) : (s.preprocess).inbox = s.inbox := rfl
@[simp] theorem preprocess_events (s : State) : (s.preprocess).events = s.events := rfl

@[simp] theorem x_preprocess (s : State) (r : RegIdx) : (s.preprocess).x r = s.x r := rfl

/-! ### resetAll -/

@[simp] theorem resetAll_cfg (s : State) : (s.resetAll).cfg = s.cfg := rfl
@[simp] theorem resetAll_regs (s : State) : (s.resetAll).regs = Vector.replicate 17 0 := rfl
@[simp] theorem resetAll_pc (s : State) : (s.resetAll).pc = 0 := rfl
@[simp] theorem resetAll_sp (s : State) : (s.resetAll).sp = BitVec.ofNat 16 s.cfg.stackHead := rfl
@[simp] theorem resetAll_flag (s : State) : (s.resetAll).flag = false := rfl
@[simp] theorem resetAll_mem (s : State) : (s.resetAll).mem = [] := rfl
@[simp] theorem resetAll_labels (s : State) : (s.resetAll).labels = Vector.replicate 16 0 := rfl
@[simp] theorem resetAll_progLen (s : State) : (s.resetAll).progLen = 0 := rfl
@[simp] theorem resetAll_status (s : State) : (s.resetAll).status = .idle := rfl
@[simp] theorem resetAll_inbox (s : State) : (s.resetAll).inbox = s.inbox := rfl
@[simp] theorem resetAll_events (s : State) : (s.resetAll).events = s.events := rfl

/-! ### Registers -/

@[simp] theorem x_setX_self (s : State) (r : RegIdx) (v : Word) : (s.setX r v).x r = v := by
  simp [State.x, State.setX]

theorem x_setX_ne (s : State) {r q : RegIdx} (v : Word) (h : q ≠ r) : (s.setX r v).x q = s.x q := by
  have : r.val ≠ q.val := fun e => h (Fin.ext e.symm)
  simp [State.x, State.setX, Vector.getElem_set_ne, this]

theorem x_setX (s : State) (r q : RegIdx) (v : Word) :
    (s.setX r v).x q = if q = r then v else s.x q := by
  split
  · subst_vars; simp
  · exact x_setX_ne s v ‹_›

@[simp] theorem x_resetAll (s : State) (r : RegIdx) : s.resetAll.x r = 0 := by
  simp [State.x, State.resetAll]

@[simp] theorem labelAt_resetAll (s : State) (l : LabelId) : s.resetAll.labelAt l = 0 := by
  simp [State.labelAt, State.resetAll]

/-- Two states with the same registers by accessor have the same register file. -/
theorem regs_ext {s t : State} (h : ∀ r, s.x r = t.x r) : s.regs = t.regs := by
  apply Vector.ext
  intro i hi
  exact h ⟨i, hi⟩

end Sys2Proof.Machine
end

