-- ==== Sys2Proof/Laws/Ops.lean ====
section
/-! SUPPORT. What each shared operation can do, said once: the stack primitives, taking a fault, the
operand checks, the exchange, the Resolver; and the inversion of `exec`. -/

namespace Sys2Proof.Machine

/-! ## Taking a fault and finishing -/

@[simp] theorem finish_ok (s t : State) : finish s (.ok t) = .next t := rfl

@[simp] theorem finish_error (s : State) (f : Fault) : finish s (.error f) = raise f s := rfl

theorem raise_eq (f : Fault) (s : State) : raise f s = .next (s.takeFault f) := rfl

/-- Taking a fault keeps everything but STATUS and the event output (R240). -/
theorem takesFault_takeFault (f : Fault) (s : State) : TakesFault f s (s.takeFault f) :=
  ⟨⟨fun _ _ => rfl, rfl, rfl, rfl, fun _ => rfl, fun _ => rfl, rfl, rfl⟩, rfl, rfl, rfl⟩

/-! ## The stack primitives -/

/-- The state after a push that had room (R135). -/
def State.pushed (s : State) (v : Word) : State :=
  { s with sp := s.sp - 2, mem := s.mem.writeWord s.pushSlot v }

/-- The state after a pop that found a slot (R136). -/
def State.popped (s : State) : State := { s with sp := s.sp + 2 }

theorem stackFull_iff (s : State) : StackFull s ↔ s.sp.toNat < s.cfg.stackLimit + 2 := by
  unfold StackFull; omega

theorem stackEmpty_iff (s : State) : StackEmpty s ↔ s.cfg.stackHead < s.sp.toNat + 2 := by
  unfold StackEmpty; omega

theorem push_full {s : State} (h : StackFull s) (v : Word) : s.push v = .error .stackOverflow := by
  rw [stackFull_iff] at h; simp [State.push, h]

theorem push_room {s : State} (h : ¬ StackFull s) (v : Word) : s.push v = .ok (s.pushed v) := by
  rw [stackFull_iff] at h; simp [State.push, State.pushed, h]

theorem pop_empty {s : State} (h : StackEmpty s) : s.pop = .error .stackUnderflow := by
  rw [stackEmpty_iff] at h; simp [State.pop, h]

theorem pop_slot {s : State} (h : ¬ StackEmpty s) :
    s.pop = .ok (s.mem.readWord s.sp.toNat, s.popped) := by
  rw [stackEmpty_iff] at h; simp [State.pop, State.popped, h]

@[simp] theorem pushed_cfg (s : State) (v : Word) : (s.pushed v).cfg = s.cfg := rfl
@[simp] theorem pushed_pc (s : State) (v : Word) : (s.pushed v).pc = s.pc := rfl
@[simp] theorem pushed_sp (s : State) (v : Word) : (s.pushed v).sp = s.sp - 2 := rfl
@[simp] theorem pushed_flag (s : State) (v : Word) : (s.pushed v).flag = s.flag := rfl
@[simp] theorem pushed_mem (s : State) (v : Word) :
    (s.pushed v).mem = s.mem.writeWord s.pushSlot v := rfl
@[simp] theorem pushed_labels (s : State) (v : Word) : (s.pushed v).labels = s.labels := rfl
@[simp] theorem pushed_progLen (s : State) (v : Word) : (s.pushed v).progLen = s.progLen := rfl
@[simp] theorem pushed_status (s : State) (v : Word) : (s.pushed v).status = s.status := rfl
@[simp] theorem pushed_inbox (s : State) (v : Word) : (s.pushed v).inbox = s.inbox := rfl
@[simp] theorem pushed_events (s : State) (v : Word) : (s.pushed v).events = s.events := rfl
@[simp] theorem x_pushed (s : State) (v : Word) (r : RegIdx) : (s.pushed v).x r = s.x r := rfl
@[simp] theorem labelAt_pushed (s : State) (v : Word) (l : LabelId) :
    (s.pushed v).labelAt l = s.labelAt l := rfl

@[simp] theorem popped_cfg (s : State) : s.popped.cfg = s.cfg := rfl
@[simp] theorem popped_pc (s : State) : s.popped.pc = s.pc := rfl
@[simp] theorem popped_sp (s : State) : s.popped.sp = s.sp + 2 := rfl
@[simp] theorem popped_flag (s : State) : s.popped.flag = s.flag := rfl
@[simp] theorem popped_mem (s : State) : s.popped.mem = s.mem := rfl
@[simp] theorem popped_labels (s : State) : s.popped.labels = s.labels := rfl
@[simp] theorem popped_progLen (s : State) : s.popped.progLen = s.progLen := rfl
@[simp] theorem popped_status (s : State) : s.popped.status = s.status := rfl
@[simp] theorem popped_inbox (s : State) : s.popped.inbox = s.inbox := rfl
@[simp] theorem popped_events (s : State) : s.popped.events = s.events := rfl
@[simp] theorem x_popped (s : State) (r : RegIdx) : s.popped.x r = s.x r := rfl
@[simp] theorem labelAt_popped (s : State) (l : LabelId) : s.popped.labelAt l = s.labelAt l := rfl

/-- A push with room moves SP down by 2 without wrapping. -/
theorem pushSlot_add_two {s : State} (h : ¬ StackFull s) : s.pushSlot + 2 = s.sp.toNat := by
  rw [stackFull_iff] at h
  have := s.sp.isLt
  have h2 : (2 : Word).toNat = 2 := rfl
  rw [State.pushSlot, BitVec.toNat_sub, h2]
  omega

/-! ## The exchange -/

@[simp] theorem exchange_cfg (s : State) (a b : RegIdx) : (s.exchange a b).cfg = s.cfg := rfl
@[simp] theorem exchange_pc (s : State) (a b : RegIdx) : (s.exchange a b).pc = s.pc := rfl
@[simp] theorem exchange_sp (s : State) (a b : RegIdx) : (s.exchange a b).sp = s.sp := rfl
@[simp] theorem exchange_flag (s : State) (a b : RegIdx) : (s.exchange a b).flag = s.flag := rfl
@[simp] theorem exchange_mem (s : State) (a b : RegIdx) : (s.exchange a b).mem = s.mem := rfl
@[simp] theorem exchange_labels (s : State) (a b : RegIdx) : (s.exchange a b).labels = s.labels := rfl
@[simp] theorem exchange_progLen (s : State) (a b : RegIdx) : (s.exchange a b).progLen = s.progLen := rfl
@[simp] theorem exchange_status (s : State) (a b : RegIdx) : (s.exchange a b).status = s.status := rfl
@[simp] theorem exchange_inbox (s : State) (a b : RegIdx) : (s.exchange a b).inbox = s.inbox := rfl
@[simp] theorem exchange_events (s : State) (a b : RegIdx) : (s.exchange a b).events = s.events := rfl
@[simp] theorem labelAt_exchange (s : State) (a b : RegIdx) (l : LabelId) :
    (s.exchange a b).labelAt l = s.labelAt l := rfl

theorem x_exchange (s : State) (a b r : RegIdx) :
    (s.exchange a b).x r = if r = b then s.x a else if r = a then s.x b else s.x r := by
  unfold State.exchange
  rw [x_setX, x_setX]

/-! ## `exec` -/

/-- What an instruction does when it reports no fault. -/
def effect : Instr → State → State
  | .set imm5, s => (s.setX 0 (imm5.setWidth 16)).advance 1
  | .add n, s => (s.setX 0 (s.x 0 + s.x n)).advance 1
  | .sub n, s => (s.setX 0 (s.x 0 - s.x n)).advance 1
  | .mul n, s => (s.setX 0 (s.x 0 * s.x n)).advance 1
  | .pushReg n, s => (s.pushed (s.x n)).advance 1
  | .pushAcc, s => (s.pushed (s.x 0)).advance 1
  | .popReg n, s => (s.popped.setX n (s.mem.readWord s.sp.toNat)).advance 1
  | .popAcc, s => (s.popped.setX 0 (s.mem.readWord s.sp.toNat)).advance 1
  | .goto l c, s => if s.taken c then s.jump (s.labelAt l) else s.advance 1
  | .label _, s => s.advance 1
  | .noop, s => s.advance 1
  | .halt, s => ((s.advance 1).setStatus .halted).emit .halted
  | .store addr, s => (s.storeWord addr.toNat (s.x 0)).advance 3
  | .load addr, s => (s.setX 0 (s.mem.readWord addr.toNat)).advance 3
  | .swap a b, s => (s.exchange a b).advance 2
  | .call addr, s => (s.pushed (s.pc + 3)).jump addr
  | .ret, s => s.popped.jump (s.mem.readWord s.sp.toNat)
  | .cmp, s => (s.setFlag s.compareFlag).advance 1
  | .xset imm16, s => (s.setX 0 imm16).advance 3
  | .reservedF9, s => s
  | .reservedFA _, s => s
  | .reservedFC _, s => s

theorem operandsInside_iff (s : State) (n : Nat) :
    s.operandsInside n = true ↔ s.pc.toNat + n < s.cfg.memSize := by simp [State.operandsInside]

theorem wordInside_iff (s : State) (a : Word) :
    s.wordInside a = true ↔ a.toNat + 1 < s.cfg.memSize := by simp [State.wordInside]

theorem pushFrom_room {s : State} (h : ¬ StackFull s) (r : RegIdx) :
    pushFrom r s = .next ((s.pushed (s.x r)).advance 1) := by
  simp [pushFrom, push_room h, Except.map]

theorem pushFrom_full {s : State} (h : StackFull s) (r : RegIdx) :
    pushFrom r s = .next (s.takeFault .stackOverflow) := by
  simp [pushFrom, push_full h, Except.map, raise]

theorem popInto_slot {s : State} (h : ¬ StackEmpty s) (r : RegIdx) :
    popInto r s = .next ((s.popped.setX r (s.mem.readWord s.sp.toNat)).advance 1) := by
  simp [popInto, pop_slot h, Except.map]

theorem popInto_empty {s : State} (h : StackEmpty s) (r : RegIdx) :
    popInto r s = .next (s.takeFault .stackUnderflow) := by
  simp [popInto, pop_empty h, Except.map, raise]

theorem execRet_slot {s : State} (h : ¬ StackEmpty s) :
    execRet s = .next (s.popped.jump (s.mem.readWord s.sp.toNat)) := by
  simp [execRet, pop_slot h, Except.map]

theorem execRet_empty {s : State} (h : StackEmpty s) :
    execRet s = .next (s.takeFault .stackUnderflow) := by
  simp [execRet, pop_empty h, Except.map, raise]

theorem execCall_room {s : State} (a : Word) (hp : s.pc.toNat + 2 < s.cfg.memSize)
    (h : ¬ StackFull s) : execCall a s = .next ((s.pushed (s.pc + 3)).jump a) := by
  simp [execCall, (operandsInside_iff s 2).2 hp, push_room h, Except.map]

theorem execCall_full {s : State} (a : Word) (hp : s.pc.toNat + 2 < s.cfg.memSize)
    (h : StackFull s) : execCall a s = .next (s.takeFault .stackOverflow) := by
  simp [execCall, (operandsInside_iff s 2).2 hp, push_full h, Except.map, raise]

theorem execCall_outside {s : State} (a : Word) (hp : s.cfg.memSize ≤ s.pc.toNat + 2) :
    execCall a s = .next (s.takeFault .endOfMemory) := by
  have : ¬ s.operandsInside 2 = true := by rw [operandsInside_iff]; omega
  simp [execCall, this, raise]

/-- Everything `exec` can do: the instruction's effect, or a fault taken. -/
theorem exec_cases (i : Instr) (s : State) :
    exec i s = .next (effect i s) ∨ ∃ f, exec i s = .next (s.takeFault f) := by
  cases i
  case pushReg n => by_cases h : StackFull s
                    · exact .inr ⟨_, pushFrom_full h n⟩
                    · exact .inl (pushFrom_room h n)
  case pushAcc => by_cases h : StackFull s
                  · exact .inr ⟨_, pushFrom_full h 0⟩
                  · exact .inl (pushFrom_room h 0)
  case popReg n => by_cases h : StackEmpty s
                   · exact .inr ⟨_, popInto_empty h n⟩
                   · exact .inl (popInto_slot h n)
  case popAcc => by_cases h : StackEmpty s
                 · exact .inr ⟨_, popInto_empty h 0⟩
                 · exact .inl (popInto_slot h 0)
  case ret => by_cases h : StackEmpty s
              · exact .inr ⟨_, execRet_empty h⟩
              · exact .inl (execRet_slot h)
  case call a =>
    by_cases hp : s.pc.toNat + 2 < s.cfg.memSize
    · by_cases h : StackFull s
      · exact .inr ⟨_, execCall_full a hp h⟩
      · exact .inl (execCall_room a hp h)
    · exact .inr ⟨_, execCall_outside a (by omega)⟩
  case store a => simp only [exec, execStore, effect, raise]; split <;> [split; skip] <;> simp
  case load a => simp only [exec, execLoad, effect, raise]; split <;> [split; skip] <;> simp
  case swap a b => simp only [exec, execSwap, effect, raise]; split <;> simp
  case xset w => simp only [exec, execXset, effect, raise]; split <;> simp
  case reservedF9 => exact .inr ⟨_, rfl⟩
  case reservedFA low => exact .inr ⟨_, rfl⟩
  case reservedFC low => exact .inr ⟨_, rfl⟩
  all_goals exact .inl rfl

/-- Inversion of `exec`. -/
theorem exec_inv {i : Instr} {s t : State} (h : exec i s = .next t) :
    t = effect i s ∨ ∃ f, t = s.takeFault f := by
  rcases exec_cases i s with e | ⟨f, e⟩ <;> rw [e] at h <;> injection h with h
  · exact .inl h.symm
  · exact .inr ⟨f, h.symm⟩

/-- An instruction that reports no fault has its effect. -/
theorem exec_of_completes {i : Instr} {s : State} (h : Completes i s) :
    exec i s = .next (effect i s) := by
  have hU := h .unknownExtendedOpcode
  have hE := h .endOfMemory
  have hB := h .boundsViolation
  have hO := h .stackOverflow
  have hS := h .stackUnderflow
  simp only [Reports, OperandOutside, BoundsViolated] at hU hE hB hO hS
  cases i <;> simp [isReserved, isPush, isPop, dataAddress, Instr.width] at hU hE hB hO hS
  case pushReg n => exact pushFrom_room (by simpa using hO) n
  case pushAcc => exact pushFrom_room (by simpa using hO) 0
  case popReg n => exact popInto_slot (by simpa using hS) n
  case popAcc => exact popInto_slot (by simpa using hS) 0
  case ret => exact execRet_slot (by simpa using hS)
  case call a => exact execCall_room a (by omega) (hO (by omega))
  case store a =>
    simp only [exec, execStore, effect]
    rw [if_pos ((operandsInside_iff _ _).2 (by omega)), if_pos ((wordInside_iff _ _).2 (by omega))]
  case load a =>
    simp only [exec, execLoad, effect]
    rw [if_pos ((operandsInside_iff _ _).2 (by omega)), if_pos ((wordInside_iff _ _).2 (by omega))]
  case swap a b =>
    simp only [exec, execSwap, effect]
    rw [if_pos ((operandsInside_iff _ _).2 (by omega))]
  case xset a =>
    simp only [exec, execXset, effect]
    rw [if_pos ((operandsInside_iff _ _).2 (by omega))]
  all_goals rfl

/-- An instruction that reports a fault takes it. -/
theorem exec_of_reports {i : Instr} {s : State} {f : Fault} (h : Reports i s f) :
    exec i s = .next (s.takeFault f) := by
  cases f <;> simp only [Reports, OperandOutside, BoundsViolated] at h <;>
  cases i <;> simp [isReserved, isPush, isPop, dataAddress, Instr.width] at h <;>
  first
  | rfl
  | exact pushFrom_full h _
  | exact popInto_empty h _
  | exact execRet_empty h
  | exact execCall_full _ (by omega) h.2
  | exact execCall_outside _ (by omega)
  | (simp only [exec, execStore, execLoad, execSwap, execXset]
     rw [if_neg (by rw [operandsInside_iff]; omega)]
     rfl)
  | (simp only [exec, execStore, execLoad]
     rw [if_pos ((operandsInside_iff _ _).2 (by omega)), if_neg (by rw [wordInside_iff]; omega)]
     rfl)

/-! ## The listed faults as a function -/

/-- Whether the data address of an instruction is out of bounds. -/
def boundsCheck (i : Instr) (s : State) : Bool :=
  match dataAddress i with
  | some addr => decide (addr.toNat + 1 ≥ s.cfg.memSize)
  | none => false

/-- The fault an instruction reports, if any: `Reports` as a function. -/
def reportedFault (i : Instr) (s : State) : Option Fault :=
  if isReserved i then some .unknownExtendedOpcode
  else if 1 < i.width ∧ s.pc.toNat + (i.width - 1) ≥ s.cfg.memSize then some .endOfMemory
  else if boundsCheck i s then some .boundsViolation
  else if isPush i && decide (s.sp.toNat < s.cfg.stackLimit + 2) then some .stackOverflow
  else if isPop i && decide (s.cfg.stackHead < s.sp.toNat + 2) then some .stackUnderflow
  else none

theorem boundsViolated_iff (i : Instr) (s : State) : BoundsViolated i s ↔ boundsCheck i s = true := by
  unfold BoundsViolated boundsCheck
  cases dataAddress i <;> simp

/-- No instruction both pushes and pops. -/
theorem isPop_of_isPush {i : Instr} (h : isPush i = true) : isPop i = false := by
  cases i <;> first | rfl | exact absurd h nofun

theorem reports_iff (i : Instr) (s : State) (f : Fault) :
    Reports i s f ↔ reportedFault i s = some f := by
  have hp := @isPop_of_isPush i
  unfold reportedFault
  cases f <;> simp only [Reports, boundsViolated_iff, stackFull_iff, stackEmpty_iff, OperandOutside] <;>
    cases isReserved i <;> cases boundsCheck i s <;> cases hi : isPush i <;> cases hj : isPop i <;>
    simp [hi, hj] at hp ⊢ <;> split <;> (try split) <;> simp_all

theorem completes_iff (i : Instr) (s : State) : Completes i s ↔ reportedFault i s = none := by
  unfold Completes
  simp only [reports_iff]
  cases reportedFault i s <;> simp

/-- Every instruction completes or reports a fault. -/
theorem completes_or_reports (i : Instr) (s : State) : Completes i s ∨ ∃ f, Reports i s f := by
  simp only [completes_iff, reports_iff]
  cases reportedFault i s <;> simp

/-- Whether an instruction completes depends on the configuration, PC and SP alone. -/
theorem completes_congr {i : Instr} {s t : State} (hc : t.cfg = s.cfg) (hp : t.pc = s.pc)
    (hs : t.sp = s.sp) : Completes i t ↔ Completes i s := by
  rw [completes_iff, completes_iff]
  unfold reportedFault boundsCheck
  rw [hc, hp, hs]

/-- An instruction that pushes and completes has room. -/
theorem not_stackFull_of_completes {i : Instr} {s : State} (h : Completes i s)
    (hp : isPush i = true) : ¬ StackFull s := fun hf => by
  have hU : isReserved i = false := by simpa [Reports] using h .unknownExtendedOpcode
  have hE : ¬ OperandOutside i s := by simpa [Reports, hU] using h .endOfMemory
  have hB : ¬ BoundsViolated i s := by simpa [Reports, hU, hE] using h .boundsViolation
  exact h .stackOverflow ⟨hU, hE, hB, hp, hf⟩

/-- An instruction that pops and completes finds a slot. -/
theorem not_stackEmpty_of_completes {i : Instr} {s : State} (h : Completes i s)
    (hp : isPop i = true) : ¬ StackEmpty s := fun he => by
  have hU : isReserved i = false := by simpa [Reports] using h .unknownExtendedOpcode
  have hE : ¬ OperandOutside i s := by simpa [Reports, hU] using h .endOfMemory
  have hB : ¬ BoundsViolated i s := by simpa [Reports, hU, hE] using h .boundsViolation
  exact h .stackUnderflow ⟨hU, hE, hB, hp, he⟩

/-- A push of a register, in either form, with room. -/
theorem exec_pushOf {i : Instr} {r : RegIdx} {s : State} (h : PushOf i r) (hr : ¬ StackFull s) :
    exec i s = .next ((s.pushed (s.x r)).advance 1) := by
  rcases h with rfl | ⟨rfl, rfl⟩ <;> exact pushFrom_room hr _

/-- A pop into a register, in either form, with a slot. -/
theorem exec_popOf {i : Instr} {r : RegIdx} {s : State} (h : PopOf i r) (hr : ¬ StackEmpty s) :
    exec i s = .next ((s.popped.setX r (s.mem.readWord s.sp.toNat)).advance 1) := by
  rcases h with rfl | ⟨rfl, rfl⟩ <;> exact popInto_slot hr _

/-! ## The Resolver -/

theorem resolveByte_getElem (m : Memory) (ls : Vector Word 16) (i : Nat) (l : LabelId) :
    (resolveByte m ls i)[l.val] =
      if baseOp (m.read i) = 0b111 ∧ (midField (m.read i)).toNat = l.val then BitVec.ofNat 16 (i + 1)
      else ls[l.val] := by
  unfold resolveByte
  by_cases h : baseOp (m.read i) = 0b111
  · rw [if_pos h, Vector.getElem_set]
    simp only [h, true_and]
  · rw [if_neg h, if_neg fun e => h e.1]

end Sys2Proof.Machine
end

