-- ==== Sys2Proof/Laws/PerInstr.lean ====
section
/-! SUPPORT. Statements about every instruction as syntax, one lemma per constructor. Family
`EncodeLength`: an instruction is encoded in as many bytes as R25's advance column gives it, and its
first byte alone tells that number (R95). -/

namespace Sys2Proof.Laws

/-- The encoding has the instruction's width, and the first byte of a well-formed one tells it
(R80, R95). -/
def EncodeLength.Statement (i : Instr) : Prop :=
  (encode i).length = i.width ∧ (i.wf = true → lengthOfOpcode ((encode i).getD 0 0) = i.width)

theorem EncodeLength.set (imm5 : BitVec 5) : EncodeLength.Statement (.set imm5) := by
  refine ⟨rfl, ?_⟩
  revert imm5
  decide

theorem EncodeLength.add (n : RegIdx) : EncodeLength.Statement (.add n) := by
  refine ⟨rfl, ?_⟩
  revert n
  decide

theorem EncodeLength.sub (n : RegIdx) : EncodeLength.Statement (.sub n) := by
  refine ⟨rfl, ?_⟩
  revert n
  decide

theorem EncodeLength.mul (n : RegIdx) : EncodeLength.Statement (.mul n) := by
  refine ⟨rfl, ?_⟩
  revert n
  decide

theorem EncodeLength.pushReg (n : RegIdx) : EncodeLength.Statement (.pushReg n) := by
  refine ⟨rfl, ?_⟩
  revert n
  decide

theorem EncodeLength.pushAcc : EncodeLength.Statement (.pushAcc) := ⟨rfl, fun _ => rfl⟩

theorem EncodeLength.popReg (n : RegIdx) : EncodeLength.Statement (.popReg n) := by
  refine ⟨rfl, ?_⟩
  revert n
  decide

theorem EncodeLength.popAcc : EncodeLength.Statement (.popAcc) := ⟨rfl, fun _ => rfl⟩

theorem EncodeLength.goto (l : LabelId) (c : Cond) : EncodeLength.Statement (.goto l c) := by
  cases c <;> refine ⟨rfl, ?_⟩ <;> revert l <;> decide

theorem EncodeLength.label (l : LabelId) : EncodeLength.Statement (.label l) := by
  refine ⟨rfl, ?_⟩
  revert l
  decide

theorem EncodeLength.noop : EncodeLength.Statement (.noop) := ⟨rfl, fun _ => rfl⟩

theorem EncodeLength.halt : EncodeLength.Statement (.halt) := ⟨rfl, fun _ => rfl⟩

theorem EncodeLength.store (addr : Word) : EncodeLength.Statement (.store addr) := by
  refine ⟨rfl, fun _ => ?_⟩
  show lengthOfOpcode (extByte 2) = 3
  decide

theorem EncodeLength.load (addr : Word) : EncodeLength.Statement (.load addr) := by
  refine ⟨rfl, fun _ => ?_⟩
  show lengthOfOpcode (extByte 3) = 3
  decide

theorem EncodeLength.swap (a b : RegIdx) : EncodeLength.Statement (.swap a b) := by
  refine ⟨rfl, fun _ => ?_⟩
  show lengthOfOpcode (extByte 4) = 2
  decide

theorem EncodeLength.call (addr : Word) : EncodeLength.Statement (.call addr) := by
  refine ⟨rfl, fun _ => ?_⟩
  show lengthOfOpcode (extByte 5) = 3
  decide

theorem EncodeLength.ret : EncodeLength.Statement (.ret) := ⟨rfl, fun _ => rfl⟩

theorem EncodeLength.cmp : EncodeLength.Statement (.cmp) := ⟨rfl, fun _ => rfl⟩

theorem EncodeLength.xset (imm16 : Word) : EncodeLength.Statement (.xset imm16) := by
  refine ⟨rfl, fun _ => ?_⟩
  show lengthOfOpcode (extByte 8) = 3
  decide

theorem EncodeLength.reservedF9 : EncodeLength.Statement (.reservedF9) := ⟨rfl, fun _ => rfl⟩

theorem EncodeLength.reservedFA (low : BitVec 1) : EncodeLength.Statement (.reservedFA low) := by
  refine ⟨rfl, ?_⟩
  revert low
  decide

theorem EncodeLength.reservedFC (low : BitVec 2) : EncodeLength.Statement (.reservedFC low) := by
  refine ⟨rfl, ?_⟩
  revert low
  decide

end Sys2Proof.Laws
end

