-- ==== Sys2Proof/Laws/Step.lean ====
section
/-! SUPPORT. What a step can do, said once: the input taken, the tick, each command. -/

namespace Sys2Proof.Machine

theorem step_nil {s : State} (h : s.inbox = []) : step s = tick s := by
  simp [step, serveInput, takeInput, h]

theorem step_ready {s : State} {c : Command} {rest : List Arrival} (h : s.inbox = ⟨0, c⟩ :: rest) :
    step s = runCommand c { s with inbox := rest } := by
  simp [step, serveInput, takeInput, h]

theorem step_waiting {s : State} {n : Nat} {c : Command} {rest : List Arrival}
    (h : s.inbox = ⟨n + 1, c⟩ :: rest) : step s = tick { s with inbox := ⟨n, c⟩ :: rest } := by
  simp [step, serveInput, takeInput, h]

/-- A step with no command ready is a tick, after which the first pending command waits one fewer. -/
theorem step_tick {s : State} (h : TickNext s) : step s = tick { s with inbox := waited s.inbox } := by
  rcases hi : s.inbox with _ | ⟨⟨n, c⟩, rest⟩
  · rw [step_nil hi]; simp [waited]; rw [← hi]
  · rcases n with _ | n
    · exact absurd ⟨rest, hi⟩ (h c)
    · rw [step_waiting hi]; rfl

/-- The next input of a state: a ready command or a tick. -/
theorem ready_or_tick (s : State) : (∃ c rest, s.inbox = ⟨0, c⟩ :: rest) ∨ TickNext s := by
  by_cases h : ∃ c, Ready c s
  · obtain ⟨c, rest, e⟩ := h; exact .inl ⟨c, rest, e⟩
  · exact .inr fun c hc => h ⟨c, hc⟩

/-- Everything the fetch-execute primitive can do. -/
theorem fetchExecute_cases (s : State) :
    (s.cfg.memSize ≤ s.pc.toNat ∧ fetchExecute s = .next (s.takeFault .endOfMemory)) ∨
    (s.pc.toNat < s.cfg.memSize ∧
      fetchExecute s = exec (decodeWindow (s.fetchByte 0) (s.fetchByte 1) (s.fetchByte 2)) s) := by
  unfold fetchExecute
  split
  · exact .inl ⟨‹_›, rfl⟩
  · exact .inr ⟨by omega, rfl⟩

/-- Inversion of the fetch-execute primitive: a fault taken, or the effect of the instruction at PC. -/
theorem fetchExecute_inv {s t : State} (h : fetchExecute s = .next t) :
    (∃ f, t = s.takeFault f) ∨
    (∃ i, exec i s = .next t ∧ t = effect i s ∧ s.pc.toNat < s.cfg.memSize) := by
  rcases fetchExecute_cases s with ⟨_, e⟩ | ⟨hp, e⟩ <;> rw [e] at h
  · injection h with h
    exact .inl ⟨_, h.symm⟩
  · rcases exec_inv h with h' | ⟨f, h'⟩
    · exact .inr ⟨_, h, h', hp⟩
    · exact .inl ⟨f, h'⟩

/-- With PC in memory, fetch-execute is the meaning of the instruction that the bytes at PC decode to. -/
theorem fetchExecute_of_decode {s : State} {i : Instr} {rest : List Byte}
    (hp : s.pc.toNat < s.cfg.memSize) (h : decode s.fetchWindow = .ok (i, rest)) :
    fetchExecute s = exec i s := by
  have := lengthOfOpcode_le (s.fetchByte 0)
  rw [State.fetchWindow, decode_cons (by simp; omega)] at h
  injection h with h
  injection h with h _
  rcases fetchExecute_cases s with ⟨h', _⟩ | ⟨_, e⟩
  · omega
  · rw [e, ← h]; rfl

/-- The effect of an instruction other than HALT keeps STATUS and emits nothing. -/
theorem effect_runKept {i : Instr} (h : i ≠ .halt) (s : State) : RunKept s (effect i s) := by
  cases i
  case halt => exact absurd rfl h
  case goto l c => simp only [effect]; split <;> exact ⟨rfl, rfl⟩
  all_goals exact ⟨rfl, rfl⟩

/-- No instruction writes the tables of `TablesKept`. -/
theorem effect_tablesKept (i : Instr) (s : State) : TablesKept s (effect i s) := by
  cases i
  case goto l c => simp only [effect]; split <;> exact ⟨rfl, fun _ => rfl, rfl, rfl⟩
  all_goals exact ⟨rfl, fun _ => rfl, rfl, rfl⟩

/-- The fetch-execute primitive always has a next state. -/
theorem fetchExecute_next (s : State) : ∃ t, fetchExecute s = .next t := by
  rcases fetchExecute_cases s with ⟨_, h⟩ | ⟨_, h⟩
  · exact ⟨_, h⟩
  · rw [h]
    rcases exec_cases (decodeWindow (s.fetchByte 0) (s.fetchByte 1) (s.fetchByte 2)) s with e | ⟨f, e⟩
    · exact ⟨_, e⟩
    · exact ⟨_, e⟩

/-- Inversion of a step: one command, or one tick. -/
theorem step_inv {s t : State} (h : step s = .next t) :
    (∃ c rest, s.inbox = ⟨0, c⟩ :: rest ∧ runCommand c { s with inbox := rest } = .next t) ∨
    (TickNext s ∧ tick { s with inbox := waited s.inbox } = .next t) := by
  rcases ready_or_tick s with ⟨c, rest, hr⟩ | ht
  · rw [step_ready hr] at h; exact .inl ⟨c, rest, hr, h⟩
  · rw [step_tick ht] at h; exact .inr ⟨ht, h⟩

/-- Everything a tick can do. -/
theorem tick_cases (s : State) :
    (s.status ≠ .running ∧ tick s = .next s) ∨
    (s.status = .running ∧ s.progLen.toNat ≤ s.pc.toNat ∧
      tick s = .next ((s.setStatus .halted).emit .completed)) ∨
    (s.status = .running ∧ s.pc.toNat < s.progLen.toNat ∧ tick s = fetchExecute s) := by
  unfold tick
  cases hs : s.status
  case running =>
    by_cases h : s.progLen.toNat ≤ s.pc.toNat
    · exact .inr (.inl ⟨rfl, h, if_pos h⟩)
    · exact .inr (.inr ⟨rfl, by omega, if_neg h⟩)
  all_goals exact .inl ⟨nofun, rfl⟩

/-- Everything the `step` command can do. -/
theorem commandStep_cases (s : State) :
    (s.status = .halted ∧ commandStep s = .next (s.emit (.diagnostic .machineHalted))) ∨
    (s.status ≠ .halted ∧ s.present = false ∧
      commandStep s = .next (s.emit (.diagnostic .noProgram))) ∨
    (s.status ≠ .halted ∧ s.present = true ∧ s.cfg.memSize ≤ s.pc.toNat ∧
      commandStep s = .next (s.emit (.diagnostic .endOfMemory))) ∨
    (s.status ≠ .halted ∧ s.present = true ∧ s.pc.toNat < s.cfg.memSize ∧
      ∀ t, fetchExecute s = .next t → commandStep s = .next (afterStep t)) := by
  by_cases hs : s.status = .halted
  · exact .inl ⟨hs, by simp [commandStep, hs, diagnose]⟩
  · have e : commandStep s = if s.present then
        if s.cfg.memSize ≤ s.pc.toNat then diagnose .endOfMemory s else stepFetched s
        else diagnose .noProgram s := by
      unfold commandStep
      cases h : s.status <;> first | rfl | exact absurd h hs
    by_cases hp : s.present = true
    · by_cases hm : s.cfg.memSize ≤ s.pc.toNat
      · exact .inr (.inr (.inl ⟨hs, hp, hm, by simp [e, hp, hm, diagnose]⟩))
      · exact .inr (.inr (.inr ⟨hs, hp, by omega, fun t ht => by simp [e, hp, hm, stepFetched, ht]⟩))
    · exact .inr (.inl ⟨hs, by simpa using hp, by simp [e, hp, diagnose]⟩)

/-- Everything the `run` command can do. -/
theorem commandRun_cases (s : State) :
    (s.status = .running ∧ commandRun s = .next s) ∨
    (s.status = .halted ∧ commandRun s = .next (s.emit (.diagnostic .machineHalted))) ∨
    (s.status ≠ .running ∧ s.status ≠ .halted ∧ s.present = false ∧
      commandRun s = .next (s.emit (.diagnostic .noProgram))) ∨
    (s.status ≠ .running ∧ s.status ≠ .halted ∧ s.present = true ∧
      commandRun s = .next (s.setStatus .running)) := by
  unfold commandRun diagnose
  cases hs : s.status <;> cases hp : s.present <;> simp

/-- Everything the `pause` command can do. -/
theorem commandPause_cases (s : State) :
    (s.status = .running ∧ commandPause s = .next ((s.setStatus .paused).emit .paused)) ∨
    (s.status ≠ .running ∧ commandPause s = .next s) := by
  unfold commandPause
  cases hs : s.status <;> simp

/-- What `step` adds after its instruction. -/
theorem afterStep_cases (t : State) :
    (t.status = .halted ∧ afterStep t = t) ∨
    (t.status ≠ .halted ∧ afterStep t = (t.setStatus .paused).emit .stepped) := by
  unfold afterStep
  cases h : t.status <;> simp

/-- Inversion of a command that is neither `reset` nor `load`: it keeps the core, or it is a `step`
that executed one instruction. -/
theorem runCommand_inv {c : Command} {s t : State} (h : runCommand c s = .next t)
    (hr : c ≠ .reset) (hl : ∀ bytes, c ≠ .load bytes) :
    (CoreKept s t ∧ t.inbox = s.inbox) ∨
    (c = .step ∧ s.status ≠ .halted ∧ s.present = true ∧ s.pc.toNat < s.cfg.memSize ∧
      ∃ u, fetchExecute s = .next u ∧ t = afterStep u) := by
  have kept : ∀ (v : Status) (es : List Event), CoreKept s { s with status := v, events := es } :=
    fun _ _ => ⟨fun _ _ => rfl, rfl, rfl, rfl, fun _ => rfl, fun _ => rfl, rfl, rfl⟩
  cases c with
  | reset => exact absurd rfl hr
  | load bytes => exact absurd rfl (hl bytes)
  | halt => cases h; exact .inl ⟨kept _ _, rfl⟩
  | pause =>
    rcases commandPause_cases s with ⟨_, e⟩ | ⟨_, e⟩ <;> rw [runCommand, e] at h <;>
      injection h with h <;> subst h <;> exact .inl ⟨kept _ _, rfl⟩
  | run =>
    rcases commandRun_cases s with ⟨_, e⟩ | ⟨_, e⟩ | ⟨_, _, _, e⟩ | ⟨_, _, _, e⟩ <;>
      rw [runCommand, e] at h <;> injection h with h <;> subst h <;> exact .inl ⟨kept _ _, rfl⟩
  | step =>
    rcases commandStep_cases s with ⟨_, e⟩ | ⟨_, _, e⟩ | ⟨_, _, _, e⟩ | ⟨hs, hp, hm, e⟩
    · rw [runCommand, e] at h; injection h with h; subst h; exact .inl ⟨kept _ _, rfl⟩
    · rw [runCommand, e] at h; injection h with h; subst h; exact .inl ⟨kept _ _, rfl⟩
    · rw [runCommand, e] at h; injection h with h; subst h; exact .inl ⟨kept _ _, rfl⟩
    · obtain ⟨u, hu⟩ := fetchExecute_next s
      rw [runCommand, e u hu] at h
      injection h with h
      exact .inr ⟨rfl, hs, hp, hm, u, hu, h.symm⟩

theorem present_iff (s : State) : s.present = true ↔ s.mem.read 0 ≠ 0 ∨ s.mem.read 1 ≠ 0 := by
  simp [State.present]

end Sys2Proof.Machine
end

