-- ==== Sys2Proof/Tests/Slice0.lean ====
section
/-! SUPPORT. Small tests, with expected values from spec/95_test_vectors.md (the vector's id stands in
the comment), and a witness for the hypotheses of every statement that has some. -/

namespace Sys2Proof.Tests

open Sys2Proof.Machine

/-! ## WellFormed refuses each ill-formed term -/

theorem test_wf_add_zero_refused : (Instr.add 0).wf = false := by decide
theorem test_wf_sub_zero_refused : (Instr.sub 0).wf = false := by decide
theorem test_wf_mul_zero_refused : (Instr.mul 0).wf = false := by decide
theorem test_wf_pushReg_zero_refused : (Instr.pushReg 0).wf = false := by decide
theorem test_wf_popReg_zero_refused : (Instr.popReg 0).wf = false := by decide
theorem test_wf_label_eight_refused : (Instr.label 8).wf = false := by decide
theorem test_wf_swap_left_sixteen_refused : (Instr.swap 16 0).wf = false := by decide
theorem test_wf_swap_right_sixteen_refused : (Instr.swap 0 16).wf = false := by decide
theorem test_wf_config_refused :
    (Config.wf { memSize := 1, stackHead := 0, stackSlots := 0 }) = false ∧
    (Config.wf { memSize := 65536, stackHead := 0, stackSlots := 0 }) = false ∧
    (Config.wf { memSize := 16, stackHead := 17, stackSlots := 0 }) = false ∧
    (Config.wf { memSize := 16, stackHead := 15, stackSlots := 8 }) = false := by decide

/-! ## Decoding: words written out from the formats of spec/30_encoding.md, lowest and highest -/

/-- R82: 000iiiii. -/
theorem test_decode_set : decode [0b00000000] = .ok (.set 0, []) ∧
    decode [0b00011111] = .ok (.set 31, []) := by decide
/-- R83: 001rrrrx, register rf + 1. -/
theorem test_decode_add : decode [0b00100000] = .ok (.add 1, []) ∧
    decode [0b00111111] = .ok (.add 16, []) := by decide
/-- R83: 010rrrrx. -/
theorem test_decode_sub : decode [0b01000000] = .ok (.sub 1, []) ∧
    decode [0b01011110] = .ok (.sub 16, []) := by decide
/-- R83: 011rrrrx. -/
theorem test_decode_mul : decode [0b01100010] = .ok (.mul 2, []) ∧
    decode [0b01111111] = .ok (.mul 16, []) := by decide
/-- R85: 100rrrr0 and 100xxxx1. -/
theorem test_decode_push : decode [0b10000000] = .ok (.pushReg 1, []) ∧
    decode [0b10000001] = .ok (.pushAcc, []) ∧ decode [0b10011110] = .ok (.pushReg 16, []) ∧
    decode [0b10011111] = .ok (.pushAcc, []) := by decide
/-- R85: 101rrrr0 and 101xxxx1. -/
theorem test_decode_pop : decode [0b10100010] = .ok (.popReg 2, []) ∧
    decode [0b10100001] = .ok (.popAcc, []) ∧ decode [0b10111110] = .ok (.popReg 16, []) ∧
    decode [0b10111111] = .ok (.popAcc, []) := by decide
/-- R86: 110llllc. -/
theorem test_decode_goto : decode [0b11000000] = .ok (.goto 0 .z, []) ∧
    decode [0b11000101] = .ok (.goto 2 .nz, []) ∧
    decode [0b11011111] = .ok (.goto 15 .nz, []) := by decide
/-- R87: 1110lllx. -/
theorem test_decode_label : decode [0b11100000] = .ok (.label 0, []) ∧
    decode [0b11101111] = .ok (.label 7, []) := by decide
/-- R89: F0, F1, F6, F7. -/
theorem test_decode_bare : decode [0xF0] = .ok (.noop, []) ∧ decode [0xF1] = .ok (.halt, []) ∧
    decode [0xF6] = .ok (.ret, []) ∧ decode [0xF7] = .ok (.cmp, []) := by decide
/-- R90: the operand is big-endian. -/
theorem test_decode_word_operands : decode [0xF2, 0x01, 0x80, 0x55] = .ok (.store 0x0180, [0x55]) ∧
    decode [0xF3, 0xFF, 0xFF] = .ok (.load 0xFFFF, []) ∧
    decode [0xF5, 0x00, 0x0A] = .ok (.call 0x000A, []) ∧
    decode [0xF8, 0x12, 0x34] = .ok (.xset 0x1234, []) := by decide
/-- R91: aaaabbbb. -/
theorem test_decode_swap : decode [0xF4, 0b11101111] = .ok (.swap 14 15, []) ∧
    decode [0xF4, 0b00100000] = .ok (.swap 2 0, []) := by decide
/-- R96: F9..FF. -/
theorem test_decode_reserved : decode [0xF9] = .ok (.reservedF9, []) ∧
    decode [0xFA] = .ok (.reservedFA 0, []) ∧ decode [0xFB] = .ok (.reservedFA 1, []) ∧
    decode [0xFC] = .ok (.reservedFC 0, []) ∧ decode [0xFF] = .ok (.reservedFC 3, []) := by decide
/-- A sequence that ends early is rejected by name. -/
theorem test_decode_short : decode [] = .error .noOpcodeByte ∧
    decode [0xF4] = .error .operandBytesMissing ∧
    decode [0xF8, 0x12] = .error .operandBytesMissing := by decide
/-- The table's numbering: the first byte is bits 7..0, the next bits 15..8. -/
theorem test_decode_table_word : decodeTableWord 8 0x22 = some (.add 2) ∧
    decodeTableWord 24 0x3412F8 = some (.xset 0x1234) ∧ decodeTableWord 8 0xF8 = some (.xset 0) ∧
    decodeTableWord 16 0xEFF4 = some (.swap 14 15) := by decide

/-! ## The encoder (TK1 to TK10) -/

theorem test_encoder_values : encodeMnemonic "set_31" = .ok 0x1F ∧ encodeMnemonic "add_16" = .ok 0x3E ∧
    encodeMnemonic "sub_3" = .ok 0x44 ∧ encodeMnemonic "mul_2" = .ok 0x62 ∧
    encodeMnemonic "push_0" = .ok 0x81 ∧ encodeMnemonic "push_16" = .ok 0x9E ∧
    encodeMnemonic "pop_0" = .ok 0xA1 ∧ encodeMnemonic "pop_3" = .ok 0xA4 ∧
    encodeMnemonic "goto_7_1" = .ok 0xCF ∧ encodeMnemonic "label_8" = .ok 0xF0 := by decide
theorem test_encoder_unrecognized : encodeMnemonic "halt" = .ok 0 ∧ encodeMnemonic "xset_5" = .ok 0 ∧
    encodeMnemonic "foo_1" = .ok 0 := by decide
theorem test_encoder_refuses : encodeMnemonic "goto_5" = .error .operandsMalformed ∧
    encodeMnemonic "set_" = .error .operandsMalformed ∧ encodeMnemonic "add_x" = .error .operandsMalformed ∧
    encodeMnemonic "set_32" = .error .operandOutOfRange ∧
    encodeMnemonic "add_0" = .error .operandOutOfRange ∧
    encodeMnemonic "add_17" = .error .operandOutOfRange ∧
    encodeMnemonic "goto_0_2" = .error .operandOutOfRange ∧
    encodeMnemonic "label_16" = .error .operandOutOfRange := by decide
/-- V2, first six mnemonics. -/
theorem test_assemble : assemble ["set_0", "push_0", "pop_1", "set_10", "push_0", "pop_2"] =
    .ok [0x00, 0x81, 0xA0, 0x0A, 0x81, 0xA2] := by decide
theorem test_listing : (Instr.swap 0 2).listing = "SWAP R0,R2" ∧ Instr.pushAcc.listing = "PUSH R0" ∧
    (Instr.goto 0 .nz).listing = "GOTO 0,NZ" ∧ (Instr.store 0x0080).listing = "STORE 0x0080" ∧
    (Instr.reservedFC 3).listing = "reserved 0xFF" := by decide

/-! ## One step each -/

/-- The next state of an outcome. -/
def nextOf : Host.Outcome State Fault Refusal → Option State
  | .next t => some t
  | .fault _ => none
  | .refused _ => none

/-- Configuration T, Running, the bytes at `pc`, PROGLEN 256, everything else as reset: the state that
section 2 of the vectors starts from. -/
def box (pc : Nat) (bytes : List Byte) : State :=
  { State.reset with
    pc := BitVec.ofNat 16 pc, mem := Memory.copyIn [] pc bytes, progLen := 256, status := .running }

/-- The box with SP and its topmost slot set. -/
def stackBox (pc : Nat) (bytes : List Byte) (sp : Nat) (slot : Word) : State :=
  let s := box pc bytes
  { s with sp := BitVec.ofNat 16 sp, mem := s.mem.writeWord sp slot }

/-- The box with the command input set. -/
def cmdBox (v : Status) (bytes : List Byte) (c : Command) : State :=
  { box 0 bytes with status := v, inbox := [⟨0, c⟩] }

/-- One step, read through `f`. -/
def after {α : Type} (s : State) (f : State → α) : Option α := (nextOf (step s)).map f

/-- What a fault shows: PC, STATUS, events, R0, SP, and whether memory is as it was. -/
def faultView (s : State) : Option (Word × Status × List Event × Word × Word × Bool) :=
  after s fun t => (t.pc, t.status, t.events, t.x 0, t.sp, t.mem == s.mem)

/-- TA1. -/
theorem test_set : after ((box 0x10 [0x0A]).setX 0 0xFFFF) (fun t => (t.x 0, t.pc)) =
    some (0x000A, 0x11) := by decide
/-- TB2. -/
theorem test_add_wraps : after (((box 0x10 [0x20]).setX 0 0xFFFF).setX 1 1) (fun t => (t.x 0, t.pc)) =
    some (0, 0x11) := by decide
/-- TB3, TB4. -/
theorem test_add_r16_and_bit0 :
    after (((box 0x10 [0x3E]).setX 0 0x8000).setX 16 0x8000) (fun t => t.x 0) = some 0 ∧
    after (((box 0x10 [0x23]).setX 0 3).setX 2 4) (fun t => t.x 0) = some 7 := by decide
/-- TB6. -/
theorem test_sub_accumulator_is_minuend :
    after (((box 0x10 [0x42]).setX 0 2).setX 2 11) (fun t => (t.x 0, t.x 2, t.pc)) =
      some (0xFFF7, 11, 0x11) := by decide
/-- TB9, TB12. -/
theorem test_mul_low_half :
    after (((box 0x10 [0x62]).setX 0 10).setX 2 10) (fun t => (t.x 0, t.pc)) = some (0x64, 0x11) ∧
    after (((box 0x10 [0x60]).setX 0 0xFFFF).setX 1 2) (fun t => t.x 0) = some 0xFFFE := by decide
/-- TC3. -/
theorem test_push_register : after ((stackBox 0x10 [0x9E] 200 0).setX 16 0xBEEF)
    (fun t => (t.sp, t.mem.read 198, t.mem.read 199, t.pc)) = some (198, 0xBE, 0xEF, 0x11) := by decide
/-- TC4. -/
theorem test_push_acc_ignores_field :
    after (((stackBox 0x10 [0x9F] 200 0).setX 16 0xBEEF).setX 0 0x00AA)
      (fun t => (t.sp, t.mem.read 198, t.mem.read 199, t.pc)) = some (198, 0x00, 0xAA, 0x11) := by decide
/-- TC5. -/
theorem test_push_overflow : faultView ((stackBox 0x10 [0x81] 192 0).setX 0 1) =
    some (0x10, .halted, [.faulted .stackOverflow], 1, 192, true) := by decide
/-- TC8. -/
theorem test_pop_register : after (stackBox 0x10 [0xBE] 252 0x1234) (fun t => (t.x 16, t.sp, t.pc)) =
    some (0x1234, 254, 0x11) := by decide
/-- TC7. -/
theorem test_pop_acc : after (stackBox 0x10 [0xA1] 254 0xABCD)
    (fun t => (t.x 0, t.sp, t.mem.read 254)) = some (0xABCD, 256, 0xAB) := by decide
/-- TC9. -/
theorem test_pop_underflow : faultView (box 0x10 [0xA0]) =
    some (0x10, .halted, [.faulted .stackUnderflow], 0, 256, true) := by decide
/-- TD1, TD2. -/
theorem test_goto_nz :
    after ({ box 0x10 [0xC1] with labels := Vector.replicate 16 10 }.setX 0 0xFFF7) (fun t => t.pc) =
      some 0x0A ∧
    after { box 0x10 [0xC1] with labels := Vector.replicate 16 10 } (fun t => t.pc) = some 0x11 := by
  decide
/-- TD3, TD4: the condition is on R0, whatever FLAG is. -/
theorem test_goto_z :
    after { box 0x10 [0xC0] with labels := Vector.replicate 16 10 } (fun t => t.pc) = some 0x0A ∧
    after (({ box 0x10 [0xC0] with labels := Vector.replicate 16 10 }.setX 0 5).setFlag true)
      (fun t => t.pc) = some 0x11 := by decide
/-- TD8. -/
theorem test_label : after (box 0x10 [0xEF]) (fun t => (t.pc, t.labels == Vector.replicate 16 0)) =
    some (0x11, true) := by decide
/-- TE2. -/
theorem test_noop_last_byte : after (box 0xFF [0xF0]) (fun t => (t.pc, t.status)) =
    some (0x100, .running) := by decide
/-- TE3. -/
theorem test_halt : after (box 0x10 [0xF1]) (fun t => (t.pc, t.status, t.events)) =
    some (0x11, .halted, [.halted]) := by decide
/-- TF2. -/
theorem test_store_last_word : after ((box 0x10 [0xF2, 0x00, 0xFE]).setX 0 0xA55A)
    (fun t => (t.mem.read 0xFE, t.mem.read 0xFF, t.pc)) = some (0xA5, 0x5A, 0x13) := by decide
/-- TF3. -/
theorem test_store_bounds : faultView ((box 0x10 [0xF2, 0x00, 0xFF]).setX 0 0xA55A) =
    some (0x10, .halted, [.faulted .boundsViolation], 0xA55A, 256, true) := by decide
/-- TF6. -/
theorem test_load_own_bytes : after (box 0x10 [0xF3, 0x00, 0x10]) (fun t => (t.x 0, t.pc)) =
    some (0xF300, 0x13) := by decide
/-- TF8. -/
theorem test_load_bounds : faultView ((box 0x10 [0xF3, 0xFF, 0xFF]).setX 0 0x7777) =
    some (0x10, .halted, [.faulted .boundsViolation], 0x7777, 256, true) := by decide
/-- TG4, TG3. -/
theorem test_swap :
    after (((box 0x10 [0xF4, 0xEF]).setX 14 0xE).setX 15 0xF) (fun t => (t.x 14, t.x 15, t.pc)) =
      some (0xF, 0xE, 0x12) ∧
    after ((box 0x10 [0xF4, 0x33]).setX 3 7) (fun t => (t.x 3, t.pc)) = some (7, 0x12) := by decide
/-- TG5. -/
theorem test_swap_end_of_memory : faultView ((box 0xFF [0xF4]).setX 0 7) =
    some (0xFF, .halted, [.faulted .endOfMemory], 7, 256, true) := by decide
/-- TH2. -/
theorem test_call : after (stackBox 0x10 [0xF5, 0xFF, 0x00] 194 0)
    (fun t => (t.pc, t.sp, t.mem.read 192, t.mem.read 193)) = some (0xFF00, 192, 0x00, 0x13) := by decide
/-- TH3. -/
theorem test_call_overflow : faultView (stackBox 0x10 [0xF5, 0x00, 0x40] 192 0) =
    some (0x10, .halted, [.faulted .stackOverflow], 0, 192, true) := by decide
/-- TH4. -/
theorem test_ret : after (stackBox 0x1B [0xF6] 254 0x0006) (fun t => (t.pc, t.sp)) =
    some (0x0006, 256) := by decide
/-- TH5. -/
theorem test_ret_underflow : faultView (box 0x10 [0xF6]) =
    some (0x10, .halted, [.faulted .stackUnderflow], 0, 256, true) := by decide
/-- TI1, TI2. -/
theorem test_cmp :
    after (((box 0x10 [0xF7]).setX 0 0x1234).setX 1 0x1234) (fun t => (t.flag, t.pc)) =
      some (true, 0x11) ∧
    after ((((box 0x10 [0xF7]).setX 0 0x1234).setX 1 0x1235).setFlag true) (fun t => t.flag) =
      some false := by decide
/-- TI4. -/
theorem test_xset : after (box 0 [0xF8, 0x12, 0x34]) (fun t => (t.x 0, t.pc)) = some (0x1234, 3) := by
  decide
/-- TI6. -/
theorem test_xset_end_of_memory : faultView ((box 0xFE [0xF8, 0x12]).setX 0 7) =
    some (0xFE, .halted, [.faulted .endOfMemory], 7, 256, true) := by decide
/-- TJ1. -/
theorem test_reserved_f9 : faultView (box 0x10 [0xF9]) =
    some (0x10, .halted, [.faulted .unknownExtendedOpcode], 0, 256, true) := by decide
/-- R96, a byte of the middle row. -/
theorem test_reserved_fb : faultView (box 0x10 [0xFB]) =
    some (0x10, .halted, [.faulted .unknownExtendedOpcode], 0, 256, true) := by decide
/-- TJ2. -/
theorem test_reserved_ff : faultView ((box 0x10 [0xFF]).setX 0 5) =
    some (0x10, .halted, [.faulted .unknownExtendedOpcode], 5, 256, true) := by decide

/-! ## Commands and ticks -/

/-- TL4: the Resolver looks at bytes, not at instructions. -/
theorem test_load_resolves : after (cmdBox .running [] (.load [0xF8, 0xE0, 0x00, 0xC1, 0xF1]))
    (fun t => (t.labelAt 0, t.labelAt 8, t.labelAt 12, t.labelAt 1, t.progLen, t.status)) =
    some (2, 5, 1, 0, 5, .loaded) := by decide
/-- TL2, TL3. -/
theorem test_load_later_definition_wins :
    after (cmdBox .halted [] (.load [0xE0, 0xE0, 0x01])) (fun t => t.labelAt 0) = some 2 ∧
    after (cmdBox .idle [] (.load [0xC1, 0x01, 0xE0])) (fun t => t.labelAt 0) = some 3 := by decide
/-- TS1. -/
theorem test_reset_command : after (cmdBox .halted [0x01] .reset)
    (fun t => (t.status, t.sp, t.mem, t.progLen)) = some (.idle, 256, [], 0) := by decide
/-- TS2, TS6, TS8d. -/
theorem test_run_command :
    after (cmdBox .idle [] .run) (fun t => (t.status, t.events)) =
      some (.idle, [.diagnostic .noProgram]) ∧
    after (cmdBox .paused [0x01] .run) (fun t => (t.status, t.events, t.pc)) = some (.running, [], 0) ∧
    after (cmdBox .halted [0x01] .run) (fun t => (t.status, t.events)) =
      some (.halted, [.diagnostic .machineHalted]) := by decide
/-- TS5, TS9. -/
theorem test_step_command :
    after (cmdBox .loaded [0x01] .step) (fun t => (t.status, t.events, t.pc, t.x 0)) =
      some (.paused, [.stepped], 1, 1) ∧
    after { cmdBox .paused [0xF0] .step with pc := 256 } (fun t => (t.status, t.events, t.pc)) =
      some (.paused, [.diagnostic .endOfMemory], 256) := by decide
/-- TS8, TS8e, TS8g. -/
theorem test_pause_and_halt_commands :
    after (cmdBox .running [0x01] .pause) (fun t => (t.status, t.events)) = some (.paused, [.paused]) ∧
    after (cmdBox .halted [0x01] .pause) (fun t => (t.status, t.events)) = some (.halted, []) ∧
    after (cmdBox .loaded [0x01] .halt) (fun t => (t.status, t.events, t.pc)) =
      some (.halted, [.halted], 0) := by decide
/-- TS8c: the run ends when PC reaches PROGLEN, before any fetch; TS8: a tick outside Running. -/
theorem test_tick_end_of_program_and_idle :
    after { box 23 [0xF1] with progLen := 23 } (fun t => (t.status, t.events, t.pc)) =
      some (.halted, [.completed], 23) ∧
    after { box 0 [0x01] with status := .paused } (fun t => (t.pc, t.status)) = some (0, .paused) := by
  decide
/-- A command that waits lets a tick pass, and is then ready (log 3). -/
theorem test_waiting_command : after { box 0 [0x01] with inbox := [⟨1, .halt⟩] }
    (fun t => (t.pc, t.inbox)) = some (1, [⟨0, .halt⟩]) := by decide

/-! ## Witnesses: concrete inputs that meet the hypotheses of each statement, clause by clause, at the
ends of their ranges -/

/-- No command is ready in a box. -/
theorem tickNext_of_nil {s : State} (h : s.inbox = []) : TickNext s := by
  rintro c ⟨rest, e⟩
  rw [h] at e
  cases e

theorem box_tickNext (pc : Nat) (bytes : List Byte) : TickNext (box pc bytes) := tickNext_of_nil rfl

theorem box_noReload (pc : Nat) (bytes : List Byte) : NoReload (box pc bytes) :=
  ⟨box_tickNext pc bytes _, fun _ => box_tickNext pc bytes _⟩

/-- A state in the middle of a run meets the invariant. -/
theorem box_inv : Inv (box 0x10 [0x81]) where
  cfgOk := by decide
  memCanonical := by decide
  memInside := by decide
  spLow := by decide
  spHigh := by decide
  spEven := by decide
  progLenInside := by decide
  labelsInside := by decide
  fresh := fun h => h.elim nofun nofun
  idleEmpty := nofun

/-- The box with `run` ready in Paused meets the invariant. -/
theorem cmdBox_inv : Inv (cmdBox .paused [0x01] .run) where
  cfgOk := by decide
  memCanonical := by decide
  memInside := by decide
  spLow := by decide
  spHigh := by decide
  spEven := by decide
  progLenInside := by decide
  labelsInside := by decide
  fresh := fun h => h.elim nofun nofun
  idleEmpty := nofun

theorem witness_DecodeInvertsEncode : (Instr.add 1).wf = true ∧ (Instr.popReg 16).wf = true ∧
    (Instr.label 7).wf = true ∧ (Instr.swap 0 15).wf = true ∧ (Instr.reservedFC 3).wf = true := by decide

theorem witness_DecodeYieldsWellFormed :
    decode [0xFF] = .ok (.reservedFC 3, []) ∧
    decode [0xF8, 0xFF, 0xFF, 0x00] = .ok (.xset 0xFFFF, [0x00]) := by decide

theorem witness_OpcodeByteAloneTellsLength : (0xEF : Byte).toNat / 16 ≠ 15 ∧
    (0xF2 : Byte).toNat ∈ [0xF2, 0xF3, 0xF5, 0xF8] ∧ (0xF9 : Byte).toNat ∉ [0xF2, 0xF3, 0xF4, 0xF5, 0xF8] ∧
    lengthOfOpcode 0xF4 ≤ [(0xF4 : Byte), 0].length := by decide

theorem witness_OpcodeMapOfEveryByte :
    (1 : RegIdx).val = (0x20 : Byte).toNat / 2 % 16 + 1 ∧
    (16 : RegIdx).val = (0x3F : Byte).toNat / 2 % 16 + 1 ∧
    (16 : RegIdx).val = (0x5F : Byte).toNat / 2 % 16 + 1 ∧
    (1 : RegIdx).val = (0x60 : Byte).toNat / 2 % 16 + 1 ∧
    (16 : RegIdx).val = (0x9E : Byte).toNat / 2 % 16 + 1 ∧ (0x9E : Byte).toNat % 2 = 0 ∧
    (1 : RegIdx).val = (0xA0 : Byte).toNat / 2 % 16 + 1 ∧ (0xA0 : Byte).toNat % 2 = 0 ∧
    (0x9F : Byte).toNat % 2 = 1 ∧ (0xBF : Byte).toNat % 2 = 1 ∧
    (15 : LabelId).val = (0xDF : Byte).toNat / 2 % 16 ∧ (0 : LabelId).val = (0xC0 : Byte).toNat / 2 % 16 ∧
    (7 : LabelId).val = (0xEF : Byte).toNat / 2 % 16 ∧ (0xFFFF : Word).toNat = 256 * 0xFF + 0xFF ∧
    (15 : RegIdx).val = (0xF0 : Byte).toNat / 16 ∧ (0 : RegIdx).val = (0xF0 : Byte).toNat % 16 ∧
    0xF9 ≤ (0xFF : Byte).toNat ∧ (0xF8 : Byte).toNat < 0xF9 := by decide

theorem witness_IgnoredBitsDoNotMatter :
    (0x20 : Byte).toNat / 2 = (0x21 : Byte).toNat / 2 ∧ (0xEE : Byte).toNat / 2 = (0xEF : Byte).toNat / 2 ∧
    (0x9F : Byte).toNat % 2 = 1 ∧ (0xBF : Byte).toNat % 2 = 1 ∧
    encodeMnemonic "mul_16" = .ok 0x7E ∧ encodeMnemonic "label_7" = .ok 0xEE ∧
    encodeMnemonic "push_0" = .ok 0x81 ∧ encodeMnemonic "pop_0" = .ok 0xA1 := by decide

theorem witness_EncoderGivesTheStatedBytes :
    (31 ≤ 31) ∧ (1 ≤ 16 ∧ 16 ≤ 16) ∧ (15 ≤ 15 ∧ 1 ≤ 1) := by decide

/-- Clause by clause: a name that is none of the eight, the first operand past each range, an operand
missing, one too many, an empty one and one that is no numeral. -/
theorem witness_EncoderOutsideItsTable :
    '_' ∉ "xset".toList ∧ "_5".toList.head? = some '_' ∧ String.ofList "xset".toList ∉ encoderNames ∧
    (31 : Nat) < 32 ∧ (16 : Nat) < 17 ∧ (15 : Nat) < 16 ∧ (1 : Nat) < 2 ∧
    "goto" ∈ encoderNames ∧ "label" ∈ encoderNames ∧
    ([] : List String).length ≠ operandCount "set" ∧ ["5"].length ≠ operandCount "goto" ∧
    ["5", "1"].length ≠ operandCount "push" ∧ '_' ∉ "1x".toList ∧ NoNumeral "" ∧ NoNumeral "1x" ∧
    assemble ["set_0", "foo"] = .ok [0, 0] :=
  ⟨by decide, by decide, by decide, by decide, by decide, by decide, by decide, by decide, by decide,
    by decide, by decide, by decide, by decide, .inl rfl, .inr ⟨'x', by decide, by decide⟩, by decide⟩

/-- In the last byte of memory, with no command and with one that waits. -/
theorem witness_StepRunsDecodedInstruction :
    (box 0xFF [0xF0]).status = .running ∧ TickNext (box 0xFF [0xF0]) ∧
    (box 0xFF [0xF0]).pc.toNat < (box 0xFF [0xF0]).progLen.toNat ∧
    (box 0xFF [0xF0]).pc.toNat < (box 0xFF [0xF0]).cfg.memSize ∧
    decode (box 0xFF [0xF0]).fetchWindow = .ok (.noop, [0, 0]) ∧
    TickNext { box 0xFF [0xF0] with inbox := [⟨1, .run⟩] } :=
  ⟨rfl, box_tickNext _ _, by decide, by decide, by decide, fun _ ⟨_, h⟩ => nomatch h⟩

theorem witness_PlacedWordIsRunNext :
    State.reset.cfg.wf = true ∧ (box 253 []).pc.toNat + 3 ≤ (box 253 []).cfg.memSize ∧
    (box 253 []).progLen.toNat ≤ (box 253 []).cfg.memSize ∧
    decodeTableWord 24 0xFFFFF2 = some (.store 0xFFFF) := by decide

theorem witness_InvariantKeptByEveryStep : ∃ t, Inv (box 0x10 [0x81]) ∧ step (box 0x10 [0x81]) = .next t :=
  ⟨_, box_inv, rfl⟩

theorem witness_ResetMeetsInvariant :
    Config.wf { memSize := 2, stackHead := 0, stackSlots := 0 } = true ∧
    Config.wf { memSize := 65535, stackHead := 65535, stackSlots := 32767 } = true := by decide

theorem witness_CanonicalMemoriesThatReadAlikeAreEqual :
    Memory.wf [(0, 1), (65534, 255)] = true ∧
    ∀ a, Memory.read [(0, 1), (65534, 255)] a = Memory.read [(0, 1), (65534, 255)] a :=
  ⟨by decide, fun _ => rfl⟩

theorem witness_XsetLoadsItsImmediate :
    (box 253 []).pc.toNat + 2 < (box 253 []).cfg.memSize ∧
    (box 254 []).pc.toNat + 2 ≥ (box 254 []).cfg.memSize ∧
    256 * (0xFF : Byte).toNat + (0xFF : Byte).toNat = (0xFFFF : Word).toNat := by decide

theorem witness_SetLoadsItsImmediate : (0x1F : Byte).toNat = (31 : BitVec 5).toNat ∧
    (Instr.set 31).encoderString = some "set_31" ∧ encode (.set 31) = [0x1F] := by decide

theorem witness_AddSubMulModulo65536 : (16 : RegIdx) ≠ 0 ∧
    (16 : RegIdx).val = (0x3F : Byte).toNat / 2 % 16 + 1 ∧ (1 : RegIdx).val = (0x40 : Byte).toNat / 2 % 16 + 1 ∧
    (16 : RegIdx).val = (0x7F : Byte).toNat / 2 % 16 + 1 ∧
    (Instr.sub 16).encoderString = some "sub_16" ∧ encode (.sub 16) = [0x5E] := by decide

/-- The last slot that is free, and the first position with none. -/
theorem witness_PushStoresBelowTheStack :
    ¬ StackFull (stackBox 0 [] 194 0) ∧ StackFull (stackBox 0 [] 193 0) ∧
    (1 : RegIdx).val = (0x80 : Byte).toNat / 2 % 16 + 1 ∧ encode .pushAcc = [0x81] := by
  simp only [stackFull_iff]
  decide

theorem witness_PopLoadsFromTheStack :
    ¬ StackEmpty (stackBox 0 [] 254 0) ∧ StackEmpty (stackBox 0 [] 255 0) ∧
    (16 : RegIdx).val = (0xBF : Byte).toNat / 2 % 16 + 1 ∧ encode .popAcc = [0xA1] := by
  simp only [stackEmpty_iff]
  decide

theorem witness_GotoJumpsOnItsCondition : (box 0 []).x 0 = 0 ∧ ((box 0 []).setX 0 0xFFFF).x 0 ≠ 0 ∧
    (0xDE : Byte).toNat = 0xC0 + 2 * (15 : LabelId).val ∧
    (0xDF : Byte).toNat = 0xC0 + 2 * (15 : LabelId).val + 1 := by decide

theorem witness_LabelAndNoopOnlyAdvance : (7 : LabelId).val < 8 ∧
    (0xEF : Byte).toNat / 2 = 0x70 + (7 : LabelId).val ∧ (0xE0 : Byte).toNat / 2 = 0x70 + (0 : LabelId).val := by
  decide

theorem witness_HaltStopsTheMachine : ∃ t u, exec .halt (box 0 []) = .next t ∧ tick t = .next u ∧
    commandRun t = .next (t.emit (.diagnostic .machineHalted)) ∧
    commandStep t = .next (t.emit (.diagnostic .machineHalted)) := ⟨_, _, rfl, rfl, rfl, rfl⟩

theorem witness_StoreWritesTheAccumulator :
    (box 253 []).pc.toNat + 2 < (box 253 []).cfg.memSize ∧ (0xFE : Word).toNat + 1 < (box 253 []).cfg.memSize ∧
    (box 254 []).pc.toNat + 2 ≥ (box 254 []).cfg.memSize ∧
    (0xFF : Word).toNat + 1 ≥ (box 253 []).cfg.memSize ∧
    256 * (0x00 : Byte).toNat + (0xFE : Byte).toNat = (0xFE : Word).toNat := by decide

theorem witness_LoadReadsTheWord :
    (box 253 []).pc.toNat + 2 < (box 253 []).cfg.memSize ∧ (0xFE : Word).toNat + 1 < (box 253 []).cfg.memSize ∧
    (box 254 []).pc.toNat + 2 ≥ (box 254 []).cfg.memSize ∧
    (0xFF : Word).toNat + 1 ≥ (box 253 []).cfg.memSize ∧
    256 * (0xFF : Byte).toNat + (0xFF : Byte).toNat = (0xFFFF : Word).toNat := by decide

theorem witness_SwapExchangesRegisters :
    (box 254 []).pc.toNat + 1 < (box 254 []).cfg.memSize ∧
    (box 255 []).pc.toNat + 1 ≥ (box 255 []).cfg.memSize ∧
    (15 : RegIdx).val = (0xF0 : Byte).toNat / 16 ∧ (0 : RegIdx).val = (0xF0 : Byte).toNat % 16 := by decide

theorem witness_CallPushesTheReturnAddress :
    (stackBox 253 [] 194 0).pc.toNat + 2 < (stackBox 253 [] 194 0).cfg.memSize ∧
    ¬ StackFull (stackBox 253 [] 194 0) ∧
    (stackBox 254 [] 194 0).pc.toNat + 2 ≥ (stackBox 254 [] 194 0).cfg.memSize ∧
    (stackBox 253 [] 192 0).pc.toNat + 2 < (stackBox 253 [] 192 0).cfg.memSize ∧
    StackFull (stackBox 253 [] 192 0) ∧
    256 * (0xFF : Byte).toNat + (0x00 : Byte).toNat = (0xFF00 : Word).toNat := by
  simp only [stackFull_iff]
  decide

theorem witness_RetPopsThePc : ¬ StackEmpty (stackBox 0 [] 254 0) ∧ StackEmpty (stackBox 0 [] 256 0) := by
  simp only [stackEmpty_iff]
  decide

theorem witness_ReservedOpcodesTakeTheirFault :
    (box 0xFF [0xF9]).pc.toNat < (box 0xFF [0xF9]).cfg.memSize ∧
    0xF9 ≤ ((box 0xFF [0xF9]).mem.read (box 0xFF [0xF9]).pc.toNat).toNat ∧
    0xF9 ≤ ((box 0 [0xFF]).mem.read (box 0 [0xFF]).pc.toNat).toNat := by decide

/-- PC at both ends of what lies outside memory; one state for each fault, and one for each of the two
ways of completing. -/
theorem witness_FaultsAreExactlyThoseListed :
    (box 256 []).cfg.memSize ≤ (box 256 []).pc.toNat ∧
    (box 65535 []).cfg.memSize ≤ (box 65535 []).pc.toNat ∧
    (box 0xFF [0xF4]).pc.toNat < (box 0xFF [0xF4]).cfg.memSize ∧
    decode (box 0xFF [0xF4]).fetchWindow = .ok (.swap 0 0, [0]) ∧
    Reports .reservedF9 (box 0 []) .unknownExtendedOpcode ∧
    Reports (.store 0xFFFF) (box 254 []) .endOfMemory ∧
    Reports (.load 0xFF) (box 253 []) .boundsViolation ∧
    Reports (.call 0) (stackBox 253 [] 192 0) .stackOverflow ∧
    Reports .ret (box 255 []) .stackUnderflow ∧
    Completes (.store 0xFE) (box 253 []) ∧ Instr.store 0xFE ≠ .halt ∧ Completes .halt (box 255 []) := by
  simp only [reports_iff, completes_iff]
  decide

theorem witness_FetchResultIsOneOfThree :
    (box 256 []).cfg.memSize ≤ (box 256 []).pc.toNat ∧
    (box 255 [0xF6]).pc.toNat < (box 255 [0xF6]).cfg.memSize ∧
    decode (box 255 [0xF6]).fetchWindow = .ok (.ret, [0, 0]) ∧
    Reports .ret (box 255 [0xF6]) .stackUnderflow ∧
    decode (box 255 [0xF1]).fetchWindow = .ok (.halt, [0, 0]) ∧ Completes .halt (box 255 [0xF1]) ∧
    decode (box 253 [0xF2, 0, 0xFE]).fetchWindow = .ok (.store 0xFE, []) ∧
    Completes (.store 0xFE) (box 253 [0xF2, 0, 0xFE]) := by
  simp only [reports_iff, completes_iff]
  decide

theorem witness_NewPcIsTheTables :
    (∃ t, exec (.call 0xFFFF) (stackBox 253 [] 194 0) = .next t ∧
      Completes (.call 0xFFFF) (stackBox 253 [] 194 0)) ∧
    (∃ t, exec .ret (box 255 []) = .next t ∧ Reports .ret (box 255 []) .stackUnderflow) := by
  simp only [reports_iff, completes_iff]
  exact ⟨⟨_, rfl, by decide⟩, ⟨_, rfl, by decide⟩⟩

/-- The last three bytes of memory, and an untaken GOTO of either condition in the last byte. -/
theorem witness_LinearAdvanceNeverWraps : ∃ t u,
    (box 253 [0xF8, 0, 1]).cfg.wf = true ∧ (box 253 [0xF8, 0, 1]).pc.toNat < (box 253 [0xF8, 0, 1]).cfg.memSize ∧
    decode (box 253 [0xF8, 0, 1]).fetchWindow = .ok (.xset 1, []) ∧
    fetchExecute (box 253 [0xF8, 0, 1]) = .next t ∧ Completes (.xset 1) (box 253 [0xF8, 0, 1]) ∧
    AdvancesLinearly (.xset 1) (box 253 [0xF8, 0, 1]) ∧
    decode (box 255 [0xDF]).fetchWindow = .ok (.goto 15 .nz, [0, 0]) ∧
    fetchExecute (box 255 [0xDF]) = .next u ∧ Completes (.goto 15 .nz) (box 255 [0xDF]) ∧
    AdvancesLinearly (.goto 15 .nz) (box 255 [0xDF]) ∧
    AdvancesLinearly (.goto 0 .z) ((box 255 [0xC0]).setX 0 1) := by
  simp only [completes_iff]
  exact ⟨_, _, by decide, by decide, by decide, rfl, by decide, .inl rfl, by decide, rfl, by decide,
    .inr (.inr ⟨15, rfl, by decide⟩), .inr (.inl ⟨0, rfl, by decide⟩)⟩

/-- A register neither read nor written, one written and not read, one written, and one read. -/
theorem witness_RegistersReadAndWrittenAreTheTables :
    (∃ t, exec (.swap 0 15) (box 0 []) = .next t) ∧ (16 : RegIdx) ∉ regsRead (.swap 0 15) ∧
    (16 : RegIdx) ∉ regsRead (.popReg 16) ∧ (16 : RegIdx) ∈ regsWritten (.popReg 16) ∧
    Completes (.popReg 16) (stackBox 255 [] 254 0) ∧ (∀ a, Instr.popReg 16 ≠ .swap a a) ∧
    (Instr.mul 16).wf = true ∧ Completes (.mul 16) (box 255 []) ∧ (16 : RegIdx) ∈ regsRead (.mul 16) := by
  simp only [completes_iff]
  exact ⟨⟨_, rfl⟩, by decide, by decide, by decide, by decide, nofun, by decide, by decide, by decide⟩

theorem witness_OnlyPopReachesR16 :
    (∃ t, (Instr.popReg 16).wf = true ∧ exec (.popReg 16) (stackBox 0 [] 254 7) = .next t ∧
      t.x 16 ≠ (stackBox 0 [] 254 7).x 16) ∧ decodeWindow 0xF4 0xF0 0 = .swap 15 0 :=
  ⟨⟨_, by decide, rfl, by decide⟩, by decide⟩

theorem witness_FlagIsCmpsAlone : ∃ t, exec .noop (box 0 []) = .next t ∧ Instr.noop ≠ .cmp :=
  ⟨_, rfl, nofun⟩

theorem witness_OnlyTheStackPrimitivesMoveSp :
    (∃ t, exec .pushAcc (stackBox 0 [] 194 0) = .next t ∧ t.sp ≠ (stackBox 0 [] 194 0).sp) ∧
    (∃ t, exec .ret (stackBox 0 [] 254 0) = .next t ∧ t.sp ≠ (stackBox 0 [] 254 0).sp) :=
  ⟨⟨_, rfl, by decide⟩, ⟨_, rfl, by decide⟩⟩

theorem witness_LabelsAndProgLenAreFixedAtLoad :
    (∃ t, exec (.label 7) (box 0 []) = .next t) ∧
    ∃ t, NoReload (box 0 [0xEE]) ∧ step (box 0 [0xEE]) = .next t :=
  ⟨⟨_, rfl⟩, ⟨_, box_noReload _ _, rfl⟩⟩

/-- The whole capacity of 32 slots, both forms of PUSH and POP, and a register popped more than once. -/
theorem witness_PushesThenPopsReturnTheValues :
    List.Forall₂ PushOf (List.replicate 31 (.pushReg 16) ++ [.pushAcc]) (List.replicate 31 16 ++ [0]) ∧
    List.Forall₂ PopOf (List.replicate 31 (.popReg 1) ++ [.popAcc]) (List.replicate 31 1 ++ [0]) ∧
    (box 0 []).cfg.wf = true ∧ (box 0 []).sp.toNat ≤ (box 0 []).cfg.stackHead ∧
    (box 0 []).cfg.stackLimit + 2 * (List.replicate 31 (16 : RegIdx) ++ [0]).length ≤ (box 0 []).sp.toNat ∧
    (List.replicate 31 (1 : RegIdx) ++ [0]).length = (List.replicate 31 (16 : RegIdx) ++ [0]).length ∧
    (List.replicate 31 (1 : RegIdx) ++ [0])[30]? = some 1 ∧
    (1 : RegIdx) ∉ (List.replicate 31 (1 : RegIdx) ++ [0]).drop 31 := by
  refine ⟨?_, ?_, by decide, by decide, by decide, by decide, by decide, by decide⟩
  · simp [List.replicate_succ, PushOf]
  · simp [List.replicate_succ, PopOf]

theorem witness_ReturnResumesAfterTheCall : ∃ t,
    (stackBox 3 [] 194 0).cfg.wf = true ∧
    (stackBox 3 [] 194 0).sp.toNat ≤ (stackBox 3 [] 194 0).cfg.stackHead ∧
    Completes (.call 0x0A) (stackBox 3 [] 194 0) ∧ exec (.call 0x0A) (stackBox 3 [] 194 0) = .next t ∧
    ({ t with flag := true } : State).cfg = t.cfg ∧ ({ t with flag := true } : State).sp = t.sp := by
  simp only [completes_iff]
  exact ⟨_, by decide, by decide, by decide, rfl, trivial, trivial⟩

/-- The same address, and the next one. -/
theorem witness_LoadAfterStore : ∃ t u v,
    Completes (.store 0xFD) (box 0 []) ∧ exec (.store 0xFD) (box 0 []) = .next t ∧
    Completes (.load 0xFD) t ∧ exec (.load 0xFD) t = .next u ∧
    Completes (.load 0xFE) t ∧ exec (.load 0xFE) t = .next v ∧
    (0xFE : Word).toNat = (0xFD : Word).toNat + 1 := by
  simp only [completes_iff]
  exact ⟨_, _, _, by decide, rfl, by decide, rfl, by decide, rfl, by decide⟩

theorem witness_FetchSeesStoredBytes : ∃ t u w v,
    Completes (.store 0xFE) (box 253 []) ∧ exec (.store 0xFE) (box 253 []) = .next t ∧
    Inv (box 0x10 [0x81]) ∧
    Completes (.pushReg 16) (box 0x10 [0x81]) ∧ exec (.pushReg 16) (box 0x10 [0x81]) = .next u ∧
    Completes .pushAcc (box 0x10 [0x81]) ∧ exec .pushAcc (box 0x10 [0x81]) = .next w ∧
    Completes (.call 0) (box 0x10 [0x81]) ∧ exec (.call 0) (box 0x10 [0x81]) = .next v := by
  simp only [completes_iff]
  exact ⟨_, _, _, _, by decide, rfl, box_inv, by decide, rfl, by decide, rfl, by decide, rfl⟩

/-- The last free slot for each form that pushes, and the only slot for each form that pops. -/
theorem witness_StackDumpFollowsPushAndPop :
    ((stackBox 253 [] 194 0).cfg.wf = true ∧
      (stackBox 253 [] 194 0).sp.toNat ≤ (stackBox 253 [] 194 0).cfg.stackHead) ∧
    (∀ i ∈ [Instr.pushReg 16, .pushAcc, .call 0xFFFF], Completes i (stackBox 253 [] 194 0) ∧
      (∃ t, exec i (stackBox 253 [] 194 0) = .next t) ∧ (pushedValue i (stackBox 253 [] 194 0)).isSome) ∧
    (∀ i ∈ [Instr.popReg 16, .popAcc, .ret], Completes i (stackBox 255 [] 254 0) ∧
      ∃ t, exec i (stackBox 255 [] 254 0) = .next t ∧ (poppedValue i t).isSome) := by
  simp only [completes_iff, List.forall_mem_cons, List.not_mem_nil, false_implies, implies_true, and_true]
  exact ⟨by decide, ⟨⟨by decide, ⟨_, rfl⟩, rfl⟩, ⟨by decide, ⟨_, rfl⟩, rfl⟩, ⟨by decide, ⟨_, rfl⟩, rfl⟩⟩,
    ⟨⟨by decide, _, rfl, rfl⟩, ⟨by decide, _, rfl, rfl⟩, ⟨by decide, _, rfl, rfl⟩⟩⟩

theorem witness_ResetCommandZeroesTheMachine : (cmdBox .halted [1] .reset).cfg.wf = true ∧
    (cmdBox .halted [1] .reset).inbox = ⟨0, .reset⟩ :: [] := by decide

/-- A program that fills memory, one byte more, and labels defined twice and never. -/
theorem witness_LoadCommandInstallsTheProgram :
    (cmdBox .idle [] (.load [0xE0, 0xE0, 0x01])).cfg.wf = true ∧
    (cmdBox .idle [] (.load [0xE0, 0xE0, 0x01])).inbox = ⟨0, .load [0xE0, 0xE0, 0x01]⟩ :: [] ∧
    (List.replicate 256 (0xF0 : Byte)).length ≤ State.reset.cfg.memSize ∧
    State.reset.cfg.memSize < (List.replicate 257 (0xF0 : Byte)).length ∧
    DefinesLast [0xE0, 0xE0, 0x01] 0 1 ∧ ∀ k, ¬ Defines [0xE0, 0xE0, 0x01] 1 k := by
  refine ⟨by decide, by decide, by rw [List.length_replicate]; decide,
    by rw [List.length_replicate]; decide, ⟨⟨0xE0, by decide⟩, fun j hj => ?_⟩, fun k => ?_⟩
  · rintro ⟨b, hb, h, _⟩
    rcases j with _ | _ | _ | j
    · omega
    · omega
    · simp at hb; subst hb; exact absurd h (by decide)
    · simp at hb
  · rintro ⟨b, hb, h⟩
    rcases k with _ | _ | _ | k
    · simp at hb; subst hb; exact absurd h (by decide)
    · simp at hb; subst hb; exact absurd h (by decide)
    · simp at hb; subst hb; exact absurd h (by decide)
    · simp at hb

theorem witness_ResolverRecordsTheLastDefinition :
    [(0xF8 : Byte), 0xE0].length = { box 0 [0xF8, 0xE0] with progLen := 2 }.progLen.toNat ∧
    (∀ k b, [(0xF8 : Byte), 0xE0][k]? = some b → (box 0 [0xF8, 0xE0]).mem.read k = b) ∧
    DefinesLast [0xF8, 0xE0] 0 1 := by
  refine ⟨by decide, fun k b h => ?_, ⟨⟨0xE0, by decide⟩, fun j hj => ?_⟩⟩
  · rcases k with _ | _ | k
    · simp at h; subst h; decide
    · simp at h; subst h; decide
    · simp at h
  · rintro ⟨b, hb, _⟩
    rcases j with _ | _ | j
    · omega
    · omega
    · simp at hb

theorem witness_RunCommandStartsOrRefuses :
    (cmdBox .running [] .run).inbox = ⟨0, .run⟩ :: [] ∧ (cmdBox .running [] .run).status = .running ∧
    (cmdBox .halted [] .run).status = .halted ∧ (cmdBox .idle [] .run).mem.read 0 = 0 ∧
    (cmdBox .idle [] .run).mem.read 1 = 0 ∧ (cmdBox .loaded [0, 1] .run).mem.read 1 ≠ 0 ∧
    (cmdBox .paused [1] .run).mem.read 0 ≠ 0 := by decide

theorem witness_StepCommandExecutesOneInstruction :
    (cmdBox .running [0xF6] .step).inbox = ⟨0, .step⟩ :: [] ∧ (cmdBox .halted [] .step).status = .halted ∧
    (cmdBox .idle [] .step).mem.read 0 = 0 ∧ (cmdBox .idle [] .step).mem.read 1 = 0 ∧
    (cmdBox .loaded [0, 1] .step).mem.read 1 ≠ 0 ∧
    256 ≤ { cmdBox .paused [0xF0] .step with pc := 256 }.pc.toNat ∧
    decode (cmdBox .running [0xF6] .step).fetchWindow = .ok (.ret, [0, 0]) ∧
    Reports .ret (cmdBox .running [0xF6] .step) .stackUnderflow ∧
    decode (cmdBox .loaded [0xF1] .step).fetchWindow = .ok (.halt, [0, 0]) ∧
    Completes .halt (cmdBox .loaded [0xF1] .step) ∧
    Completes .noop (cmdBox .loaded [0xF0] .step) := by
  simp only [reports_iff, completes_iff]
  decide

theorem witness_PauseAndHaltCommandsOnlyMoveTheStatus :
    (cmdBox .running [1] .pause).inbox = ⟨0, .pause⟩ :: [] ∧ (cmdBox .running [1] .pause).status = .running ∧
    (cmdBox .idle [] .pause).status ≠ .running ∧ (cmdBox .halted [] .halt).inbox = ⟨0, .halt⟩ :: [] := by
  decide

theorem witness_TickExecutesOneInstruction :
    TickNext { box 0 [1] with status := .paused } ∧ TickNext (box 0 [0xF6]) ∧
    (box 0 [0xF6]).status = .running ∧
    { box 23 [] with progLen := 23 }.progLen.toNat ≤ { box 23 [] with progLen := 23 }.pc.toNat ∧
    (256 < (257 : Word).toNat ∧ (box 256 []).cfg.memSize ≤ (box 256 []).pc.toNat) ∧
    (box 255 [0xF6]).pc.toNat < (box 255 [0xF6]).progLen.toNat ∧
    (box 255 [0xF6]).pc.toNat < (box 255 [0xF6]).cfg.memSize ∧
    decode (box 255 [0xF6]).fetchWindow = .ok (.ret, [0, 0]) ∧
    Reports .ret (box 255 [0xF6]) .stackUnderflow ∧
    Completes .halt (box 255 [0xF1]) ∧ Completes .noop (box 255 [0xF0]) := by
  refine ⟨tickNext_of_nil rfl, box_tickNext _ _, ?_⟩
  simp only [reports_iff, completes_iff]
  decide

theorem witness_ReadyCommandGoesBeforeTheTick :
    (cmdBox .idle [] .run).inbox = ⟨0, .run⟩ :: [] ∧
    { box 0 [] with inbox := [⟨1, .run⟩] }.inbox = ⟨0 + 1, .run⟩ :: [] ∧ (box 0 []).inbox = [] := by decide

/-- The invariant as a computation, for concrete states. -/
def invCheck (s : State) : Bool :=
  s.cfg.wf && s.mem.wf && s.mem.all (fun c => decide (c.1 < s.cfg.memSize)) &&
    decide (s.cfg.stackLimit ≤ s.sp.toNat) && decide (s.sp.toNat ≤ s.cfg.stackHead) &&
    decide ((s.cfg.stackHead - s.sp.toNat) % 2 = 0) && decide (s.progLen.toNat ≤ s.cfg.memSize) &&
    decide (∀ l, (s.labelAt l).toNat ≤ s.progLen.toNat) &&
    decide (s.status = .idle ∨ s.status = .loaded →
      (∀ r, s.x r = 0) ∧ s.pc = 0 ∧ s.sp.toNat = s.cfg.stackHead ∧ s.flag = false) &&
    decide (s.status = .idle → s.mem = [] ∧ s.progLen = 0)

theorem inv_of_check {s : State} (h : invCheck s = true) : Inv s := by
  simp only [invCheck, Bool.and_eq_true, decide_eq_true_eq, List.all_eq_true] at h
  obtain ⟨⟨⟨⟨⟨⟨⟨⟨⟨h1, h2⟩, h3⟩, h4⟩, h5⟩, h6⟩, h7⟩, h8⟩, h9⟩, h10⟩ := h
  exact ⟨h1, h2, h3, h4, h5, h6, h7, h8, h9, h10⟩

/-- The state after reset with one command pending. -/
def idleBox (c : Command) : State := { State.reset with inbox := [⟨0, c⟩] }

theorem cmdBox_ready (v : Status) (bytes : List Byte) (c : Command) : Ready c (cmdBox v bytes c) := ⟨[], rfl⟩

/-- R195's command rows in Idle. -/
theorem witness_StatusMovesAsTheTableAllows_idle :
    ∀ c ∈ [Command.reset, .load [1], .load (List.replicate 257 1), .run, .step, .pause, .halt],
      Inv (idleBox c) ∧ Ready c (idleBox c) ∧ ¬ Present (idleBox c) :=
  fun c hc => ⟨inv_of_check (by revert c; decide +revert), ⟨[], rfl⟩, by
    revert c; unfold Present; decide⟩

/-- R195's command rows where a program is present and the instruction at PC completes. -/
theorem witness_StatusMovesAsTheTableAllows_ok :
    ∀ v ∈ [Status.loaded, .running, .paused, .halted],
      ∀ c ∈ [Command.reset, .load [1], .run, .step, .pause, .halt],
        Inv (cmdBox v [1] c) ∧ Ready c (cmdBox v [1] c) ∧ Present (cmdBox v [1] c) ∧
        InstrAt (cmdBox v [1] c) (.set 1) ∧ Completes (.set 1) (cmdBox v [1] c) := by
  have checks : ∀ v ∈ [Status.loaded, .running, .paused, .halted],
      ∀ c ∈ [Command.reset, .load [1], .run, .step, .pause, .halt],
        invCheck (cmdBox v [1] c) = true ∧ (cmdBox v [1] c).mem.read 0 ≠ 0 ∧
        decode (cmdBox v [1] c).fetchWindow = .ok (.set 1, [0, 0]) ∧
        reportedFault (.set 1) (cmdBox v [1] c) = none := by decide
  intro v hv c hc
  obtain ⟨inv, present, instr, completes⟩ := checks v hv c hc
  exact ⟨inv_of_check inv, cmdBox_ready _ _ _, .inl present, ⟨_, instr⟩, (completes_iff _ _).2 completes⟩

/-- R195's step row for HALT and for a fault, and its refusals: no program, PC outside memory. -/
theorem witness_StatusMovesAsTheTableAllows_stops :
    (∀ v ∈ [Status.loaded, .running, .paused],
      (Inv (cmdBox v [0xF1] .step) ∧ Present (cmdBox v [0xF1] .step) ∧
        InstrAt (cmdBox v [0xF1] .step) .halt) ∧
      (Inv (cmdBox v [0xF6] .step) ∧ Present (cmdBox v [0xF6] .step) ∧
        InstrAt (cmdBox v [0xF6] .step) .ret ∧ Reports .ret (cmdBox v [0xF6] .step) .stackUnderflow)) ∧
    (∀ v ∈ [Status.loaded, .paused], Inv (cmdBox v [] .run) ∧ ¬ Present (cmdBox v [] .run)) ∧
    Inv { cmdBox .paused [1] .step with pc := 256 } := by
  have halts : ∀ v ∈ [Status.loaded, .running, .paused],
      invCheck (cmdBox v [0xF1] .step) = true ∧ (cmdBox v [0xF1] .step).mem.read 0 ≠ 0 ∧
      decode (cmdBox v [0xF1] .step).fetchWindow = .ok (.halt, [0, 0]) := by decide
  have faults : ∀ v ∈ [Status.loaded, .running, .paused],
      invCheck (cmdBox v [0xF6] .step) = true ∧ (cmdBox v [0xF6] .step).mem.read 0 ≠ 0 ∧
      decode (cmdBox v [0xF6] .step).fetchWindow = .ok (.ret, [0, 0]) ∧
      reportedFault .ret (cmdBox v [0xF6] .step) = some .stackUnderflow := by decide
  have empty : ∀ v ∈ [Status.loaded, .paused], invCheck (cmdBox v [] .run) = true ∧
      ¬ Present (cmdBox v [] .run) := by unfold Present; decide
  refine ⟨fun v hv => ?_, fun v hv => ⟨inv_of_check (empty v hv).1, (empty v hv).2⟩,
    inv_of_check (by decide)⟩
  obtain ⟨haltInv, haltPresent, haltInstr⟩ := halts v hv
  obtain ⟨retInv, retPresent, retInstr, retFault⟩ := faults v hv
  exact ⟨⟨inv_of_check haltInv, .inl haltPresent, _, haltInstr⟩,
    inv_of_check retInv, .inl retPresent, ⟨_, retInstr⟩, (reports_iff _ _ _).2 retFault⟩

/-- R195's tick rows. -/
theorem witness_StatusMovesAsTheTableAllows_tick :
    (∀ v ∈ [Status.running, .paused, .halted],
      Inv { box 255 [0xF0] with status := v } ∧ TickNext { box 255 [0xF0] with status := v }) ∧
    (InstrAt (box 255 [0xF0]) .noop ∧ Completes .noop (box 255 [0xF0])) ∧
    (Inv (box 255 [0xF6]) ∧ InstrAt (box 255 [0xF6]) .ret ∧ Reports .ret (box 255 [0xF6]) .stackUnderflow) ∧
    (Inv (box 255 [0xF1]) ∧ InstrAt (box 255 [0xF1]) .halt) ∧
    (Inv (box 256 []) ∧ (box 256 []).progLen.toNat ≤ (box 256 []).pc.toNat) ∧
    ∃ t, step (box 256 []) = .next t := by
  have h : ∀ v ∈ [Status.running, .paused, .halted],
      invCheck { box 255 [0xF0] with status := v } = true := by decide
  exact ⟨fun v hv => ⟨inv_of_check (h v hv), tickNext_of_nil rfl⟩,
    ⟨⟨[0, 0], rfl⟩, (completes_iff _ _).2 rfl⟩,
    ⟨inv_of_check (by decide), ⟨[0, 0], rfl⟩, (reports_iff _ _ _).2 rfl⟩,
    ⟨inv_of_check (by decide), [0, 0], rfl⟩, ⟨inv_of_check (by decide), by decide⟩, _, rfl⟩

theorem witness_HaltedIsLeftOnlyByResetOrLoad : ∃ t,
    Reports .ret (box 255 []) .stackUnderflow ∧
    (cmdBox .halted [1] .step).status = .halted ∧ NoReload (cmdBox .halted [1] .step) ∧
    step (cmdBox .halted [1] .step) = .next t :=
  ⟨_, (reports_iff _ _ _).2 (by decide), rfl, ⟨(by rintro ⟨_, h⟩; cases h), (by rintro _ ⟨_, h⟩; cases h)⟩, rfl⟩

theorem witness_ConfigurationNeverChanges : ∃ t, step (cmdBox .idle [] .reset) = .next t := ⟨_, rfl⟩

theorem witness_PauseThenRunResumes :
    (box 0 [0, 1]).status = .running ∧ (box 0 [0, 1]).mem.read 1 ≠ 0 ∧
    { box 0 [0, 1] with inbox := [⟨0, .pause⟩, ⟨0, .run⟩] }.inbox = ⟨0, .pause⟩ :: ⟨0, .run⟩ :: [] := by
  decide

end Sys2Proof.Tests
end

/-! Where PC goes (R25): the PC of an instruction's effect, and the obligation about it. -/

namespace Sys2Proof.Machine

/-- The condition GOTO tests, spelled as R145 spells it. -/
theorem taken_iff (s : State) (c : Cond) :
    s.taken c = true ↔ (c = .z ∧ s.x 0 = 0) ∨ (c = .nz ∧ s.x 0 ≠ 0) := by
  cases c <;> simp [State.taken]

/-- The word read at an address is the big-endian value of its two bytes (R50). -/
theorem bigEndianAt_readWord (m : Memory) (a : Nat) : BigEndianAt m a (m.readWord a) :=
  (wordOf_toNat (m.read a) (m.read (a + 1))).symm

/-- No instruction that completes is a reserved opcode (R231). -/
theorem not_isReserved_of_completes {i : Instr} {s : State} (h : Completes i s) :
    isReserved i = false :=
  Bool.eq_false_iff.2 (h .unknownExtendedOpcode)

/-- The effect of an instruction sends PC where R25's table says; a reserved opcode has no effect, so
its row of the table is never met. -/
theorem newPc_effect {i : Instr} (hr : isReserved i = false) (s : State) :
    NewPc i s (effect i s).pc := by
  cases i
  case goto l c =>
    simp only [NewPc, effect, ← taken_iff]
    split <;> rfl
  case ret => exact bigEndianAt_readWord s.mem s.sp.toNat
  case reservedF9 | reservedFA | reservedFC => cases hr
  all_goals rfl

end Sys2Proof.Machine

namespace Sys2Proof.Proofs

open Sys2Proof.Machine

/-- Settles O33: `exec` answers the instruction's effect when it completes and the fault entry, which
keeps PC, when it reports a fault. -/
theorem newPcIsTheTables : Obligations.NewPcIsTheTables := by
  intro i s t h
  constructor
  · intro hc
    obtain rfl : effect i s = t := by simpa [exec_of_completes hc] using h
    exact newPc_effect (not_isReserved_of_completes hc) s
  · intro f hf
    obtain rfl : s.takeFault f = t := by simpa [exec_of_reports hf] using h
    exact takeFault_pc s f

end Sys2Proof.Proofs

/-! What the load fixed (R31, R32, R65): only `reset` and `load` write the label table or PROGLEN. -/

namespace Sys2Proof.Machine

/-- The label table and PROGLEN are kept. -/
def LoadKept (s t : State) : Prop := (∀ l, t.labelAt l = s.labelAt l) ∧ t.progLen = s.progLen

theorem LoadKept.trans {s t u : State} (hst : LoadKept s t) (htu : LoadKept t u) : LoadKept s u :=
  ⟨fun l => (htu.1 l).trans (hst.1 l), htu.2.trans hst.2⟩

theorem TablesKept.loadKept {s t : State} (h : TablesKept s t) : LoadKept s t := by
  obtain ⟨_, labels, progLen, _⟩ := h
  exact ⟨labels, progLen⟩

theorem CoreKept.loadKept {s t : State} (h : CoreKept s t) : LoadKept s t := by
  obtain ⟨_, _, _, _, _, labels, progLen, _⟩ := h
  exact ⟨labels, progLen⟩

/-- Taking the input out of the inbox touches nothing else. -/
theorem loadKept_withInbox (s : State) (rest : List Arrival) :
    LoadKept s { s with inbox := rest } := ⟨fun _ => rfl, rfl⟩

theorem takeFault_tablesKept (f : Fault) (s : State) : TablesKept s (s.takeFault f) :=
  ⟨rfl, fun _ => rfl, rfl, rfl⟩

/-- An instruction writes none of the tables, whether it completes or takes a fault. -/
theorem exec_tablesKept {i : Instr} {s t : State} (h : exec i s = .next t) : TablesKept s t := by
  rcases exec_inv h with rfl | ⟨f, rfl⟩
  · exact effect_tablesKept i s
  · exact takeFault_tablesKept f s

theorem fetchExecute_tablesKept {s t : State} (h : fetchExecute s = .next t) : TablesKept s t := by
  rcases fetchExecute_inv h with ⟨f, rfl⟩ | ⟨i, he, _, _⟩
  · exact takeFault_tablesKept f s
  · exact exec_tablesKept he

theorem tick_loadKept {s t : State} (h : tick s = .next t) : LoadKept s t := by
  rcases tick_cases s with ⟨_, e⟩ | ⟨_, _, e⟩ | ⟨_, _, e⟩ <;> rw [e] at h
  · cases h; exact ⟨fun _ => rfl, rfl⟩
  · cases h; exact ⟨fun _ => rfl, rfl⟩
  · exact (fetchExecute_tablesKept h).loadKept

theorem afterStep_loadKept (t : State) : LoadKept t (afterStep t) := by
  rcases afterStep_cases t with ⟨_, e⟩ | ⟨_, e⟩ <;> rw [e] <;> exact ⟨fun _ => rfl, rfl⟩

theorem runCommand_loadKept {c : Command} {s t : State} (h : runCommand c s = .next t)
    (hr : c ≠ .reset) (hl : ∀ bytes, c ≠ .load bytes) : LoadKept s t := by
  rcases runCommand_inv h hr hl with ⟨core, _⟩ | ⟨_, _, _, _, u, hu, rfl⟩
  · exact core.loadKept
  · exact (fetchExecute_tablesKept hu).loadKept.trans (afterStep_loadKept u)

/-- A step whose input is neither `reset` nor `load` keeps what the load fixed. -/
theorem step_loadKept {s t : State} (hn : NoReload s) (h : step s = .next t) : LoadKept s t := by
  obtain ⟨noReset, noLoad⟩ := hn
  rcases step_inv h with ⟨c, rest, ready, hc⟩ | ⟨_, ht⟩
  · have notReset : c ≠ .reset := by rintro rfl; exact noReset ⟨rest, ready⟩
    have notLoad : ∀ bytes, c ≠ .load bytes := by rintro bytes rfl; exact noLoad bytes ⟨rest, ready⟩
    exact (loadKept_withInbox s rest).trans (runCommand_loadKept hc notReset notLoad)
  · exact (loadKept_withInbox s (waited s.inbox)).trans (tick_loadKept ht)

end Sys2Proof.Machine

namespace Sys2Proof.Proofs

open Sys2Proof.Machine

/-- Settles O39: an instruction's effect and the fault entry both keep the tables, and a step without
`reset` or `load` changes beyond them at most STATUS and the two streams. -/
theorem labelsAndProgLenAreFixedAtLoad : Obligations.LabelsAndProgLenAreFixedAtLoad :=
  ⟨fun _ _ _ h => exec_tablesKept h, fun _ _ hn h => step_loadKept hn h⟩

end Sys2Proof.Proofs

/-! The opcode map (R94) and the lengths (R95): a lemma per row of the base set's table, by the value of
bits 7:5, what the fields are that the decoder reads, and the obligations about single opcode bytes. -/

namespace Sys2Proof

theorem lowBit_of_odd {b : Byte} (h : b.toNat % 2 = 1) : lowBit b = true := (lowBit_iff b).2 h

theorem lowBit_of_even {b : Byte} (h : b.toNat % 2 = 0) : lowBit b = false :=
  Bool.eq_false_iff.2 fun e => by have := (lowBit_iff b).1 e; omega

section BaseRows

variable {b : Byte} (o1 o2 : Byte)

theorem decodeWindow_set (hi : b.toNat ≤ 0x1F) :
    decodeWindow b o1 o2 = .set (b.extractLsb' 0 5) := by
  simp only [decodeWindow_base (b := b) (by omega), decodeBase, baseOp_toNat,
    show b.toNat / 32 = 0 by omega]

theorem decodeWindow_add (lo : 0x20 ≤ b.toNat) (hi : b.toNat ≤ 0x3F) :
    decodeWindow b o1 o2 = .add (regOfField (midField b)) := by
  simp only [decodeWindow_base (b := b) (by omega), decodeBase, baseOp_toNat,
    show b.toNat / 32 = 1 by omega]

theorem decodeWindow_sub (lo : 0x40 ≤ b.toNat) (hi : b.toNat ≤ 0x5F) :
    decodeWindow b o1 o2 = .sub (regOfField (midField b)) := by
  simp only [decodeWindow_base (b := b) (by omega), decodeBase, baseOp_toNat,
    show b.toNat / 32 = 2 by omega]

theorem decodeWindow_mul (lo : 0x60 ≤ b.toNat) (hi : b.toNat ≤ 0x7F) :
    decodeWindow b o1 o2 = .mul (regOfField (midField b)) := by
  simp only [decodeWindow_base (b := b) (by omega), decodeBase, baseOp_toNat,
    show b.toNat / 32 = 3 by omega]

theorem decodeWindow_push (lo : 0x80 ≤ b.toNat) (hi : b.toNat ≤ 0x9F) :
    decodeWindow b o1 o2 = if lowBit b then .pushAcc else .pushReg (regOfField (midField b)) := by
  simp only [decodeWindow_base (b := b) (by omega), decodeBase, baseOp_toNat,
    show b.toNat / 32 = 4 by omega]

theorem decodeWindow_pop (lo : 0xA0 ≤ b.toNat) (hi : b.toNat ≤ 0xBF) :
    decodeWindow b o1 o2 = if lowBit b then .popAcc else .popReg (regOfField (midField b)) := by
  simp only [decodeWindow_base (b := b) (by omega), decodeBase, baseOp_toNat,
    show b.toNat / 32 = 5 by omega]

theorem decodeWindow_pushAcc (lo : 0x80 ≤ b.toNat) (hi : b.toNat ≤ 0x9F) (odd : b.toNat % 2 = 1) :
    decodeWindow b o1 o2 = .pushAcc :=
  (decodeWindow_push o1 o2 lo hi).trans (if_pos (lowBit_of_odd odd))

theorem decodeWindow_popAcc (lo : 0xA0 ≤ b.toNat) (hi : b.toNat ≤ 0xBF) (odd : b.toNat % 2 = 1) :
    decodeWindow b o1 o2 = .popAcc :=
  (decodeWindow_pop o1 o2 lo hi).trans (if_pos (lowBit_of_odd odd))

theorem decodeWindow_goto (lo : 0xC0 ≤ b.toNat) (hi : b.toNat ≤ 0xDF) :
    decodeWindow b o1 o2 = .goto (labelOfField (midField b)) (condOfBit (lowBit b)) := by
  simp only [decodeWindow_base (b := b) (by omega), decodeBase, baseOp_toNat,
    show b.toNat / 32 = 6 by omega]

theorem decodeWindow_label (lo : 0xE0 ≤ b.toNat) (hi : b.toNat ≤ 0xEF) :
    decodeWindow b o1 o2 = .label (labelOfField (midField b)) := by
  simp only [decodeWindow_base (b := b) (by omega), decodeBase, baseOp_toNat,
    show b.toNat / 32 = 7 by omega]

end BaseRows

theorem eq_regOfField {b : Byte} {n : RegIdx} (h : n.val = b.toNat / 2 % 16 + 1) :
    n = regOfField (midField b) :=
  Fin.ext (by simp only [h, regOfField, midField_toNat])

theorem eq_labelOfField {b : Byte} {l : LabelId} (h : l.val = b.toNat / 2 % 16) :
    l = labelOfField (midField b) :=
  Fin.ext (by simp only [h, labelOfField, midField_toNat])

theorem eq_regOfNibble {v : BitVec 4} {r : RegIdx} (h : r.val = v.toNat) : r = regOfNibble v :=
  Fin.ext h

/-- Bytes that differ in bit 0 alone have the same field in bits 4:1. -/
theorem midField_congr {b b' : Byte} (h : b.toNat / 2 = b'.toNat / 2) : midField b = midField b' := by
  rw [← BitVec.toNat_inj, midField_toNat, midField_toNat, h]

/-- Bit 0 of an ADD, SUB, MUL or LABEL byte does not matter (R97). -/
theorem decodeWindow_congr_of_half_eq {b b' : Byte} (o1 o2 : Byte) (half : b.toNat / 2 = b'.toNat / 2)
    (h : 0x20 ≤ b.toNat ∧ b.toNat ≤ 0x7F ∨ 0xE0 ≤ b.toNat ∧ b.toNat ≤ 0xEF) :
    decodeWindow b o1 o2 = decodeWindow b' o1 o2 := by
  have mid := midField_congr half
  have row : (0x20 ≤ b.toNat ∧ b.toNat ≤ 0x3F) ∨ (0x40 ≤ b.toNat ∧ b.toNat ≤ 0x5F) ∨
      (0x60 ≤ b.toNat ∧ b.toNat ≤ 0x7F) ∨ (0xE0 ≤ b.toNat ∧ b.toNat ≤ 0xEF) := by omega
  rcases row with ⟨lo, hi⟩ | ⟨lo, hi⟩ | ⟨lo, hi⟩ | ⟨lo, hi⟩
  · rw [decodeWindow_add o1 o2 lo hi, decodeWindow_add o1 o2 (by omega) (by omega), mid]
  · rw [decodeWindow_sub o1 o2 lo hi, decodeWindow_sub o1 o2 (by omega) (by omega), mid]
  · rw [decodeWindow_mul o1 o2 lo hi, decodeWindow_mul o1 o2 (by omega) (by omega), mid]
  · rw [decodeWindow_label o1 o2 lo hi, decodeWindow_label o1 o2 (by omega) (by omega), mid]

/-! ## Lengths -/

theorem width_decodeBase (b : Byte) : (decodeBase b).width = 1 := by
  unfold decodeBase
  split
  case h_5 | h_6 => split <;> rfl
  all_goals rfl

/-- R95: the width of the decoded instruction is the length that the opcode byte tells. -/
theorem width_decodeWindow (b o1 o2 : Byte) : (decodeWindow b o1 o2).width = lengthOfOpcode b := by
  unfold decodeWindow lengthOfOpcode
  split
  · unfold decodeExt
    split <;> simp_all [Instr.width]
  · exact width_decodeBase b

/-- The lengths of R88's table, by the value of the whole opcode byte. -/
theorem lengthOfOpcode_eq (b : Byte) : lengthOfOpcode b =
    if b.toNat ∈ [0xF2, 0xF3, 0xF5, 0xF8] then 3 else if b.toNat = 0xF4 then 2 else 1 := by
  have hb := b.isLt
  simp only [List.mem_cons, List.not_mem_nil, or_false]
  unfold lengthOfOpcode
  split
  next tag =>
    rw [hiNibble_eq_extTag] at tag
    rw [loNibble_toNat]
    split
    case h_6 => simp only [imp_false] at *; split_ifs <;> omega
    all_goals split_ifs <;> omega
  next tag =>
    rw [hiNibble_eq_extTag] at tag
    rw [if_neg (by omega), if_neg (by omega)]

theorem decode_isOk_iff (b : Byte) (bs : List Byte) :
    (∃ i rest, decode (b :: bs) = .ok (i, rest)) ↔ lengthOfOpcode b ≤ (b :: bs).length := by
  constructor
  · rintro ⟨i, rest, h⟩
    by_contra short
    rw [decode, if_pos (by simpa using short)] at h
    cases h
  · exact fun enough => ⟨_, _, decode_cons enough⟩

end Sys2Proof

namespace Sys2Proof.Machine

theorem eq_wordOf {o1 o2 : Byte} {w : Word} (h : w.toNat = 256 * o1.toNat + o2.toNat) :
    w = wordOf o1 o2 :=
  BitVec.eq_of_toNat_eq (by rw [h, wordOf_toNat])

theorem isReserved_decodeBase (b : Byte) : isReserved (decodeBase b) = false := by
  unfold decodeBase
  split
  case h_5 | h_6 => split <;> rfl
  all_goals rfl

/-- R96: the reserved opcode bytes are 0xF9 to 0xFF. -/
theorem isReserved_decodeWindow (b o1 o2 : Byte) :
    isReserved (decodeWindow b o1 o2) = decide (0xF9 ≤ b.toNat) := by
  have hb := b.isLt
  by_cases tag : 0xF0 ≤ b.toNat
  · rw [decodeWindow_ext tag, decodeExt, loNibble_toNat]
    split
    case h_13 => simp only [imp_false] at *; exact (decide_eq_true (by omega)).symm
    case h_10 | h_11 | h_12 => exact (decide_eq_true (by omega)).symm
    all_goals exact (decide_eq_false (by omega)).symm
  · rw [decodeWindow_base (by omega), isReserved_decodeBase]
    exact (decide_eq_false (by omega)).symm

end Sys2Proof.Machine

namespace Sys2Proof.Proofs

open Sys2Proof.Machine

/-- Settles O3: the length is a function of the opcode byte by the model's definition, its values are
those of R88's table, and the decoder asks for that many bytes and nothing more. -/
theorem opcodeByteAloneTellsLength : Obligations.OpcodeByteAloneTellsLength := by
  intro b bs
  have hb := b.isLt
  refine ⟨width_decodeWindow b, ?_, ?_, ?_, ?_, decode_isOk_iff b bs⟩
  all_goals
    simp only [lengthOfOpcode_eq, List.mem_cons, List.not_mem_nil, or_false]
    split_ifs <;> omega

/-- Settles O4: a base-set byte by its row, an extended one by computing on the literal byte, and the
reserved ones by `isReserved_decodeWindow`. -/
theorem opcodeMapOfEveryByte : Obligations.OpcodeMapOfEveryByte := by
  intro b o1 o2
  refine ⟨?set, ?registers, ?pushAcc, ?popAcc, ?labels, ?noop, ?halt, ?words, ?swap, ?ret, ?cmp,
    ?reserved, ?notReserved⟩
  case set => exact decodeWindow_set o1 o2
  case registers =>
    intro n hn
    obtain rfl := eq_regOfField hn
    refine ⟨decodeWindow_add o1 o2, decodeWindow_sub o1 o2, decodeWindow_mul o1 o2, ?_, ?_⟩
    · intro lo hi even
      simp [decodeWindow_push o1 o2 lo hi, lowBit_of_even even]
    · intro lo hi even
      simp [decodeWindow_pop o1 o2 lo hi, lowBit_of_even even]
  case pushAcc => exact decodeWindow_pushAcc o1 o2
  case popAcc => exact decodeWindow_popAcc o1 o2
  case labels =>
    intro l hl
    obtain rfl := eq_labelOfField hl
    refine ⟨?_, ?_, fun lo hi => ⟨decodeWindow_label o1 o2 lo hi, by omega⟩⟩
    · intro lo hi even
      rw [decodeWindow_goto o1 o2 lo hi, lowBit_of_even even]; rfl
    · intro lo hi odd
      rw [decodeWindow_goto o1 o2 lo hi, lowBit_of_odd odd]; rfl
  case words =>
    intro w hw
    obtain rfl := eq_wordOf hw
    refine ⟨?_, ?_, ?_, ?_⟩ <;> rintro rfl <;> rfl
  case swap =>
    rintro ra rb ha hb rfl
    obtain rfl := eq_regOfNibble (ha.trans (hiNibble_toNat o1).symm)
    obtain rfl := eq_regOfNibble (hb.trans (loNibble_toNat o1).symm)
    rfl
  case reserved => simp [isReserved_decodeWindow]
  case notReserved => simp [isReserved_decodeWindow]
  case noop | halt | ret | cmp => rintro rfl; rfl

end Sys2Proof.Proofs

/-! The encoder of mnemonic strings (R105 to R110): the byte of an operation's name with its numerals,
the bytes that the encoder can give, and the obligations about them. -/

namespace Sys2Proof.Machine

/-! ## From a text to its operands -/

/-- How the mnemonics of an operation begin: its name and the first underscore (R105). -/
def BaseName.head : BaseName → String
  | .set => "set_"
  | .add => "add_"
  | .sub => "sub_"
  | .mul => "mul_"
  | .push => "push_"
  | .pop => "pop_"
  | .goto => "goto_"
  | .label => "label_"

/-- The encoder reads the operation back from the beginning of its mnemonics. -/
theorem baseName?_head (op : BaseName) :
    ∃ name, op.head.toList = name ++ ['_'] ∧ '_' ∉ name ∧ baseName? name = some op := by
  refine ⟨op.head.toList.dropLast, ?_⟩
  cases op <;> decide

/-- Past the name, the encoder reads the operands between the underscores. -/
theorem encodeMnemonic_head (op : BaseName) (rest : String) :
    encodeMnemonic (op.head ++ rest) =
      encodeOperands op ((splitUnderscore rest.toList).map numeral?) := by
  obtain ⟨name, text, noUnderscore, denotes⟩ := baseName?_head op
  have parts : splitUnderscore (op.head ++ rest).toList = name :: splitUnderscore rest.toList := by
    rw [String.toList_append, text, List.append_assoc, List.singleton_append,
      splitUnderscore_append noUnderscore]
  simp only [encodeMnemonic, parts, denotes]

theorem encodeMnemonic_one (op : BaseName) (n : Nat) :
    encodeMnemonic (op.head ++ toString n) = encodeOperands op [some n] := by
  rw [encodeMnemonic_head, splitUnderscore_self (underscore_not_mem_toString n), List.map_singleton,
    numeral?_toString]

theorem encodeMnemonic_two (op : BaseName) (m n : Nat) :
    encodeMnemonic (op.head ++ toString m ++ "_" ++ toString n) =
      encodeOperands op [some m, some n] := by
  have parts : splitUnderscore (toString m ++ ("_" ++ toString n)).toList =
      [(toString m).toList, (toString n).toList] := by
    rw [String.toList_append, String.toList_append]
    exact (splitUnderscore_append (underscore_not_mem_toString m) _).trans
      (congrArg _ (splitUnderscore_self (underscore_not_mem_toString n)))
  rw [String.append_assoc, String.append_assoc, encodeMnemonic_head, parts, List.map_cons,
    List.map_singleton, numeral?_toString, numeral?_toString]

/-! ## From the operands to the byte -/

theorem ranged_eq_ok {lo hi n base : Nat} (low : lo ≤ n) (high : n ≤ hi) :
    ranged lo hi n base = .ok (BitVec.ofNat 8 base) := if_pos ⟨low, high⟩

theorem ranged_inv {lo hi n base : Nat} {b : Byte} (h : ranged lo hi n base = .ok b) :
    lo ≤ n ∧ n ≤ hi ∧ b = BitVec.ofNat 8 base := by
  unfold ranged at h
  split at h
  next inside =>
    cases h
    exact ⟨inside.1, inside.2, rfl⟩
  next => cases h

/-- Every bit of the byte that R97 calls ignored is 0. -/
def IgnoredBitsZero (b : Byte) : Prop :=
  (0x20 ≤ b.toNat ∧ b.toNat ≤ 0x7F ∨ 0xE0 ≤ b.toNat ∧ b.toNat ≤ 0xEF → b.toNat % 2 = 0) ∧
  (0x80 ≤ b.toNat → b.toNat ≤ 0x9F → b.toNat % 2 = 1 → b = 0x81) ∧
  (0xA0 ≤ b.toNat → b.toNat ≤ 0xBF → b.toNat % 2 = 1 → b = 0xA1)

theorem ignoredBitsZero_of_even {b : Byte} (h : b.toNat % 2 = 0) : IgnoredBitsZero b :=
  ⟨fun _ => h, fun _ _ odd => by omega, fun _ _ odd => by omega⟩

/-- SET and GOTO bytes have no ignored bit. -/
theorem ignoredBitsZero_of_set_or_goto {b : Byte}
    (h : b.toNat ≤ 0x1F ∨ 0xC0 ≤ b.toNat ∧ b.toNat ≤ 0xDF) : IgnoredBitsZero b :=
  ⟨fun _ => by omega, fun _ _ _ => by omega, fun _ _ _ => by omega⟩

/-- A byte that the encoder forms as an even number. -/
theorem ranged_ignoredBitsZero {lo hi n base : Nat} {b : Byte} (even : base % 2 = 0)
    (h : ranged lo hi n base = .ok b) : IgnoredBitsZero b := by
  obtain ⟨_, _, rfl⟩ := ranged_inv h
  apply ignoredBitsZero_of_even
  rw [BitVec.toNat_ofNat]
  omega

theorem encodeOperands_ignoredBitsZero {op : BaseName} {args : List (Option Nat)} {b : Byte}
    (h : encodeOperands op args = .ok b) : IgnoredBitsZero b := by
  unfold encodeOperands at h
  split at h
  case h_1 n =>
    obtain ⟨_, high, rfl⟩ := ranged_inv h
    apply ignoredBitsZero_of_set_or_goto
    rw [BitVec.toNat_ofNat]
    omega
  case h_2 | h_3 | h_4 | h_8 => exact ranged_ignoredBitsZero (by omega) h
  case h_5 | h_6 =>
    split at h
    · cases h
      unfold IgnoredBitsZero
      decide
    · exact ranged_ignoredBitsZero (by omega) h
  case h_7 l o =>
    split at h
    next inside =>
      obtain ⟨_, _⟩ := inside
      cases h
      apply ignoredBitsZero_of_set_or_goto
      rw [BitVec.toNat_ofNat]
      omega
    next => cases h
  case h_9 => cases h

theorem encodeMnemonic_ignoredBitsZero {text : String} {b : Byte} (h : encodeMnemonic text = .ok b) :
    IgnoredBitsZero b := by
  unfold encodeMnemonic at h
  split at h
  next => cases h; exact ignoredBitsZero_of_even rfl
  next name args =>
    split at h
    next => cases h; exact ignoredBitsZero_of_even rfl
    next op => exact encodeOperands_ignoredBitsZero h

end Sys2Proof.Machine

namespace Sys2Proof.Proofs

open Sys2Proof.Machine

/-- Settles O6: the decoder reads only the fields that its rows name, and every byte the encoder forms
is even where bit 0 is ignored, or is 0x81 or 0xA1. -/
theorem ignoredBitsDoNotMatter : Obligations.IgnoredBitsDoNotMatter :=
  ⟨fun _ _ o1 o2 => decodeWindow_congr_of_half_eq o1 o2, fun _ o1 o2 => decodeWindow_pushAcc o1 o2,
    fun _ o1 o2 => decodeWindow_popAcc o1 o2, fun _ _ => encodeMnemonic_ignoredBitsZero⟩

/-- Settles O8: every mnemonic is an operation's name and its numerals, and its operands are in the
range that the encoder asks for. -/
theorem encoderGivesTheStatedBytes : Obligations.EncoderGivesTheStatedBytes := by
  intro n
  refine ⟨fun hi => ?_, fun lo hi => ⟨?_, ?_, ?_, ?_, ?_⟩, ?_, fun hi => ⟨?_, fun o ho => ?_⟩⟩
  · exact (encodeMnemonic_one .set n).trans (ranged_eq_ok (Nat.zero_le n) hi)
  · exact (encodeMnemonic_one .add n).trans (ranged_eq_ok lo hi)
  · exact (encodeMnemonic_one .sub n).trans (ranged_eq_ok lo hi)
  · exact (encodeMnemonic_one .mul n).trans (ranged_eq_ok lo hi)
  · exact (encodeMnemonic_one .push n).trans ((if_neg (by omega)).trans (ranged_eq_ok lo hi))
  · exact (encodeMnemonic_one .pop n).trans ((if_neg (by omega)).trans (ranged_eq_ok lo hi))
  · rintro rfl
    exact ⟨encodeMnemonic_one .push 0, encodeMnemonic_one .pop 0⟩
  · exact (encodeMnemonic_one .label n).trans (ranged_eq_ok (Nat.zero_le n) hi)
  · exact (encodeMnemonic_two .goto n o).trans (if_pos ⟨hi, ho⟩)

end Sys2Proof.Proofs

/-! SET (R120): the frame of a register write that advances PC, the byte of SET, and the obligation about
it. -/

namespace Sys2Proof

/-- Bits 4:0 of a byte whose value is that of an immediate are the immediate (R82). -/
theorem extractLsb'_eq_imm5 {b : Byte} {imm5 : BitVec 5} (h : b.toNat = imm5.toNat) :
    b.extractLsb' 0 5 = imm5 := by
  apply BitVec.eq_of_toNat_eq
  rw [BitVec.extractLsb'_toNat, Nat.shiftRight_zero, h, Nat.mod_eq_of_lt imm5.isLt]

/-- The one byte of SET has the value of its immediate (R82). -/
theorem encode_set (imm5 : BitVec 5) : encode (.set imm5) = [BitVec.ofNat 8 imm5.toNat] := by
  rw [encode, BitVec.ofNat_toNat, BitVec.setWidth_eq_append (by decide : 5 ≤ 8)]
  rfl

end Sys2Proof

namespace Sys2Proof.Machine

/-- Writing a register and going on to the next instruction changes that register and PC alone. -/
theorem onlyRegs_setX_advance (s : State) (d : RegIdx) (v : Word) (n : Nat) :
    OnlyRegs [d] s ((s.setX d v).advance n) := by
  refine ⟨fun r hr => ?_, rfl, rfl, fun _ => rfl, ⟨rfl, fun _ => rfl, rfl, rfl⟩, rfl, rfl⟩
  rw [x_advance, x_setX_ne s v (List.ne_of_not_mem_cons hr)]

end Sys2Proof.Machine

namespace Sys2Proof.Proofs

open Sys2Proof.Machine

/-- Settles O16: SET is one register write and an advance by 1, and its byte is the encoder's for its
string (`encoderGivesTheStatedBytes`). -/
theorem setLoadsItsImmediate : Obligations.SetLoadsItsImmediate := by
  intro imm5 s
  have bound := imm5.isLt
  refine ⟨⟨_, rfl, ?value, rfl, onlyRegs_setX_advance s 0 _ 1⟩, ?decodes, ?assembles⟩
  case value =>
    rw [x_advance, x_setX_self, BitVec.toNat_setWidth_of_le (by decide)]
  case decodes =>
    intro b o1 o2 hb
    rw [decodeWindow_set o1 o2 (by omega), extractLsb'_eq_imm5 hb]
  case assembles =>
    intro text b htext hb
    obtain rfl : "set_" ++ toString imm5.toNat = text := Option.some.inj htext
    obtain rfl : BitVec.ofNat 8 imm5.toNat = b := by simpa [encode_set] using hb
    exact (encoderGivesTheStatedBytes imm5.toNat).1 (by omega)

end Sys2Proof.Proofs

/-! ADD, SUB and MUL (R125 to R129): the byte of the base set's register operations, and the obligation
about the three. -/

namespace Sys2Proof

/-- The value of a base-set byte by its three fields (R83 to R87). -/
theorem baseByte_toNat (op : BitVec 3) (mid : BitVec 4) (low : BitVec 1) :
    (baseByte op mid low).toNat = 32 * op.toNat + (2 * mid.toNat + low.toNat) := by
  have inner : 2 * mid.toNat + low.toNat < 2 ^ 5 := by omega
  have lowField : (mid ++ low : BitVec 5).toNat = 2 * mid.toNat + low.toNat := by
    rw [BitVec.toNat_append, ← Nat.shiftLeft_add_eq_or_of_lt low.isLt, Nat.shiftLeft_eq, mul_comm]
  rw [baseByte, BitVec.toNat_append, lowField, ← Nat.shiftLeft_add_eq_or_of_lt inner, Nat.shiftLeft_eq,
    mul_comm]

theorem fieldOfReg_toNat (n : RegIdx) : (fieldOfReg n).toNat = n.val - 1 := by
  rw [fieldOfReg, BitVec.toNat_ofNat]
  omega

/-- The byte of a register operation, as the encoder of strings writes it (R83, R107, R108). -/
theorem baseByte_fieldOfReg (op : BitVec 3) (n : RegIdx) :
    baseByte op (fieldOfReg n) 0 = BitVec.ofNat 8 (32 * op.toNat + 2 * (n.val - 1)) := by
  apply BitVec.eq_of_toNat_eq
  rw [baseByte_toNat, fieldOfReg_toNat, BitVec.toNat_ofNat, show (0 : BitVec 1).toNat = 0 from rfl]
  omega

end Sys2Proof

namespace Sys2Proof.Machine

theorem assembles_of_byte {i : Instr} {text : String} {b : Byte} (string : i.encoderString = some text)
    (bytes : encode i = [b]) (h : encodeMnemonic text = .ok b) : Assembles i := by
  intro text' b' htext hb
  obtain rfl : text = text' := Option.some.inj (string.symm.trans htext)
  obtain rfl : b = b' := List.singleton_inj.1 (bytes.symm.trans hb)
  exact h

/-- An operation of the base set on a register assembles if the encoder gives its string
the byte with its code in bits 7:5 and `n - 1` in bits 4:1. -/
theorem assembles_regOp {i : Instr} {text : String} {n : RegIdx} (op : BitVec 3)
    (string : i.encoderString = some text) (bytes : encode i = [baseByte op (fieldOfReg n) 0])
    (h : encodeMnemonic text = .ok (BitVec.ofNat 8 (32 * op.toNat + 2 * (n.val - 1)))) :
    Assembles i :=
  assembles_of_byte string bytes (h.trans (congrArg _ (baseByte_fieldOfReg op n).symm))

/-- The difference of two words is the integers' difference reduced modulo 65536 (R125, R128). -/
theorem toNat_sub_eq_emod (a b : Word) : ((a - b).toNat : Int) = ((a.toNat : Int) - b.toNat) % 65536 := by
  have := a.isLt
  have := b.isLt
  rw [BitVec.toNat_sub]
  omega

end Sys2Proof.Machine

namespace Sys2Proof.Proofs

open Sys2Proof.Machine

/-- Settles O18: each of the three is one register write and an advance by 1, its value the word
operation's; the bytes are those of `encoderGivesTheStatedBytes`. -/
theorem addSubMulModulo65536 : Obligations.AddSubMulModulo65536 := by
  intro n s
  refine ⟨⟨_, rfl, ?sum, rfl, onlyRegs_setX_advance s 0 _ 1⟩,
    ⟨_, rfl, ?difference, rfl, onlyRegs_setX_advance s 0 _ 1⟩,
    ⟨_, rfl, ?product, rfl, onlyRegs_setX_advance s 0 _ 1⟩, fun nonzero => ?bytes⟩
  case sum =>
    rw [x_advance, x_setX_self, BitVec.toNat_add]
  case difference =>
    rw [x_advance, x_setX_self, toNat_sub_eq_emod]
  case product =>
    rw [x_advance, x_setX_self, BitVec.toNat_mul]
  case bytes =>
    have inside : 1 ≤ n.val ∧ n.val ≤ 16 := ⟨Fin.pos_iff_ne_zero.2 nonzero, Fin.is_le n⟩
    obtain ⟨add, sub, mul, -, -⟩ := (encoderGivesTheStatedBytes n.val).2.1 inside.1 inside.2
    refine ⟨assembles_regOp 1 rfl rfl add, assembles_regOp 2 rfl rfl sub,
      assembles_regOp 3 rfl rfl mul, fun b o1 o2 field => ?_⟩
    obtain rfl := eq_regOfField field
    exact ⟨decodeWindow_add o1 o2, decodeWindow_sub o1 o2, decodeWindow_mul o1 o2⟩

end Sys2Proof.Proofs

/-! PUSH and POP (R135 to R140): what either form of each does to the state, a fault included, and the
obligations about the single instructions. -/

namespace Sys2Proof.Machine

/-- A push of a register, in either form, with no slot free. -/
theorem exec_pushOf_full {i : Instr} {r : RegIdx} {s : State} (h : PushOf i r) (full : StackFull s) :
    exec i s = .next (s.takeFault .stackOverflow) := by
  rcases h with rfl | ⟨rfl, rfl⟩ <;> exact pushFrom_full full _

/-- A pop into a register, in either form, with no slot used. -/
theorem exec_popOf_empty {i : Instr} {r : RegIdx} {s : State} (h : PopOf i r) (empty : StackEmpty s) :
    exec i s = .next (s.takeFault .stackUnderflow) := by
  rcases h with rfl | ⟨rfl, rfl⟩ <;> exact popInto_empty empty _

/-- R135, R137 of either form of PUSH. -/
theorem pushesRegister_of_pushOf {i : Instr} {r : RegIdx} (h : PushOf i r) (s : State) :
    PushesRegister i r s := by
  constructor
  case left =>
    intro room
    refine ⟨_, exec_pushOf h room, pushSlot_add_two room, rfl, ?high, ?low,
      fun a outside => read_writeWord_ne (s.x r) outside, rfl, fun _ _ => rfl, rfl,
      ⟨rfl, fun _ => rfl, rfl, rfl⟩, rfl, rfl⟩
    case high => rw [advance_mem, pushed_mem, read_writeWord_hi, hiByte_toNat]
    case low => rw [advance_mem, pushed_mem, read_writeWord_lo, loByte_toNat]
  case right => exact fun full => ⟨_, exec_pushOf_full h full, takesFault_takeFault _ s⟩

/-- R136, R139 of either form of POP. -/
theorem popsRegister_of_popOf {i : Instr} {r : RegIdx} (h : PopOf i r) (s : State) :
    PopsRegister i r s := by
  constructor
  case left =>
    intro slot
    refine ⟨_, exec_popOf h slot, ?value, rfl, rfl, fun q other => ?kept, fun _ => rfl, rfl,
      ⟨rfl, fun _ => rfl, rfl, rfl⟩, rfl, rfl⟩
    case value =>
      rw [x_advance, x_setX_self]
      exact bigEndianAt_readWord s.mem s.sp.toNat
    case kept => rw [x_advance, x_setX_ne _ _ (List.ne_of_not_mem_cons other), x_popped]
  case right => exact fun empty => ⟨_, exec_popOf_empty h empty, takesFault_takeFault _ s⟩

end Sys2Proof.Machine

namespace Sys2Proof.Proofs

open Sys2Proof.Machine

/-- Settles O19: both forms are `pushesRegister_of_pushOf`; the bytes are those of
`encoderGivesTheStatedBytes`. -/
theorem pushStoresBelowTheStack : Obligations.PushStoresBelowTheStack := by
  refine ⟨fun n s => pushesRegister_of_pushOf (.inl rfl) s,
    fun s => pushesRegister_of_pushOf (.inr ⟨rfl, rfl⟩) s, ?register, ?accumulator, ?decodes⟩
  case register =>
    intro n nonzero
    obtain ⟨-, -, -, push, -⟩ :=
      (encoderGivesTheStatedBytes n.val).2.1 (Fin.pos_iff_ne_zero.2 nonzero) (Fin.is_le n)
    exact assembles_regOp 4 rfl rfl push
  case accumulator =>
    exact assembles_of_byte rfl rfl ((encoderGivesTheStatedBytes 0).2.2.1 rfl).1
  case decodes =>
    intro n b o1 o2 field lo hi
    obtain rfl := eq_regOfField field
    split
    next even => rw [decodeWindow_push o1 o2 lo hi, lowBit_of_even even]; rfl
    next odd => exact decodeWindow_pushAcc o1 o2 lo hi (by omega)

/-- Settles O20: both forms are `popsRegister_of_popOf`; the bytes are those of
`encoderGivesTheStatedBytes`. -/
theorem popLoadsFromTheStack : Obligations.PopLoadsFromTheStack := by
  refine ⟨fun n s => popsRegister_of_popOf (.inl rfl) s,
    fun s => popsRegister_of_popOf (.inr ⟨rfl, rfl⟩) s, ?register, ?accumulator, ?decodes⟩
  case register =>
    intro n nonzero
    obtain ⟨-, -, -, -, pop⟩ :=
      (encoderGivesTheStatedBytes n.val).2.1 (Fin.pos_iff_ne_zero.2 nonzero) (Fin.is_le n)
    exact assembles_regOp 5 rfl rfl pop
  case accumulator =>
    exact assembles_of_byte rfl rfl ((encoderGivesTheStatedBytes 0).2.2.1 rfl).2
  case decodes =>
    intro n b o1 o2 field lo hi
    obtain rfl := eq_regOfField field
    split
    next even => rw [decodeWindow_pop o1 o2 lo hi, lowBit_of_even even]; rfl
    next odd => exact decodeWindow_popAcc o1 o2 lo hi (by omega)

end Sys2Proof.Proofs

/-! Runs of pushes and pops (R141): the words that stand on the stack, what a run of pushes and a run of
pops do to the state, and the obligation about the two together. -/

namespace Sys2Proof.Machine

/-! ## Running a list of instructions -/

theorem execAll_cons {i : Instr} {s t : State} (h : exec i s = .next t) (is : List Instr) :
    execAll (i :: is) s = execAll is t := by
  rw [execAll, h]

theorem execAll_append {is : List Instr} {s t : State} (h : execAll is s = .next t)
    (js : List Instr) : execAll (is ++ js) s = execAll js t := by
  induction is generalizing s with
  | nil => cases h; rfl
  | cons i is ih =>
    rcases exec_cases i s with e | ⟨f, e⟩
    all_goals
      rw [execAll_cons e] at h
      rw [List.cons_append, execAll_cons e, ih h]

/-! ## The words on the stack -/

/-- A word written below an address does not show in the words from there on. -/
theorem wordsFrom_writeWord_of_le {a b : Nat} (h : a + 2 ≤ b) (m : Memory) (w : Word) (n : Nat) :
    wordsFrom (m.writeWord a w) n b = wordsFrom m n b := by
  induction n generalizing b with
  | zero => rfl
  | succ n ih => rw [wordsFrom, wordsFrom, readWord_writeWord_ne w (by omega), ih (by omega)]

/-- The words `vs` stand on the stack, the first of them on top. -/
def StackHolds (vs : List Word) (s : State) : Prop := wordsFrom s.mem vs.length s.sp.toNat = vs

theorem stackHolds_nil (s : State) : StackHolds [] s := rfl

/-- A push puts its value on top. -/
theorem StackHolds.pushed {vs : List Word} {s : State} (h : StackHolds vs s) (room : ¬ StackFull s)
    (v : Word) : StackHolds (v :: vs) (s.pushed v) := by
  have below : wordsFrom (s.mem.writeWord s.pushSlot v) vs.length (s.pushSlot + 2) = vs := by
    rw [wordsFrom_writeWord_of_le (Nat.le_refl _), pushSlot_add_two room]
    exact h
  exact congrArg₂ List.cons (readWord_writeWord s.mem s.pushSlot v) below

theorem StackHolds.top {v : Word} {vs : List Word} {s : State} (h : StackHolds (v :: vs) s) :
    s.mem.readWord s.sp.toNat = v :=
  (List.cons.inj h).1

/-- A pop that finds a slot moves SP up by 2 without wrapping, where `STACK_HEAD` fits in 16 bits. -/
theorem popped_sp_toNat {s : State} (head : s.cfg.stackHead ≤ 65535) (slot : ¬ StackEmpty s) :
    s.popped.sp.toNat = s.sp.toNat + 2 := by
  rw [stackEmpty_iff] at slot
  have two : (2 : Word).toNat = 2 := rfl
  rw [popped_sp, BitVec.toNat_add, two]
  omega

/-- A pop takes the top away. -/
theorem StackHolds.popped {v : Word} {vs : List Word} {s : State} (h : StackHolds (v :: vs) s)
    (head : s.cfg.stackHead ≤ 65535) (slot : ¬ StackEmpty s) : StackHolds vs s.popped := by
  rw [StackHolds, popped_sp_toNat head slot]
  exact (List.cons.inj h).2

/-! ## A run of pushes -/

/-- What `n` pushes that had room did to the state besides the values they stored: SP went down by `n`
slots, and of memory only those slots changed. -/
structure PushesRun (n : Nat) (s t : State) : Prop where
  cfg : t.cfg = s.cfg
  sp : t.sp.toNat + 2 * n = s.sp.toNat
  flag : t.flag = s.flag
  regs : RegsKeptBut [] s t
  mem : MemKeptBut t.sp.toNat (2 * n) s t

theorem pushesRun_zero (s : State) : PushesRun 0 s s :=
  ⟨rfl, rfl, rfl, fun _ _ => rfl, fun _ _ => rfl⟩

theorem pushesRun_pushed {s : State} (room : ¬ StackFull s) (v : Word) (k : Nat) :
    PushesRun 1 s ((s.pushed v).advance k) :=
  ⟨rfl, pushSlot_add_two room, rfl, fun _ _ => rfl, fun _ outside => read_writeWord_ne v outside⟩

theorem PushesRun.trans {m n : Nat} {s t u : State} (hst : PushesRun m s t) (htu : PushesRun n t u) :
    PushesRun (n + m) s u where
  cfg := htu.cfg.trans hst.cfg
  sp := by have := hst.sp; have := htu.sp; omega
  flag := htu.flag.trans hst.flag
  regs r hr := (htu.regs r hr).trans (hst.regs r hr)
  mem a outside := by
    have := htu.sp
    exact (htu.mem a (by omega)).trans (hst.mem a (by omega))

/-- Pushes with room for all of them run, and put their registers on the stack, the last one on top. -/
theorem execAll_pushes {is : List Instr} {rs : List RegIdx} (forms : List.Forall₂ PushOf is rs)
    {s : State} (room : s.cfg.stackLimit + 2 * rs.length ≤ s.sp.toNat) {vs : List Word}
    (holds : StackHolds vs s) :
    ∃ t, execAll is s = .next t ∧ PushesRun rs.length s t ∧
      StackHolds ((rs.map s.x).reverse ++ vs) t := by
  induction forms generalizing s vs with
  | nil => exact ⟨s, rfl, pushesRun_zero s, holds⟩
  | @cons i r is rs form _ ih =>
    rw [List.length_cons] at room
    have notFull : ¬ StackFull s := by rw [stackFull_iff]; omega
    have first := pushesRun_pushed notFull (s.x r) 1
    have roomAfter : s.cfg.stackLimit + 2 * rs.length ≤ ((s.pushed (s.x r)).advance 1).sp.toNat := by
      have := first.sp
      omega
    obtain ⟨t, run, rest, stack⟩ :=
      ih (s := (s.pushed (s.x r)).advance 1) roomAfter (holds.pushed notFull (s.x r))
    refine ⟨t, (execAll_cons (exec_pushOf form notFull) is).trans run, first.trans rest, ?_⟩
    rw [List.map_cons, List.reverse_cons, List.append_assoc]
    exact stack

/-! ## A run of pops -/

/-- What pops into the registers `qs` did to the state, from a stack with the words `vs` on top: each
register holds the word of its last pop. -/
structure PopsRun (qs : List RegIdx) (vs : List Word) (s t : State) : Prop where
  sp : t.sp.toNat = s.sp.toNat + 2 * qs.length
  flag : t.flag = s.flag
  mem : t.mem = s.mem
  regs : RegsKeptBut qs s t
  values : ∀ (k : Nat) (q : RegIdx) (v : Word), qs[k]? = some q → vs[k]? = some v →
    q ∉ qs.drop (k + 1) → t.x q = v

theorem popsRun_nil (vs : List Word) (s : State) : PopsRun [] vs s s :=
  ⟨rfl, rfl, rfl, fun _ _ => rfl, nofun⟩

/-- One pop, and then a run of pops. -/
theorem PopsRun.cons {q : RegIdx} {qs : List RegIdx} {v : Word} {vs : List Word} {s t : State}
    (head : s.cfg.stackHead ≤ 65535) (slot : ¬ StackEmpty s)
    (h : PopsRun qs vs ((s.popped.setX q v).advance 1) t) : PopsRun (q :: qs) (v :: vs) s t where
  sp := by
    have first : ((s.popped.setX q v).advance 1).sp.toNat = s.sp.toNat + 2 :=
      popped_sp_toNat head slot
    rw [h.sp, first, List.length_cons]
    omega
  flag := h.flag
  mem := h.mem
  regs r hr := by
    rw [h.regs r (List.not_mem_of_not_mem_cons hr), x_advance,
      x_setX_ne _ _ (List.ne_of_not_mem_cons hr), x_popped]
  values k p w hp hw last := by
    cases k with
    | zero =>
      obtain rfl : q = p := Option.some.inj hp
      obtain rfl : v = w := Option.some.inj hw
      rw [h.regs q last, x_advance, x_setX_self]
    | succ k => exact h.values k p w hp hw last

/-- Pops of at most the words `vs` on the stack run, where these words lie below `STACK_HEAD`. -/
theorem execAll_pops {js : List Instr} {qs : List RegIdx} (forms : List.Forall₂ PopOf js qs)
    {s : State} {vs : List Word} (holds : StackHolds vs s) (enough : qs.length ≤ vs.length)
    (inside : s.sp.toNat + 2 * vs.length ≤ s.cfg.stackHead) (head : s.cfg.stackHead ≤ 65535) :
    ∃ t, execAll js s = .next t ∧ PopsRun qs vs s t := by
  induction forms generalizing s vs with
  | nil => exact ⟨s, rfl, popsRun_nil vs s⟩
  | @cons j q js qs form _ ih =>
    cases vs with
    | nil => cases enough
    | cons v vs =>
      rw [List.length_cons] at inside
      have slot : ¬ StackEmpty s := by rw [stackEmpty_iff]; omega
      have runs := exec_popOf form slot
      rw [holds.top] at runs
      have insideAfter : s.popped.sp.toNat + 2 * vs.length ≤ s.cfg.stackHead := by
        rw [popped_sp_toNat head slot]
        omega
      obtain ⟨t, run, rest⟩ := ih (s := (s.popped.setX q v).advance 1) (holds.popped head slot)
        (Nat.le_of_succ_le_succ enough) insideAfter head
      exact ⟨t, (execAll_cons runs js).trans run, rest.cons head slot⟩

theorem stackHead_le_of_wf {c : Config} (h : c.wf = true) : c.stackHead ≤ 65535 := by
  simp only [Config.wf, Bool.and_eq_true, decide_eq_true_eq] at h
  omega

end Sys2Proof.Machine

namespace Sys2Proof.Proofs

open Sys2Proof.Machine

/-- Settles O40: the pushes leave their registers on the stack in reverse (`execAll_pushes`), and the
pops take words from the top of it (`execAll_pops`). -/
theorem pushesThenPopsReturnTheValues : Obligations.PushesThenPopsReturnTheValues := by
  intro is js rs qs s pushForms popForms wf high room fewer
  have head := stackHead_le_of_wf wf
  obtain ⟨t, runPushes, pushes, stack⟩ := execAll_pushes pushForms room (stackHolds_nil s)
  have spPushes := pushes.sp
  rw [List.append_nil] at stack
  have depth : (rs.map s.x).reverse.length = rs.length := by simp
  obtain ⟨u, runPops, pops⟩ := execAll_pops popForms stack (by omega)
    (by rw [pushes.cfg]; omega) (by rw [pushes.cfg]; exact head)
  have spPops := pops.sp
  refine ⟨u, (execAll_append runPushes js).trans runPops, by omega, ?restored, ?values, ?registers,
    ?memory, pops.flag.trans pushes.flag⟩
  case restored =>
    intro same
    exact BitVec.eq_of_toNat_eq (by omega)
  case values =>
    intro k q r hq hr last
    refine pops.values k q (s.x r) hq ?_ last
    rw [← List.map_reverse, List.getElem?_map, hr, Option.map_some]
  case registers =>
    exact fun r kept => (pops.regs r kept).trans (pushes.regs r List.not_mem_nil)
  case memory =>
    intro a outside
    rw [pops.mem]
    exact pushes.mem a (by omega)

end Sys2Proof.Proofs

/-! GOTO, LABEL and NOOP (R145, R146, R155): the frame of an instruction that writes PC alone, the bytes
with a label id, and the obligations about the three. -/

namespace Sys2Proof

theorem fieldOfLabel_toNat (l : LabelId) : (fieldOfLabel l).toNat = l.val := by
  rw [fieldOfLabel, BitVec.toNat_ofNat, Nat.mod_eq_of_lt l.isLt]

/-- The byte of an operation on a label, as the encoder of strings writes it (R86, R87, R109, R110). -/
theorem baseByte_fieldOfLabel (op : BitVec 3) (l : LabelId) (low : BitVec 1) :
    baseByte op (fieldOfLabel l) low = BitVec.ofNat 8 (32 * op.toNat + 2 * l.val + low.toNat) := by
  apply BitVec.eq_of_toNat_eq
  rw [baseByte_toNat, fieldOfLabel_toNat, BitVec.toNat_ofNat]
  omega

end Sys2Proof

namespace Sys2Proof.Machine

theorem onlyRegs_jump (s : State) (target : Word) : OnlyRegs [] s (s.jump target) :=
  ⟨fun _ _ => rfl, rfl, rfl, fun _ => rfl, ⟨rfl, fun _ => rfl, rfl, rfl⟩, rfl, rfl⟩

theorem onlyRegs_advance (s : State) (n : Nat) : OnlyRegs [] s (s.advance n) :=
  onlyRegs_jump s (s.advance n).pc

theorem taken_z_iff (s : State) : s.taken .z = true ↔ s.x 0 = 0 := by simp [taken_iff]

theorem taken_nz_iff (s : State) : s.taken .nz = true ↔ s.x 0 ≠ 0 := by simp [taken_iff]

theorem exec_goto_of_taken {s : State} {c : Cond} (taken : s.taken c = true) (l : LabelId) :
    exec (.goto l c) s = .next (s.jump (s.labelAt l)) :=
  congrArg Host.Outcome.next (if_pos taken)

theorem exec_goto_of_not_taken {s : State} {c : Cond} (notTaken : ¬ s.taken c = true) (l : LabelId) :
    exec (.goto l c) s = .next (s.advance 1) :=
  congrArg Host.Outcome.next (if_neg notTaken)

/-- GOTO assembles under either condition (R109). -/
theorem assembles_goto (l : LabelId) (c : Cond) : Assembles (.goto l c) := by
  obtain ⟨-, -, -, labelled⟩ := Proofs.encoderGivesTheStatedBytes l.val
  obtain ⟨-, goto⟩ := labelled (Fin.is_le l)
  have byte := goto (bitOfCond c).toNat (Nat.le_of_lt_succ (bitOfCond c).isLt)
  exact assembles_of_byte rfl rfl
    (byte.trans (congrArg _ (baseByte_fieldOfLabel 6 l (bitOfCond c)).symm))

/-- LABEL assembles, for every id that a string can name (R110). -/
theorem assembles_label (l : LabelId) : Assembles (.label l) := by
  obtain ⟨-, -, -, labelled⟩ := Proofs.encoderGivesTheStatedBytes l.val
  obtain ⟨label, -⟩ := labelled (Fin.is_le l)
  exact assembles_of_byte rfl rfl (label.trans (congrArg _ (baseByte_fieldOfLabel 7 l 0).symm))

end Sys2Proof.Machine

namespace Sys2Proof.Proofs

open Sys2Proof.Machine

/-- Settles O21: GOTO is a jump to the label's entry where its condition on R0 holds and an advance by 1
where it does not, and either changes PC alone. -/
theorem gotoJumpsOnItsCondition : Obligations.GotoJumpsOnItsCondition := by
  intro l s
  have jumps : ∀ {c}, s.taken c = true →
      ∃ t, exec (.goto l c) s = .next t ∧ t.pc = s.labelAt l ∧ OnlyRegs [] s t :=
    fun taken => ⟨_, exec_goto_of_taken taken l, rfl, onlyRegs_jump s _⟩
  have advances : ∀ {c}, ¬ s.taken c = true →
      ∃ t, exec (.goto l c) s = .next t ∧ t.pc = s.pc + 1 ∧ OnlyRegs [] s t :=
    fun notTaken => ⟨_, exec_goto_of_not_taken notTaken l, rfl, onlyRegs_advance s 1⟩
  refine ⟨fun zero => ⟨jumps ?zeroZ, advances ?zeroNz⟩,
    fun nonzero => ⟨advances ?nonzeroZ, jumps ?nonzeroNz⟩,
    assembles_goto l .z, assembles_goto l .nz, fun b o1 o2 byte => ?even, fun b o1 o2 byte => ?odd⟩
  case zeroZ => exact (taken_z_iff s).2 zero
  case zeroNz => exact fun taken => (taken_nz_iff s).1 taken zero
  case nonzeroZ => exact fun taken => nonzero ((taken_z_iff s).1 taken)
  case nonzeroNz => exact (taken_nz_iff s).2 nonzero
  case even =>
    obtain ⟨-, -, -, -, labelled, -⟩ := opcodeMapOfEveryByte b o1 o2
    exact (labelled l (by omega)).1 (by omega) (by omega) (by omega)
  case odd =>
    obtain ⟨-, -, -, -, labelled, -⟩ := opcodeMapOfEveryByte b o1 o2
    exact (labelled l (by omega)).2.1 (by omega) (by omega) (by omega)

/-- Settles O22: both are an advance by 1, which changes PC alone. -/
theorem labelAndNoopOnlyAdvance : Obligations.LabelAndNoopOnlyAdvance := by
  refine ⟨fun l s => ⟨⟨_, rfl, rfl, onlyRegs_advance s 1⟩, fun executed =>
      ⟨assembles_label l, fun b o1 o2 byte => ?label⟩⟩,
    fun s => ⟨_, rfl, rfl, onlyRegs_advance s 1⟩, fun _ _ => rfl⟩
  case label =>
    obtain ⟨-, -, -, -, labelled, -⟩ := opcodeMapOfEveryByte b o1 o2
    exact ((labelled l (by omega)).2.2 (by omega) (by omega)).1

end Sys2Proof.Proofs

/-! The Resolver (R203, R147): what its pass over the first bytes of memory leaves in the label table, and
the obligation about it. -/

namespace Sys2Proof.Machine

/-- The byte of memory at `k` defines label `l` (R203). -/
def LabelByte (m : Memory) (l : LabelId) (k : Nat) : Prop :=
  baseOp (m.read k) = 0b111 ∧ (midField (m.read k)).toNat = l.val

/-- The label table after the Resolver's pass over the first `n` bytes. -/
def resolveFirst (m : Memory) (labels : Vector Word 16) (n : Nat) : Vector Word 16 :=
  (List.range n).foldl (resolveByte m) labels

theorem labelAt_preprocess (s : State) (l : LabelId) :
    s.preprocess.labelAt l = (resolveFirst s.mem s.labels s.progLen.toNat)[l.val] := rfl

theorem resolveFirst_succ (m : Memory) (labels : Vector Word 16) (n : Nat) :
    resolveFirst m labels (n + 1) = resolveByte m (resolveFirst m labels n) n := by
  rw [resolveFirst, List.range_succ, List.foldl_append]
  rfl

section Pass

variable {m : Memory} {l : LabelId} {n : Nat}

theorem resolveFirst_succ_of_labelByte (h : LabelByte m l n) (labels : Vector Word 16) :
    (resolveFirst m labels (n + 1))[l.val] = BitVec.ofNat 16 (n + 1) := by
  simp only [resolveFirst_succ, resolveByte_getElem]
  exact if_pos h

theorem resolveFirst_succ_of_not_labelByte (h : ¬ LabelByte m l n) (labels : Vector Word 16) :
    (resolveFirst m labels (n + 1))[l.val] = (resolveFirst m labels n)[l.val] := by
  simp only [resolveFirst_succ, resolveByte_getElem]
  exact if_neg h

/-- From offset `k` on, the pass keeps the entry of a label that no byte there defines. -/
theorem resolveFirst_getElem_eq {k : Nat} (le : k ≤ n) (none : ∀ j, k ≤ j → j < n → ¬ LabelByte m l j)
    (labels : Vector Word 16) :
    (resolveFirst m labels n)[l.val] = (resolveFirst m labels k)[l.val] := by
  induction n, le using Nat.le_induction with
  | base => rfl
  | succ n le ih =>
    rw [resolveFirst_succ_of_not_labelByte (none n le (Nat.lt_succ_self n))]
    exact ih fun j low high => none j low (Nat.lt_succ_of_lt high)

end Pass

/-- Where memory holds `bytes`, its definitions of labels are theirs. -/
theorem defines_iff_labelByte {m : Memory} {bytes : List Byte}
    (holds : ∀ k b, bytes[k]? = some b → m.read k = b) {l : LabelId} {k : Nat} (inside : k < bytes.length) :
    Defines bytes l k ↔ LabelByte m l k := by
  have byte : bytes[k]? = some (m.read k) := by
    rw [List.getElem?_eq_getElem inside, holds k _ (List.getElem?_eq_getElem inside)]
  rw [Defines, LabelByte, byte, ← BitVec.toNat_inj, baseOp_toNat, midField_toNat]
  simp

theorem lt_length_of_defines {bytes : List Byte} {l : LabelId} {k : Nat} (h : Defines bytes l k) :
    k < bytes.length := by
  obtain ⟨b, byte, -⟩ := h
  exact (List.getElem?_eq_some_iff.1 byte).1

end Sys2Proof.Machine

namespace Sys2Proof.Proofs

open Sys2Proof.Machine

/-- Settles O47: the pass writes the entry of a label at its last definition and keeps it from there on
(`resolveFirst_getElem_eq`), and without a definition it keeps the entry from offset 0 on. -/
theorem resolverRecordsTheLastDefinition : Obligations.ResolverRecordsTheLastDefinition := by
  intro s bytes length holds
  refine ⟨fun l k last => ?defined, fun l never => ?undefined, rfl⟩
  case defined =>
    obtain ⟨here, later⟩ := last
    have inside := lt_length_of_defines here
    have none : ∀ j, k + 1 ≤ j → j < s.progLen.toNat → ¬ LabelByte s.mem l j := fun j low high h =>
      later j low ((defines_iff_labelByte holds (length ▸ high)).2 h)
    have fits := s.progLen.isLt
    rw [labelAt_preprocess, resolveFirst_getElem_eq (by omega) none,
      resolveFirst_succ_of_labelByte ((defines_iff_labelByte holds inside).1 here), BitVec.toNat_ofNat]
    omega
  case undefined =>
    have none : ∀ j, 0 ≤ j → j < s.progLen.toNat → ¬ LabelByte s.mem l j := fun j _ high h =>
      never j ((defines_iff_labelByte holds (length ▸ high)).2 h)
    rw [labelAt_preprocess, resolveFirst_getElem_eq (Nat.zero_le _) none]
    rfl

end Sys2Proof.Proofs

/-! HALT (R156): what a tick, `run` and `step` answer in Halted, and the obligation about the instruction. -/

namespace Sys2Proof.Machine

theorem exec_halt (s : State) :
    exec .halt s = .next (((s.advance 1).setStatus .halted).emit .halted) := rfl

theorem coreKept_refl (s : State) : CoreKept s s :=
  ⟨fun _ _ => rfl, rfl, rfl, rfl, fun _ => rfl, fun _ => rfl, rfl, rfl⟩

theorem coreKept_emit (s : State) (e : Event) : CoreKept s (s.emit e) := coreKept_refl s

section Halted

variable {s : State} (halted : s.status = .halted)
include halted

theorem tick_of_halted : tick s = .next s := by
  rcases tick_cases s with ⟨_, same⟩ | ⟨running, _⟩ | ⟨running, _⟩
  · exact same
  all_goals cases halted.symm.trans running

theorem commandRun_of_halted : commandRun s = .next (s.emit (.diagnostic .machineHalted)) := by
  rcases commandRun_cases s with ⟨running, _⟩ | ⟨_, refused⟩ | ⟨_, other, _⟩ | ⟨_, other, _⟩
  · cases halted.symm.trans running
  · exact refused
  all_goals exact absurd halted other

theorem commandStep_of_halted : commandStep s = .next (s.emit (.diagnostic .machineHalted)) := by
  rcases commandStep_cases s with ⟨_, refused⟩ | ⟨other, _⟩ | ⟨other, _⟩ | ⟨other, _⟩
  · exact refused
  all_goals exact absurd halted other

/-- In Halted none of the three inputs that execute instructions elsewhere does more than emit. -/
theorem halted_input_inv {u : State}
    (input : tick s = .next u ∨ commandRun s = .next u ∨ commandStep s = .next u) :
    u = s ∨ u = s.emit (.diagnostic .machineHalted) := by
  rw [tick_of_halted halted, commandRun_of_halted halted, commandStep_of_halted halted] at input
  rcases input with ticked | ran | stepped
  · exact .inl (Host.Outcome.next.inj ticked).symm
  · exact .inr (Host.Outcome.next.inj ran).symm
  · exact .inr (Host.Outcome.next.inj stepped).symm

end Halted

end Sys2Proof.Machine

namespace Sys2Proof.Proofs

open Sys2Proof.Machine

/-- Settles O23: HALT is an advance by 1 that also sets STATUS and emits, and in the Halted state that it
leaves, a tick, `run` or `step` at most emits (`halted_input_inv`). -/
theorem haltStopsTheMachine : Obligations.HaltStopsTheMachine := by
  refine ⟨fun s => ?_, fun _ _ => rfl⟩
  obtain ⟨regs, sp, flag, mem, tables, -⟩ := onlyRegs_advance s 1
  refine ⟨_, exec_halt s, rfl, rfl, rfl, regs, sp, flag, mem, tables, fun u input => ?_⟩
  rcases halted_input_inv rfl input with rfl | rfl
  · exact ⟨coreKept_refl _, rfl⟩
  · exact ⟨coreKept_emit _ _, rfl⟩

end Sys2Proof.Proofs

/-! STORE and LOAD (R161, R162): what an instruction with a data address does, by the two checks of R242,
and the obligations about the two. -/

namespace Sys2Proof.Machine

theorem eq_store_or_load_of_dataAddress {i : Instr} {addr : Word} (h : dataAddress i = some addr) :
    i = .store addr ∨ i = .load addr := by
  cases i
  case store a => exact .inl (congrArg Instr.store (Option.some.inj h))
  case load a => exact .inr (congrArg Instr.load (Option.some.inj h))
  all_goals cases h

section DataAddress

variable {i : Instr} {addr : Word} {s : State} (access : dataAddress i = some addr)
include access

theorem exec_of_word_inside (operands : s.pc.toNat + 2 < s.cfg.memSize)
    (word : addr.toNat + 1 < s.cfg.memSize) : exec i s = .next (effect i s) := by
  have operandsIn := (operandsInside_iff s 2).2 operands
  have wordIn := (wordInside_iff s addr).2 word
  rcases eq_store_or_load_of_dataAddress access with rfl | rfl <;>
    exact (if_pos operandsIn).trans (if_pos wordIn)

/-- R160: the operand fetch is checked first, whatever the data address. -/
theorem exec_of_operands_outside (outside : s.pc.toNat + 2 ≥ s.cfg.memSize) :
    exec i s = .next (s.takeFault .endOfMemory) := by
  rcases eq_store_or_load_of_dataAddress access with rfl | rfl <;>
    exact exec_of_reports (f := .endOfMemory) ⟨rfl, (by decide : 1 < 3), outside⟩

/-- R233: the data address is checked once the operand bytes are known to lie in memory. -/
theorem exec_of_word_outside (operands : s.pc.toNat + 2 < s.cfg.memSize)
    (outside : addr.toNat + 1 ≥ s.cfg.memSize) :
    exec i s = .next (s.takeFault .boundsViolation) := by
  have violated : BoundsViolated i s := ⟨addr, access, outside⟩
  rcases eq_store_or_load_of_dataAddress access with rfl | rfl <;>
    exact exec_of_reports (f := .boundsViolation)
      ⟨rfl, fun ⟨_, operandOut⟩ => Nat.not_le_of_lt operands operandOut, violated⟩

end DataAddress

/-- A 16-bit store changes no byte but the two at its address (R50). -/
theorem memKeptBut_storeWord_advance (s : State) (a : Nat) (w : Word) (n : Nat) :
    MemKeptBut a 2 s ((s.storeWord a w).advance n) :=
  fun _ outside => read_writeWord_ne w outside

end Sys2Proof.Machine

namespace Sys2Proof.Proofs

open Sys2Proof.Machine

/-- Settles O24: STORE is a 16-bit store of R0 at its data address and an advance by 3, or the fault of
the first check that fails. -/
theorem storeWritesTheAccumulator : Obligations.StoreWritesTheAccumulator := by
  intro addr s
  have access : dataAddress (.store addr) = some addr := rfl
  refine ⟨fun operands word => ⟨_, exec_of_word_inside access operands word, ?high, ?low,
      memKeptBut_storeWord_advance s _ _ 3, rfl, fun _ _ => rfl, rfl, rfl,
      effect_tablesKept _ s, effect_runKept (i := .store addr) nofun s⟩,
    fun outside => ⟨_, exec_of_operands_outside access outside, takesFault_takeFault _ s⟩,
    fun operands outside =>
      ⟨_, exec_of_word_outside access operands outside, takesFault_takeFault _ s⟩,
    fun o1 o2 operand => ?decodes⟩
  case high => rw [effect, advance_mem, storeWord_mem, read_writeWord_hi, hiByte_toNat]
  case low => rw [effect, advance_mem, storeWord_mem, read_writeWord_lo, loByte_toNat]
  case decodes => rw [eq_wordOf operand.symm]; rfl

/-- Settles O25: LOAD is a write to R0 of the word at its data address and an advance by 3, or the fault
of the first check that fails. -/
theorem loadReadsTheWord : Obligations.LoadReadsTheWord := by
  intro addr s
  have access : dataAddress (.load addr) = some addr := rfl
  refine ⟨fun operands word => ⟨_, exec_of_word_inside access operands word, ?value, rfl,
      onlyRegs_setX_advance s 0 _ 3⟩,
    fun outside => ⟨_, exec_of_operands_outside access outside, takesFault_takeFault _ s⟩,
    fun operands outside =>
      ⟨_, exec_of_word_outside access operands outside, takesFault_takeFault _ s⟩,
    fun o1 o2 operand => ?decodes⟩
  case value =>
    rw [effect, x_advance, x_setX_self]
    exact bigEndianAt_readWord s.mem addr.toNat
  case decodes => rw [eq_wordOf operand.symm]; rfl

end Sys2Proof.Proofs

/-! SWAP (R170): what the exchange leaves in each register, the frame of the instruction, and the
obligation about it. -/

namespace Sys2Proof.Machine

section Exchange

variable (s : State) (a b : RegIdx)

/-- Both assignments of R170 read the values from before the exchange, so `a = b` is no exception. -/
theorem x_exchange_left : (s.exchange a b).x a = s.x b := by
  rw [x_exchange]
  split
  next same => rw [same]
  next => exact if_pos rfl

theorem x_exchange_right : (s.exchange a b).x b = s.x a := by rw [x_exchange, if_pos rfl]

theorem x_exchange_of_not_mem {r : RegIdx} (other : r ∉ [a, b]) : (s.exchange a b).x r = s.x r := by
  obtain ⟨notLeft, notRight⟩ : r ≠ a ∧ r ≠ b := by simpa using other
  rw [x_exchange, if_neg notRight, if_neg notLeft]

theorem onlyRegs_exchange_advance (n : Nat) : OnlyRegs [a, b] s ((s.exchange a b).advance n) :=
  ⟨fun _ other => x_exchange_of_not_mem s a b other, rfl, rfl, fun _ => rfl,
    ⟨rfl, fun _ => rfl, rfl, rfl⟩, rfl, rfl⟩

end Exchange

theorem exec_swap_of_operand_inside {s : State} (inside : s.pc.toNat + 1 < s.cfg.memSize)
    (a b : RegIdx) : exec (.swap a b) s = .next ((s.exchange a b).advance 2) :=
  if_pos ((operandsInside_iff s 1).2 inside)

theorem exec_swap_of_operand_outside {s : State} (outside : s.pc.toNat + 1 ≥ s.cfg.memSize)
    (a b : RegIdx) : exec (.swap a b) s = .next (s.takeFault .endOfMemory) :=
  exec_of_reports (f := .endOfMemory) ⟨rfl, (by decide : 1 < 2), outside⟩

end Sys2Proof.Machine

namespace Sys2Proof.Proofs

open Sys2Proof.Machine

/-- Settles O26: with its operand byte in memory SWAP is an exchange and an advance by 2, and without it
the fault of the operand fetch; its nibbles are read as the opcode map says. -/
theorem swapExchangesRegisters : Obligations.SwapExchangesRegisters := by
  intro a b s
  refine ⟨fun inside => ⟨_, exec_swap_of_operand_inside inside a b, x_exchange_left s a b,
      x_exchange_right s a b, rfl, onlyRegs_exchange_advance s a b 2⟩,
    fun outside => ⟨_, exec_swap_of_operand_outside outside a b, takesFault_takeFault _ s⟩,
    fun o1 o2 left right => ?decodes⟩
  case decodes =>
    obtain ⟨-, -, -, -, -, -, -, -, swap, -⟩ := opcodeMapOfEveryByte 0xF4 o1 o2
    exact swap a b left right rfl

end Sys2Proof.Proofs

/-! CALL and RET (R176 to R178): what a pop does in a state that has SP and the slot as a push left them, and
the obligations about the two. -/

namespace Sys2Proof.Machine

/-- A word read depends on its two bytes alone (R50). -/
theorem readWord_congr {m n : Memory} {a : Nat} (high : m.read a = n.read a)
    (low : m.read (a + 1) = n.read (a + 1)) : m.readWord a = n.readWord a :=
  congrArg₂ wordOf high low

theorem bigEndianAt_writeWord (m : Memory) (a : Nat) (w : Word) :
    BigEndianAt (m.writeWord a w) a w := by
  have h := bigEndianAt_readWord (m.writeWord a w) a
  rwa [readWord_writeWord] at h

section ReturnSlot

variable {s u : State} {v : Word}

/-- A state with the SP that a push left pops back to the SP before the push. -/
theorem popped_sp_of_sp_eq (sp : u.sp = s.sp - 2) : u.popped.sp = s.sp := by
  rw [popped_sp, sp, BitVec.sub_add_cancel]

/-- A state with the SP that a push left has a slot to pop. -/
theorem not_stackEmpty_of_sp_eq (room : ¬ StackFull s) (high : s.sp.toNat ≤ s.cfg.stackHead)
    (cfg : u.cfg = s.cfg) (sp : u.sp = s.sp - 2) : ¬ StackEmpty u := by
  have slot : u.sp.toNat + 2 = s.sp.toNat := by rw [sp]; exact pushSlot_add_two room
  rw [stackEmpty_iff, cfg]
  omega

/-- A state with the SP and the two bytes of the slot that a push left has the pushed word on top. -/
theorem readWord_sp_of_slot_eq (sp : u.sp = s.sp - 2)
    (high : u.mem.read s.pushSlot = (s.pushed v).mem.read s.pushSlot)
    (low : u.mem.read (s.pushSlot + 1) = (s.pushed v).mem.read (s.pushSlot + 1)) :
    u.mem.readWord u.sp.toNat = v := by
  rw [sp]
  exact (readWord_congr high low).trans (readWord_writeWord s.mem s.pushSlot v)

end ReturnSlot

end Sys2Proof.Machine

namespace Sys2Proof.Proofs

open Sys2Proof.Machine

/-- Settles O27: CALL is a push of PC + 3 and a jump, or the fault of the first check that fails. -/
theorem callPushesTheReturnAddress : Obligations.CallPushesTheReturnAddress := by
  intro addr s
  refine ⟨fun operands room => ⟨_, execCall_room addr operands room, rfl, pushSlot_add_two room, rfl,
      bigEndianAt_writeWord s.mem s.pushSlot (s.pc + 3),
      fun _ outside => read_writeWord_ne (s.pc + 3) outside, fun _ _ => rfl, rfl,
      effect_tablesKept (.call addr) s, effect_runKept (i := .call addr) nofun s⟩,
    fun outside => ⟨_, execCall_outside addr outside, takesFault_takeFault _ s⟩,
    fun operands full => ⟨_, execCall_full addr operands full, takesFault_takeFault _ s⟩,
    fun o1 o2 operand => ?decodes⟩
  case decodes => rw [eq_wordOf operand.symm]; rfl

/-- Settles O28: RET is a pop and a jump to the word popped, or `StackUnderflow`. -/
theorem retPopsThePc : Obligations.RetPopsThePc :=
  ⟨fun s => ⟨fun slot => ⟨_, execRet_slot slot, bigEndianAt_readWord s.mem s.sp.toNat, rfl,
      fun _ _ => rfl, fun _ => rfl, rfl, effect_tablesKept .ret s, effect_runKept (i := .ret) nofun s⟩,
    fun empty => ⟨_, execRet_empty empty, takesFault_takeFault _ s⟩⟩, fun _ _ => rfl⟩

/-- Settles O41: in a state with SP and the return slot as CALL's push left them RET finds the slot
(`not_stackEmpty_of_sp_eq`) and in it the return address (`readWord_sp_of_slot_eq`). -/
theorem returnResumesAfterTheCall : Obligations.ReturnResumesAfterTheCall := by
  intro addr s t u _ high completes run cfg sp hiSlot loSlot
  obtain rfl : effect (.call addr) s = t := by simpa [exec_of_completes completes] using run
  have room : ¬ StackFull s := not_stackFull_of_completes completes rfl
  have slot : ¬ StackEmpty u := not_stackEmpty_of_sp_eq room high cfg sp
  have restored : u.popped.sp = s.sp := popped_sp_of_sp_eq sp
  refine ⟨_, execRet_slot slot, readWord_sp_of_slot_eq sp hiSlot loSlot, restored, ?frame⟩
  case frame =>
    rw [← restored]
    exact onlyRegs_jump u.popped _

end Sys2Proof.Proofs

/-! Decoding an encoding (R80 to R92): the fields of an encoded byte, and the obligation that every
well-formed instruction comes back. -/

namespace Sys2Proof

/-! ## The fields of an encoded byte -/

theorem baseOp_baseByte (op : BitVec 3) (mid : BitVec 4) (low : BitVec 1) :
    baseOp (baseByte op mid low) = op := by
  rw [← BitVec.toNat_inj, baseOp_toNat, baseByte_toNat]
  omega

theorem midField_baseByte (op : BitVec 3) (mid : BitVec 4) (low : BitVec 1) :
    midField (baseByte op mid low) = mid := by
  rw [← BitVec.toNat_inj, midField_toNat, baseByte_toNat]
  omega

theorem lowBit_baseByte (op : BitVec 3) (mid : BitVec 4) (low : BitVec 1) :
    lowBit (baseByte op mid low) = decide (low = 1) := by
  rw [Bool.eq_iff_iff, lowBit_iff, baseByte_toNat, decide_eq_true_iff, ← BitVec.toNat_inj,
    show (1 : BitVec 1).toNat = 1 from rfl]
  omega

theorem regOfField_fieldOfReg {n : RegIdx} (nonzero : n ≠ 0) : regOfField (fieldOfReg n) = n := by
  have := Fin.pos_iff_ne_zero.2 nonzero
  apply Fin.ext
  simp only [regOfField, fieldOfReg_toNat]
  omega

theorem labelOfField_fieldOfLabel (l : LabelId) : labelOfField (fieldOfLabel l) = l :=
  Fin.ext (fieldOfLabel_toNat l)

theorem regOfNibble_nibbleOfReg {r : RegIdx} (small : r ≠ 16) : regOfNibble (nibbleOfReg r) = r := by
  have : r.val ≠ 16 := fun e => small (Fin.ext e)
  apply Fin.ext
  simp only [regOfNibble, nibbleOfReg, BitVec.toNat_ofNat]
  omega

theorem condOfBit_bitOfCond (c : Cond) : condOfBit (decide (bitOfCond c = 1)) = c := by
  cases c <;> rfl

theorem hiNibble_append (hi lo : BitVec 4) : hiNibble (hi ++ lo : BitVec 8) = hi :=
  BitVec.extractLsb'_append_eq_left

theorem loNibble_append (hi lo : BitVec 4) : loNibble (hi ++ lo : BitVec 8) = lo :=
  BitVec.extractLsb'_append_eq_right

/-! ## Decoding an encoding -/

/-- The byte of a base-set instruction is the whole of it (R80, R95). -/
theorem decode_base {b : Byte} (base : b.toNat < 0xF0) (rest : List Byte) :
    decode (b :: rest) = .ok (decodeBase b, rest) := by
  have length : lengthOfOpcode b = 1 := if_neg fun tag => by
    have := (hiNibble_eq_extTag b).1 tag
    omega
  rw [decode_cons (by omega), decodeWindow_base base, length]
  rfl

/-- Decoding a base-set byte, field by field (R81 to R87). -/
theorem decode_baseByte (op : BitVec 3) (mid : BitVec 4) (low : BitVec 1) (rest : List Byte)
    (base : op ≠ 7 ∨ mid.toNat < 8) :
    decode (baseByte op mid low :: rest) = .ok (decodeBase (baseByte op mid low), rest) := by
  refine decode_base ?_ rest
  rw [baseByte_toNat]
  rcases base with notLabel | small
  · have : op.toNat ≠ 7 := fun e => notLabel (BitVec.eq_of_toNat_eq e)
    omega
  · omega

theorem extByte_fields (xop : BitVec 4) : hiNibble (extByte xop) = extTag ∧ loNibble (extByte xop) = xop :=
  ⟨hiNibble_append extTag xop, loNibble_append extTag xop⟩

/-- Decoding an extended byte, with the operand bytes its number asks for after it (R88 to R92). -/
theorem decode_extByte (xop : BitVec 4) {operands : List Byte}
    (length : lengthOfOpcode (extByte xop) = operands.length + 1) (rest : List Byte) :
    decode (extByte xop :: (operands ++ rest)) =
      .ok (decodeExt (extByte xop) ((operands ++ rest).getD 0 0) ((operands ++ rest).getD 1 0), rest) := by
  rw [decode_cons (by rw [length, List.length_append]; omega), decodeWindow,
    if_pos (extByte_fields xop).1, length, Nat.add_sub_cancel, List.drop_left]

theorem decode_extWord (xop : BitVec 4) (length : lengthOfOpcode (extByte xop) = 3) (w : Word)
    (rest : List Byte) :
    decode (extWord xop w ++ rest) = .ok (decodeExt (extByte xop) (hiByte w) (loByte w), rest) :=
  decode_extByte xop (operands := [hiByte w, loByte w]) length rest

end Sys2Proof

namespace Sys2Proof.Proofs

open Sys2Proof.Machine

/-- Settles O1: a base-set byte gives its fields back (`decode_baseByte`), and so does an extended byte,
with the operand bytes that its number asks for (`decode_extByte`). -/
theorem decodeInvertsEncode : Obligations.DecodeInvertsEncode := by
  intro i rest wf
  have base {op mid low j} (row : op ≠ 7 ∨ mid.toNat < 8) (back : decodeBase (baseByte op mid low) = j) :
      decode (baseByte op mid low :: rest) = .ok (j, rest) :=
    back ▸ decode_baseByte op mid low rest row
  cases i
  case set imm5 =>
    have small := imm5.isLt
    have value : (BitVec.ofNat 8 imm5.toNat).toNat = imm5.toNat := by rw [BitVec.toNat_ofNat]; omega
    rw [encode_set, List.singleton_append, decode_base (by omega), ← decodeWindow_base (by omega) 0 0,
      decodeWindow_set 0 0 (by omega), extractLsb'_eq_imm5 value]
  case add n | sub n | mul n | pushReg n | popReg n =>
    refine base (.inl (by decide)) ?_
    simp only [decodeBase, baseOp_baseByte, midField_baseByte, lowBit_baseByte,
      regOfField_fieldOfReg (bne_iff_ne.1 wf)]
    rfl
  case pushAcc | popAcc => exact base (.inl (by decide)) rfl
  case goto l c =>
    refine base (.inl (by decide)) ?_
    simp only [decodeBase, baseOp_baseByte, midField_baseByte, lowBit_baseByte,
      labelOfField_fieldOfLabel, condOfBit_bitOfCond]
    rfl
  case label l =>
    refine base (.inr (by rw [fieldOfLabel_toNat]; exact of_decide_eq_true wf)) ?_
    simp only [decodeBase, baseOp_baseByte, midField_baseByte, labelOfField_fieldOfLabel]
    rfl
  case store w | load w | call w | xset w =>
    refine (decode_extWord _ (by decide) w rest).trans ?_
    simp only [decodeExt, extByte_fields, wordOf_hiByte_loByte]
    rfl
  case swap a b =>
    obtain ⟨notLeft, notRight⟩ : a ≠ 16 ∧ b ≠ 16 := by simpa [Instr.wf] using wf
    refine (decode_extByte 4 (operands := [nibbleOfReg a ++ nibbleOfReg b]) rfl rest).trans ?_
    simp only [decodeExt, extByte_fields, List.singleton_append, List.getD_cons_zero, hiNibble_append,
      loNibble_append, regOfNibble_nibbleOfReg notLeft, regOfNibble_nibbleOfReg notRight]
    rfl
  case reservedFA low =>
    have bits : low = 0 ∨ low = 1 := by revert low; decide
    rcases bits with rfl | rfl <;> exact decode_extByte _ (operands := []) rfl rest
  case reservedFC low =>
    have bits : low = 0 ∨ low = 1 ∨ low = 2 ∨ low = 3 := by revert low; decide
    rcases bits with rfl | rfl | rfl | rfl <;> exact decode_extByte _ (operands := []) rfl rest
  all_goals exact decode_extByte _ (operands := []) rfl rest

end Sys2Proof.Proofs

/-! What the decoder gives (R22, R80, R87, R94): well-formed instructions of the width it took, by one row
of the opcode table each, and the obligations about it. -/

namespace Sys2Proof

/-! ## Well-formedness -/

theorem regOfField_ne_zero (rf : BitVec 4) : regOfField rf ≠ 0 := fun e => by
  have := congrArg Fin.val e
  simp [regOfField] at this

theorem regOfNibble_ne_sixteen (v : BitVec 4) : regOfNibble v ≠ 16 := fun e => by
  have bound := v.isLt
  have value : v.toNat = 16 := congrArg Fin.val e
  omega

theorem wf_decodeBase {b : Byte} (base : b.toNat < 0xF0) : (decodeBase b).wf = true := by
  have nonzero := bne_iff_ne.2 (regOfField_ne_zero (midField b))
  unfold decodeBase
  split
  case h_2 | h_3 | h_4 => exact nonzero
  case h_5 | h_6 =>
    split
    · rfl
    · exact nonzero
  case h_8 =>
    have value : (labelOfField (midField b)).val = b.toNat / 2 % 16 := midField_toNat b
    simp only [baseOp_toNat, imp_false] at *
    exact decide_eq_true (by omega)
  all_goals rfl

theorem wf_decodeExt (b o1 o2 : Byte) : (decodeExt b o1 o2).wf = true := by
  unfold decodeExt
  split
  case h_5 => simp [Instr.wf, regOfNibble_ne_sixteen]
  all_goals rfl

theorem wf_decodeWindow (b o1 o2 : Byte) : (decodeWindow b o1 o2).wf = true := by
  by_cases base : b.toNat < 0xF0
  · rw [decodeWindow_base base]
    exact wf_decodeBase base
  · rw [decodeWindow_ext (by omega)]
    exact wf_decodeExt b o1 o2

/-- Inversion of the decoder: it takes the bytes of the window's width from the front. -/
theorem decode_inv {bs rest : List Byte} {i : Instr} (h : decode bs = .ok (i, rest)) :
    ∃ b o1 o2 operands, bs = b :: (operands ++ rest) ∧ i = decodeWindow b o1 o2 ∧
      operands.length + 1 = i.width := by
  cases bs with
  | nil => cases h
  | cons b bs =>
    have enough := (decode_isOk_iff b bs).1 ⟨i, rest, h⟩
    have least := (lengthOfOpcode_le b).1
    rw [List.length_cons] at enough
    rw [decode_cons enough] at h
    cases h
    refine ⟨b, _, _, bs.take (lengthOfOpcode b - 1), by rw [List.take_append_drop], rfl, ?_⟩
    rw [width_decodeWindow, List.length_take]
    omega

/-! ## The rows of the opcode table -/

/-- Two rows differ in a bit of the opcode byte that both fix. -/
def OpcodeRow.Differs (r q : OpcodeRow) : Prop := r.mask &&& q.mask &&& (r.pattern ^^^ q.pattern) ≠ 0

theorem differs_symm : Std.Symm OpcodeRow.Differs :=
  ⟨fun r q h => by rwa [OpcodeRow.Differs, BitVec.and_comm q.mask, BitVec.xor_comm]⟩

theorem opcodeTable_differs : opcodeTable.Pairwise OpcodeRow.Differs := by
  unfold OpcodeRow.Differs
  decide

/-- No byte meets two rows of the table. -/
theorem eq_of_meets {b : Byte} {r q : OpcodeRow} (hr : r ∈ opcodeTable) (hq : q ∈ opcodeTable)
    (meetsR : b &&& r.mask = r.pattern) (meetsQ : b &&& q.mask = q.pattern) : r = q := by
  have agree : r.mask &&& q.mask &&& (r.pattern ^^^ q.pattern) = 0 := by
    rw [← meetsR, ← meetsQ]
    ext k
    simp only [BitVec.getElem_and, BitVec.getElem_xor]
    cases b[k] <;> cases r.mask[k] <;> cases q.mask[k] <;> simp
  have := differs_symm
  by_contra other
  exact opcodeTable_differs.forall hr hq other agree

/-- The byte `b` meets a row of the table that has the mnemonic and the length of `i`. -/
def HasRow (b : Byte) (i : Instr) : Prop :=
  ∃ row ∈ opcodeTable, row.mnemonic = i.tableMnemonic ∧ row.length = i.width ∧
    b &&& row.mask = row.pattern

/-- Row number `k` of the table is the one. -/
theorem hasRow_of_getElem? {b : Byte} {i : Instr} (k : Nat) {row : OpcodeRow}
    (found : opcodeTable[k]? = some row) (mnemonic : row.mnemonic = i.tableMnemonic)
    (length : row.length = i.width) (meets : b &&& row.mask = row.pattern) : HasRow b i :=
  ⟨row, List.mem_of_getElem? found, mnemonic, length, meets⟩

/-- The mask of a row that fixes bits 7:5. -/
theorem and_E0 : ∀ b : Byte, b &&& 0xE0 = baseByte (baseOp b) 0 0 := by decide

/-- The mask of a row that fixes bits 7:5 and bit 0. -/
theorem and_E1 : ∀ b : Byte, b &&& 0xE1 = baseByte (baseOp b) 0 (BitVec.ofBool (lowBit b)) := by decide

/-- The mask of a row that fixes bits 7:4. -/
theorem and_F0 : ∀ b : Byte, b &&& 0xF0 = hiNibble b ++ 0#4 := by decide

theorem hasRow_decodeBase {b : Byte} (base : b.toNat < 0xF0) : HasRow b (decodeBase b) := by
  have op {k : BitVec 3} (h : (baseOp b).toNat = k.toNat) : b &&& 0xE0 = baseByte k 0 0 := by
    rw [and_E0, BitVec.eq_of_toNat_eq h]
  have opLow {k : BitVec 3} {low : Bool} (h : (baseOp b).toNat = k.toNat) (hl : lowBit b = low) :
      b &&& 0xE1 = baseByte k 0 (BitVec.ofBool low) := by
    rw [and_E1, BitVec.eq_of_toNat_eq h, hl]
  unfold decodeBase
  split
  case h_1 h => exact hasRow_of_getElem? 0 rfl rfl rfl (op (k := 0) h)
  case h_2 h => exact hasRow_of_getElem? 1 rfl rfl rfl (op (k := 1) h)
  case h_3 h => exact hasRow_of_getElem? 2 rfl rfl rfl (op (k := 2) h)
  case h_4 h => exact hasRow_of_getElem? 3 rfl rfl rfl (op (k := 3) h)
  case h_5 h =>
    split
    next acc => exact hasRow_of_getElem? 5 rfl rfl rfl (opLow (k := 4) h acc)
    next reg => exact hasRow_of_getElem? 4 rfl rfl rfl (opLow (k := 4) h (Bool.eq_false_iff.2 reg))
  case h_6 h =>
    split
    next acc => exact hasRow_of_getElem? 7 rfl rfl rfl (opLow (k := 5) h acc)
    next reg => exact hasRow_of_getElem? 6 rfl rfl rfl (opLow (k := 5) h (Bool.eq_false_iff.2 reg))
  case h_7 h => exact hasRow_of_getElem? 8 rfl rfl rfl (op (k := 6) h)
  case h_8 =>
    have tag : hiNibble b = 14 := by
      apply BitVec.eq_of_toNat_eq
      simp only [baseOp_toNat, imp_false] at *
      rw [hiNibble_toNat, show (14 : BitVec 4).toNat = 14 from rfl]
      omega
    exact hasRow_of_getElem? 9 rfl rfl rfl (by rw [and_F0, tag]; rfl)

theorem eq_extByte {b : Byte} (ext : 0xF0 ≤ b.toNat) : b = extByte (loNibble b) := by
  obtain ⟨tag, low⟩ := extByte_fields (loNibble b)
  have high := (hiNibble_toNat b).symm.trans (congrArg _ ((hiNibble_eq_extTag b).2 ext))
  rw [← BitVec.toNat_inj, hiNibble_toNat, ← high] at tag
  rw [← BitVec.toNat_inj, loNibble_toNat, loNibble_toNat] at low
  apply BitVec.eq_of_toNat_eq
  omega

/-- An extended instruction with each of the sixteen numbers, its operand bytes 0. -/
theorem hasRow_decodeExt_zero :
    ∀ xop : BitVec 4, HasRow (extByte xop) (decodeExt (extByte xop) 0 0) := by
  unfold HasRow
  decide

/-- The operand bytes make no difference to the row. -/
theorem hasRow_decodeExt {b : Byte} (ext : 0xF0 ≤ b.toNat) (o1 o2 : Byte) :
    HasRow b (decodeExt b o1 o2) := by
  have mnemonic : (decodeExt b o1 o2).tableMnemonic = (decodeExt b 0 0).tableMnemonic := by
    unfold decodeExt; split <;> rfl
  have width : (decodeExt b o1 o2).width = (decodeExt b 0 0).width := by
    unfold decodeExt; split <;> rfl
  have row := hasRow_decodeExt_zero (loNibble b)
  rw [← eq_extByte ext] at row
  rwa [HasRow, mnemonic, width]

theorem hasRow_decodeWindow (b o1 o2 : Byte) : HasRow b (decodeWindow b o1 o2) := by
  by_cases base : b.toNat < 0xF0
  · rw [decodeWindow_base base]
    exact hasRow_decodeBase base
  · rw [decodeWindow_ext (by omega)]
    exact hasRow_decodeExt (by omega) o1 o2

end Sys2Proof

namespace Sys2Proof.Proofs

open Sys2Proof.Machine

/-- Settles O2: the decoder takes the bytes of a window from the front (`decode_inv`), and a window holds
a well-formed instruction (`wf_decodeWindow`). -/
theorem decodeYieldsWellFormed : Obligations.DecodeYieldsWellFormed := by
  intro bs i rest h
  obtain ⟨b, o1, o2, operands, rfl, rfl, taken⟩ := decode_inv h
  have width := width_decodeWindow b o1 o2
  have bounds := lengthOfOpcode_le b
  exact ⟨wf_decodeWindow b o1 o2, by omega, by omega, b :: operands, rfl, taken⟩

/-- Settles O5: the byte meets its own row (`hasRow_decodeWindow`), and the rows are apart in bits that they
fix (`eq_of_meets`). -/
theorem everyOpcodeByteMeetsExactlyItsRow : Obligations.EveryOpcodeByteMeetsExactlyItsRow := by
  intro b o1 o2
  obtain ⟨row, member, mnemonic, length, meets⟩ := hasRow_decodeWindow b o1 o2
  exact ⟨row, member, mnemonic, length, fun r hr =>
    ⟨fun h => eq_of_meets hr member h meets, fun same => same ▸ meets⟩⟩

/-- Settles O7 by computing the eleven windows. -/
theorem writtenOutWordsDecode : Obligations.WrittenOutWordsDecode :=
  ⟨rfl, rfl, rfl, rfl, rfl, rfl, rfl, rfl, rfl, rfl, rfl⟩

end Sys2Proof.Proofs

/-! The invariant (R7, R28, R32, R57, R195, R203): what of it every state update keeps, and that every step
keeps the whole. -/

namespace Sys2Proof.Machine

/-- The part of the invariant that does not depend on STATUS. -/
structure Sized (s : State) : Prop where
  cfgOk : s.cfg.wf = true
  memCanonical : s.mem.wf = true
  memInside : ∀ c ∈ s.mem, c.1 < s.cfg.memSize
  spLow : s.cfg.stackLimit ≤ s.sp.toNat
  spHigh : s.sp.toNat ≤ s.cfg.stackHead
  spEven : (s.cfg.stackHead - s.sp.toNat) % 2 = 0
  progLenInside : s.progLen.toNat ≤ s.cfg.memSize
  labelsInside : ∀ l, (s.labelAt l).toNat ≤ s.progLen.toNat

theorem Inv.sized {s : State} (h : Inv s) : Sized s :=
  { h with }

/-- In Running, Paused and Halted the sizes are the whole of the invariant. -/
theorem Sized.inv {s : State} (h : Sized s) (idle : s.status ≠ .idle) (loaded : s.status ≠ .loaded) :
    Inv s :=
  { h with
    fresh := fun either => (either.elim idle loaded).elim
    idleEmpty := fun is => absurd is idle }

/-- The sizes depend on the configuration, memory, SP, the label table and PROGLEN alone. -/
theorem Sized.congr {s t : State} (h : Sized s) (cfg : t.cfg = s.cfg) (mem : t.mem = s.mem)
    (sp : t.sp = s.sp) (labels : t.labels = s.labels) (progLen : t.progLen = s.progLen) : Sized t := by
  obtain ⟨_, _, _, _, _, _, _, _, _, _, _⟩ := s
  obtain ⟨_, _, _, _, _, _, _, _, _, _, _⟩ := t
  obtain rfl := cfg
  obtain rfl := mem
  obtain rfl := sp
  obtain rfl := labels
  obtain rfl := progLen
  exact { h with }

theorem sizes_of_wf {c : Config} (h : c.wf = true) :
    2 ≤ c.memSize ∧ c.memSize ≤ 65535 ∧ c.stackHead ≤ c.memSize ∧ 2 * c.stackSlots ≤ c.stackHead := by
  simpa [Config.wf, and_assoc] using h

/-- A word written inside memory keeps the sizes. -/
theorem Sized.storeWord {s : State} (h : Sized s) {a : Nat} (inside : a + 1 < s.cfg.memSize) (w : Word) :
    Sized (s.storeWord a w) :=
  { h with
    memCanonical := wf_writeWord h.memCanonical a w
    memInside := inside_writeWord h.memInside inside w }

/-- A push with room keeps the sizes: its slot lies between `STACK_LIMIT` and `STACK_HEAD` (R28). -/
theorem Sized.pushed {s : State} (h : Sized s) (room : ¬ StackFull s) (v : Word) : Sized (s.pushed v) := by
  have slot := pushSlot_add_two room
  have sizes := sizes_of_wf h.cfgOk
  have low := h.spLow
  have high := h.spHigh
  have even := h.spEven
  have sp : (s.pushed v).sp.toNat = s.pushSlot := rfl
  rw [stackFull_iff] at room
  have below := h.storeWord (a := s.pushSlot) (by omega) v
  exact { below with
    spLow := by rw [sp]; exact (by omega : s.cfg.stackLimit ≤ s.pushSlot)
    spHigh := by rw [sp]; exact (by omega : s.pushSlot ≤ s.cfg.stackHead)
    spEven := by rw [sp]; exact (by omega : (s.cfg.stackHead - s.pushSlot) % 2 = 0) }

/-- A pop that finds a slot keeps the sizes (R28). -/
theorem Sized.popped {s : State} (h : Sized s) (slot : ¬ StackEmpty s) : Sized s.popped := by
  have sp := popped_sp_toNat (stackHead_le_of_wf h.cfgOk) slot
  have low := h.spLow
  have even := h.spEven
  rw [stackEmpty_iff] at slot
  exact { h with
    spLow := by rw [sp]; exact (by omega : s.cfg.stackLimit ≤ s.sp.toNat + 2)
    spHigh := by rw [sp]; exact (by omega : s.sp.toNat + 2 ≤ s.cfg.stackHead)
    spEven := by rw [sp]; exact (by omega : (s.cfg.stackHead - (s.sp.toNat + 2)) % 2 = 0) }

/-! ## Instructions -/

theorem not_operandOutside_of_completes {i : Instr} {s : State} (h : Completes i s) :
    ¬ OperandOutside i s := fun outside =>
  h .endOfMemory ⟨not_isReserved_of_completes h, outside⟩

theorem not_boundsViolated_of_completes {i : Instr} {s : State} (h : Completes i s) :
    ¬ BoundsViolated i s := fun violated =>
  h .boundsViolation ⟨not_isReserved_of_completes h, not_operandOutside_of_completes h, violated⟩

/-- The word at the data address of an instruction that completes lies in memory. -/
theorem word_inside_of_completes {i : Instr} {s : State} {addr : Word} (h : Completes i s)
    (access : dataAddress i = some addr) : addr.toNat + 1 < s.cfg.memSize :=
  Nat.lt_of_not_le fun outside => not_boundsViolated_of_completes h ⟨addr, access, outside⟩

theorem Sized.effect {s : State} (h : Sized s) {i : Instr} (completes : Completes i s) :
    Sized (effect i s) := by
  cases i
  case pushReg | pushAcc | call =>
    exact (h.pushed (not_stackFull_of_completes completes rfl) _).congr rfl rfl rfl rfl rfl
  case popReg | popAcc | ret =>
    exact (h.popped (not_stackEmpty_of_completes completes rfl)).congr rfl rfl rfl rfl rfl
  case store addr =>
    exact (h.storeWord (word_inside_of_completes completes rfl) _).congr rfl rfl rfl rfl rfl
  case goto l c =>
    simp only [Machine.effect]
    split <;> exact h.congr rfl rfl rfl rfl rfl
  all_goals exact h.congr rfl rfl rfl rfl rfl

theorem Sized.exec {s t : State} (h : Sized s) {i : Instr} (run : exec i s = .next t) : Sized t := by
  rcases completes_or_reports i s with completes | ⟨f, reports⟩
  · obtain rfl : Machine.effect i s = t := by simpa [exec_of_completes completes] using run
    exact h.effect completes
  · obtain rfl : s.takeFault f = t := by simpa [exec_of_reports reports] using run
    exact h.congr rfl rfl rfl rfl rfl

theorem Sized.fetchExecute {s t : State} (h : Sized s) (run : fetchExecute s = .next t) : Sized t := by
  rcases fetchExecute_cases s with ⟨_, e⟩ | ⟨_, e⟩ <;> rw [e] at run
  · cases run
    exact h.congr rfl rfl rfl rfl rfl
  · exact h.exec run

/-- An instruction leaves STATUS as it was, or Halted. -/
theorem exec_status {i : Instr} {s t : State} (h : exec i s = .next t) :
    t.status = s.status ∨ t.status = .halted := by
  rcases exec_inv h with rfl | ⟨f, rfl⟩
  · by_cases halts : i = .halt
    · subst halts
      exact .inr rfl
    · exact .inl (effect_runKept halts s).1
  · exact .inr rfl

theorem fetchExecute_status {s t : State} (h : fetchExecute s = .next t) :
    t.status = s.status ∨ t.status = .halted := by
  rcases fetchExecute_inv h with ⟨f, rfl⟩ | ⟨i, run, _⟩
  · exact .inr rfl
  · exact exec_status run

/-! ## Reset and load -/

theorem inv_resetAll {s : State} (wf : s.cfg.wf = true) : Inv s.resetAll := by
  have sizes := sizes_of_wf wf
  have sp : s.resetAll.sp.toNat = s.cfg.stackHead := by
    rw [resetAll_sp, BitVec.toNat_ofNat]
    omega
  exact {
    cfgOk := wf
    memCanonical := wf_nil
    memInside := nofun
    spLow := by rw [sp]; exact Nat.sub_le _ _
    spHigh := Nat.le_of_eq sp
    spEven := by rw [sp, resetAll_cfg, Nat.sub_self]
    progLenInside := Nat.zero_le _
    labelsInside := fun l => by rw [labelAt_resetAll]; exact Nat.le_refl _
    fresh := fun _ => ⟨x_resetAll s, rfl, sp, rfl⟩
    idleEmpty := fun _ => ⟨rfl, rfl⟩ }

/-- From a table of zeros the Resolver's pass over `n` bytes leaves no entry above `n` (R203). -/
theorem resolveFirst_le (m : Memory) {n : Nat} (fits : n < 65536) (l : LabelId) :
    ((resolveFirst m (Vector.replicate 16 0) n)[l.val]).toNat ≤ n := by
  induction n with
  | zero => simp [resolveFirst]
  | succ n ih =>
    by_cases defines : LabelByte m l n
    · rw [resolveFirst_succ_of_labelByte defines, BitVec.toNat_ofNat]
      omega
    · rw [resolveFirst_succ_of_not_labelByte defines]
      exact Nat.le_succ_of_le (ih (by omega))

theorem install_progLen_toNat (s : State) {bytes : List Byte} (fits : bytes.length < 65536) :
    (s.install bytes).progLen.toNat = bytes.length :=
  Nat.mod_eq_of_lt fits

/-- A program that fits, installed in a machine just reset, meets the invariant. -/
theorem inv_install {s : State} (wf : s.cfg.wf = true) {bytes : List Byte}
    (fits : bytes.length ≤ s.cfg.memSize) : Inv (s.resetAll.install bytes) := by
  have sizes := sizes_of_wf wf
  have length := install_progLen_toNat s.resetAll (bytes := bytes) (by omega)
  have reset := inv_resetAll wf
  exact { reset with
    memCanonical := wf_copyIn wf_nil 0 bytes
    memInside := inside_copyIn bytes nofun (by rw [Nat.zero_add]; exact fits)
    progLenInside := by rw [length]; exact fits
    labelsInside := fun l => resolveFirst_le _ (BitVec.isLt _) l
    fresh := fun _ => reset.fresh (.inl rfl)
    idleEmpty := nofun }

/-! ## Commands and ticks -/

theorem Inv.withInbox {s : State} (h : Inv s) (rest : List Arrival) : Inv { s with inbox := rest } :=
  { h with }

theorem Inv.emit {s : State} (h : Inv s) (e : Event) : Inv (s.emit e) := { h with }

/-- A machine that meets the invariant may start, pause or stop at any time. -/
theorem Inv.setStatus {s : State} (h : Inv s) {v : Status} (idle : v ≠ .idle) (loaded : v ≠ .loaded) :
    Inv (s.setStatus v) :=
  Sized.inv (h.sized.congr rfl rfl rfl rfl rfl) idle loaded

theorem inv_afterStep {u : State} (h : Sized u) : Inv (afterStep u) := by
  rcases afterStep_cases u with ⟨halted, e⟩ | ⟨_, e⟩ <;> rw [e]
  · exact h.inv (halted ▸ nofun) (halted ▸ nofun)
  · exact Sized.inv (h.congr rfl rfl rfl rfl rfl) nofun nofun

theorem commandLoad_inv {s t : State} {bytes : List Byte} (wf : s.cfg.wf = true)
    (h : commandLoad bytes s = .next t) : Inv t := by
  unfold commandLoad at h
  split at h
  next => cases h; exact (inv_resetAll wf).emit _
  next fits => cases h; exact inv_install wf (Nat.le_of_not_lt fits)

theorem commandRun_inv {s t : State} (inv : Inv s) (h : commandRun s = .next t) : Inv t := by
  rcases commandRun_cases s with ⟨_, e⟩ | ⟨_, e⟩ | ⟨_, _, _, e⟩ | ⟨_, _, _, e⟩ <;> rw [e] at h <;> cases h
  · exact inv
  · exact inv.emit _
  · exact inv.emit _
  · exact inv.setStatus nofun nofun

theorem commandStep_inv {s t : State} (inv : Inv s) (h : commandStep s = .next t) : Inv t := by
  rcases commandStep_cases s with ⟨_, e⟩ | ⟨_, _, e⟩ | ⟨_, _, _, e⟩ | ⟨_, _, _, e⟩
  case inr.inr.inr =>
    obtain ⟨u, hu⟩ := fetchExecute_next s
    rw [e u hu] at h
    cases h
    exact inv_afterStep (inv.sized.fetchExecute hu)
  all_goals
    rw [e] at h
    cases h
    exact inv.emit _

theorem commandPause_inv {s t : State} (inv : Inv s) (h : commandPause s = .next t) : Inv t := by
  rcases commandPause_cases s with ⟨_, e⟩ | ⟨_, e⟩ <;> rw [e] at h <;> cases h
  · exact (inv.setStatus (v := .paused) nofun nofun).emit _
  · exact inv

theorem runCommand_keeps_inv {c : Command} {s t : State} (inv : Inv s) (h : runCommand c s = .next t) :
    Inv t := by
  cases c with
  | reset => cases h; exact inv_resetAll inv.cfgOk
  | load bytes => exact commandLoad_inv inv.cfgOk h
  | run => exact commandRun_inv inv h
  | step => exact commandStep_inv inv h
  | pause => exact commandPause_inv inv h
  | halt => cases h; exact (inv.setStatus (v := .halted) nofun nofun).emit _

theorem tick_keeps_inv {s t : State} (inv : Inv s) (h : tick s = .next t) : Inv t := by
  rcases tick_cases s with ⟨_, e⟩ | ⟨_, _, e⟩ | ⟨running, _, e⟩ <;> rw [e] at h
  · cases h; exact inv
  · cases h; exact (inv.setStatus (v := .halted) nofun nofun).emit _
  · have started := fetchExecute_status h
    rw [running] at started
    refine (inv.sized.fetchExecute h).inv ?_ ?_ <;> rcases started with e | e <;> rw [e] <;> nofun

end Sys2Proof.Machine

namespace Sys2Proof.Proofs

open Sys2Proof.Machine

/-- Settles O14: a machine right after its first reset is one that a reset leaves as it is
(`inv_resetAll`). -/
theorem resetMeetsInvariant : Obligations.ResetMeetsInvariant := by
  have meets : ∀ c : Config, c.wf = true → Inv (State.resetWith c) := fun c wf =>
    inv_resetAll (s := State.resetWith c) wf
  exact ⟨meets, meets Config.test (by decide)⟩

/-- Settles O13: a command or a tick keeps the invariant (`runCommand_keeps_inv`, `tick_keeps_inv`), for the
instruction it may execute keeps the sizes (`Sized.exec`). -/
theorem invariantKeptByEveryStep : Obligations.InvariantKeptByEveryStep := by
  intro s t inv h
  rcases step_inv h with ⟨c, rest, _, command⟩ | ⟨_, ticked⟩
  · exact runCommand_keeps_inv (inv.withInbox rest) command
  · exact tick_keeps_inv (inv.withInbox _) ticked

end Sys2Proof.Proofs

/-! XSET and CMP (R185, R186), the faults (R230, R231, R242) and the results of fetch-execute (R190 to R193),
and how far a linear advance goes (R26). -/

namespace Sys2Proof.Machine

theorem exec_xset_of_operands_inside {s : State} (inside : s.pc.toNat + 2 < s.cfg.memSize) (w : Word) :
    exec (.xset w) s = .next ((s.setX 0 w).advance 3) :=
  if_pos ((operandsInside_iff s 2).2 inside)

theorem exec_xset_of_operands_outside {s : State} (outside : s.pc.toNat + 2 ≥ s.cfg.memSize) (w : Word) :
    exec (.xset w) s = .next (s.takeFault .endOfMemory) :=
  exec_of_reports (f := .endOfMemory) ⟨rfl, (by decide : 1 < 3), outside⟩

theorem compareFlag_iff (s : State) : s.compareFlag = true ↔ (s.x 0).toNat = (s.x 1).toNat := by
  rw [State.compareFlag, beq_iff_eq, BitVec.toNat_inj]

/-! ## Faults -/

theorem exec_takesFault {i : Instr} {s : State} {f : Fault} (h : Reports i s f) :
    ∃ t, exec i s = .next t ∧ TakesFault f s t :=
  ⟨_, exec_of_reports h, takesFault_takeFault f s⟩

theorem fetchExecute_of_pc_outside {s : State} (outside : s.cfg.memSize ≤ s.pc.toNat) :
    fetchExecute s = .next (s.takeFault .endOfMemory) :=
  if_pos outside

theorem fetchByte_of_inside {s : State} {k : Nat} (inside : s.pc.toNat + k < s.cfg.memSize) :
    s.fetchByte k = s.mem.read (s.pc.toNat + k) :=
  if_pos inside

/-- A reserved opcode reports its fault wherever it stands: no operand byte is read (R231). -/
theorem exec_of_isReserved {i : Instr} (reserved : isReserved i = true) (s : State) :
    exec i s = .next (s.takeFault .unknownExtendedOpcode) :=
  exec_of_reports (f := .unknownExtendedOpcode) reserved

/-! ## The result of fetch-execute -/

theorem fetchResult_takeFault (s : State) (f : Fault) : fetchResult s (s.takeFault f) = .fault f := by
  simp [fetchResult]

theorem fetchResult_halt (s : State) : fetchResult s (effect .halt s) = .halted := by
  simp [fetchResult, effect]

theorem fetchResult_of_runKept {s t : State} (h : RunKept s t) : fetchResult s t = .ok := by
  obtain ⟨_, events⟩ := h
  simp [fetchResult, events]

/-! ## Linear advance -/

/-- R25's table for an instruction that advances linearly. -/
theorem newPc_of_advancesLinearly {i : Instr} {s : State} {pc : Word} (linear : AdvancesLinearly i s)
    (h : NewPc i s pc) : pc = s.pc + BitVec.ofNat 16 i.width := by
  rcases linear with notTransfer | ⟨l, rfl, nonzero⟩ | ⟨l, rfl, zero⟩
  · cases i
    case goto | call | ret => cases notTransfer
    all_goals exact h
  · exact h.trans (if_neg (by simpa using nonzero))
  · exact h.trans (if_neg (by simpa using zero))

/-- The bytes of an instruction that completes, its opcode byte in memory, all lie in memory. -/
theorem width_inside_of_completes {i : Instr} {s : State} (h : Completes i s)
    (inside : s.pc.toNat < s.cfg.memSize) : s.pc.toNat + i.width ≤ s.cfg.memSize := by
  have operands := not_operandOutside_of_completes h
  unfold OperandOutside at operands
  omega

end Sys2Proof.Machine

namespace Sys2Proof.Proofs

open Sys2Proof.Machine

/-- Settles O17: with its operand bytes in memory XSET is one register write and an advance by 3, and without
them the fault of the operand fetch. -/
theorem xsetLoadsItsImmediate : Obligations.XsetLoadsItsImmediate := by
  intro imm16 s
  refine ⟨fun inside => ⟨_, exec_xset_of_operands_inside inside imm16, x_setX_self s 0 imm16, rfl,
      onlyRegs_setX_advance s 0 imm16 3⟩,
    fun outside => ⟨_, exec_xset_of_operands_outside outside imm16, takesFault_takeFault _ s⟩,
    fun o1 o2 operand => ?decodes⟩
  case decodes => rw [eq_wordOf operand.symm]; rfl

/-- Settles O29: CMP writes FLAG with the comparison of R0 and R1, and advances by 1. -/
theorem cmpSetsTheFlag : Obligations.CmpSetsTheFlag :=
  ⟨fun s => ⟨_, rfl, compareFlag_iff s, rfl, fun _ _ => rfl, rfl, fun _ => rfl, effect_tablesKept .cmp s,
    effect_runKept (i := .cmp) nofun s⟩, fun _ _ => rfl⟩

/-- Settles O30: the three reserved instructions, and whatever a byte from 0xF9 on decodes to, are reserved
(`isReserved_decodeWindow`), and a reserved instruction takes its fault (`exec_of_isReserved`). -/
theorem reservedOpcodesTakeTheirFault : Obligations.ReservedOpcodesTakeTheirFault := by
  have takes : ∀ {i} (s : State), isReserved i = true →
      ∃ t, exec i s = .next t ∧ TakesFault .unknownExtendedOpcode s t := fun s reserved =>
    ⟨_, exec_of_isReserved reserved s, takesFault_takeFault _ s⟩
  refine ⟨fun s => ⟨takes s rfl, fun _ => takes s rfl, fun _ => takes s rfl⟩, fun s inside high => ?_⟩
  rcases fetchExecute_cases s with ⟨outside, _⟩ | ⟨_, runs⟩
  · omega
  · rw [runs]
    refine takes s ?_
    rw [isReserved_decodeWindow, fetchByte_of_inside inside]
    exact decide_eq_true high

/-- Settles O31: `exec` takes the fault that is reported (`exec_of_reports`) and else has the instruction's
effect (`exec_of_completes`), which for every instruction but HALT leaves STATUS and the events alone. -/
theorem faultsAreExactlyThoseListed : Obligations.FaultsAreExactlyThoseListed := by
  refine ⟨fun s outside => ⟨_, fetchExecute_of_pc_outside outside, takesFault_takeFault _ s⟩,
    fun i s tail inside decoded => fetchExecute_of_decode inside decoded,
    fun i s => ⟨fun f => exec_takesFault, fun completes notHalt => ?_, fun completes halts => ?_⟩⟩
  · exact ⟨_, exec_of_completes completes, effect_runKept notHalt s⟩
  · subst halts
    exact ⟨_, exec_halt s, rfl, rfl⟩

/-- Settles O32: the one event that fetch-execute emits is the fault's or HALT's, and without one the result
is ok. -/
theorem fetchResultIsOneOfThree : Obligations.FetchResultIsOneOfThree := by
  refine ⟨fun s outside => ⟨_, fetchExecute_of_pc_outside outside, fetchResult_takeFault s _,
    takesFault_takeFault _ s⟩, fun i s tail inside decoded => ?_⟩
  rw [fetchExecute_of_decode inside decoded]
  refine ⟨fun f reports => ?fault, fun completes halts => ?halted, fun completes notHalt => ?ok⟩
  case fault => exact ⟨_, exec_of_reports reports, fetchResult_takeFault s f, takesFault_takeFault f s⟩
  case halted =>
    subst halts
    exact ⟨_, exec_halt s, fetchResult_halt s, rfl, rfl⟩
  case ok =>
    have run := exec_of_completes completes
    exact ⟨_, run, run, fetchResult_of_runKept (effect_runKept notHalt s)⟩

/-- Settles O34: PC goes where R25's table says (`newPcIsTheTables`), the width of the instruction further on,
and its bytes lie in a memory that ends below 65536. -/
theorem linearAdvanceNeverWraps : Obligations.LinearAdvanceNeverWraps := by
  intro s t i rest wf inside decoded run completes linear
  rw [fetchExecute_of_decode inside decoded] at run
  have pc := newPc_of_advancesLinearly linear ((newPcIsTheTables i s t run).1 completes)
  have room := width_inside_of_completes completes inside
  have sizes := sizes_of_wf wf
  have exactly : t.pc.toNat = s.pc.toNat + i.width := by
    rw [pc, BitVec.toNat_add, BitVec.toNat_ofNat]
    omega
  exact ⟨exactly, exactly ▸ room⟩

end Sys2Proof.Proofs

/-! What an instruction reads and writes (R21, R22, R28, R29): the value it leaves in a register it writes, what
a register or FLAG that it does not read makes no difference to, and the obligations about it. -/

namespace Sys2Proof.Machine

/-! ## The registers written -/

/-- The value that an instruction leaves in a register it writes, from the state before it. -/
def writtenValue : Instr → State → RegIdx → Word
  | .set imm5, _, _ => imm5.setWidth 16
  | .add n, s, _ => s.x 0 + s.x n
  | .sub n, s, _ => s.x 0 - s.x n
  | .mul n, s, _ => s.x 0 * s.x n
  | .popReg _, s, _ => s.mem.readWord s.sp.toNat
  | .popAcc, s, _ => s.mem.readWord s.sp.toNat
  | .load addr, s, _ => s.mem.readWord addr.toNat
  | .swap a b, s, r => if r = b then s.x a else s.x b
  | .xset imm16, _, _ => imm16
  | _, s, r => s.x r

/-- The registers after an instruction's effect: the writes column of R21. -/
theorem x_effect (i : Instr) (s : State) (r : RegIdx) :
    (effect i s).x r = if r ∈ regsWritten i then writtenValue i s r else s.x r := by
  cases i
  case goto l c => simp only [effect]; split <;> rfl
  case swap a b =>
    simp only [effect, x_advance, x_exchange, regsWritten, writtenValue, List.mem_cons, List.not_mem_nil,
      or_false]
    split_ifs <;> simp_all
  case set | add | sub | mul | popReg | popAcc | load | xset =>
    simp only [effect, x_advance, x_setX, regsWritten, List.mem_singleton]
    rfl
  all_goals rfl

theorem effect_regsKept (i : Instr) (s : State) : RegsKeptBut (regsWritten i) s (effect i s) :=
  fun r other => (x_effect i s r).trans (if_neg other)

theorem exec_regsKept {i : Instr} {s t : State} (h : exec i s = .next t) :
    RegsKeptBut (regsWritten i) s t := by
  rcases exec_inv h with rfl | ⟨f, rfl⟩
  · exact effect_regsKept i s
  · exact fun _ _ => rfl

/-! ## The registers read -/

/-- Which fault an instruction reports depends on the configuration, PC and SP alone. -/
theorem reports_congr {i : Instr} {s t : State} {f : Fault} (cfg : t.cfg = s.cfg) (pc : t.pc = s.pc)
    (sp : t.sp = s.sp) : Reports i t f ↔ Reports i s f := by
  rw [reports_iff, reports_iff]
  unfold reportedFault boundsCheck
  rw [cfg, pc, sp]

/-- Two states agree in everything that an instruction may write but the registers. -/
def SameButRegs (t u : State) : Prop :=
  u.pc = t.pc ∧ u.sp = t.sp ∧ u.flag = t.flag ∧ u.mem = t.mem ∧ u.labels = t.labels ∧
    u.progLen = t.progLen ∧ u.status = t.status ∧ u.events = t.events

section NotRead

variable {i : Instr} {q : RegIdx} (notRead : q ∉ regsRead i) (s : State) (v : Word)
include notRead

theorem x_setX_of_read {n : RegIdx} (read : n ∈ regsRead i) : (s.setX q v).x n = s.x n :=
  x_setX_ne s v fun same => notRead (same ▸ read)

/-- The value written does not depend on a register that is not read. -/
theorem writtenValue_setX {r : RegIdx} (written : r ∈ regsWritten i) :
    writtenValue i (s.setX q v) r = writtenValue i s r := by
  have kept {n} := x_setX_of_read notRead s v (n := n)
  cases i
  case add n | sub n | mul n =>
    simp only [writtenValue, kept (n := 0) (by simp [regsRead]), kept (n := n) (by simp [regsRead])]
  case swap a b =>
    simp only [writtenValue, kept (n := a) (by simp [regsRead]), kept (n := b) (by simp [regsRead])]
  case set | popReg | popAcc | load | xset => rfl
  all_goals exact absurd written List.not_mem_nil

/-- Nor does anything else but the register itself. -/
theorem effect_setX_sameButRegs : SameButRegs (effect i s) (effect i (s.setX q v)) := by
  have kept {n} := x_setX_of_read notRead s v (n := n)
  cases i
  case pushReg | pushAcc | store =>
    exact ⟨rfl, rfl, rfl, congrArg (s.mem.writeWord _) (kept (.head _)), rfl, rfl, rfl, rfl⟩
  case goto l c =>
    have same : (s.setX q v).taken c = s.taken c := by
      unfold State.taken
      rw [kept (.head _)]
    simp only [effect, same]
    split <;> exact ⟨rfl, rfl, rfl, rfl, rfl, rfl, rfl, rfl⟩
  case cmp =>
    have same : (s.setX q v).compareFlag = s.compareFlag :=
      congrArg₂ (· == ·) (kept (.head _)) (kept (.tail _ (.head _)))
    exact ⟨rfl, rfl, same, rfl, rfl, rfl, rfl, rfl⟩
  all_goals exact ⟨rfl, rfl, rfl, rfl, rfl, rfl, rfl, rfl⟩

theorem effect_setX_regsKept : RegsKeptBut [q] (effect i s) (effect i (s.setX q v)) := by
  intro r other
  rw [x_effect, x_effect, x_setX_ne s v (List.ne_of_not_mem_cons other)]
  split
  next written => exact writtenValue_setX notRead s v written
  next => rfl

theorem x_effect_setX_of_written (written : q ∈ regsWritten i) :
    (effect i (s.setX q v)).x q = (effect i s).x q := by
  rw [x_effect, x_effect, if_pos written, if_pos written, writtenValue_setX notRead s v written]

end NotRead

/-! ## The columns from below -/

/-- Contents of the registers with which an instruction changes each register it writes, where memory is
all 0. -/
def changingValue : Instr → RegIdx → Word
  | .set _, _ => 0xFFFF
  | .xset imm16, _ => imm16 + 1
  | .swap a _, r => if r = a then 1 else 0
  | _, _ => 2

/-- `s` with those registers and an empty memory. -/
def State.changing (s : State) (i : Instr) : State :=
  { s with regs := Vector.ofFn (changingValue i), mem := [] }

@[simp] theorem x_changing (s : State) (i : Instr) (r : RegIdx) :
    (s.changing i).x r = changingValue i r := by
  simp [State.changing, State.x]

theorem completes_changing (i : Instr) (s : State) : Completes i (s.changing i) ↔ Completes i s := by
  unfold State.changing
  exact completes_congr rfl rfl rfl

theorem readWord_nil (a : Nat) : Memory.readWord [] a = 0 := (rfl : wordOf 0 0 = 0)

theorem writtenValue_changes {i : Instr} (notSelf : ∀ a, i ≠ .swap a a) {r : RegIdx}
    (written : r ∈ regsWritten i) (s : State) :
    writtenValue i (s.changing i) r ≠ (s.changing i).x r := by
  have empty : (s.changing i).mem = [] := rfl
  simp only [x_changing]
  cases i
  case set imm5 =>
    have narrow : ∀ w : BitVec 5, w.setWidth 16 ≠ (0xFFFF : Word) := by decide
    exact narrow imm5
  case xset imm16 => simp [writtenValue, changingValue]
  case add | sub | mul =>
    simp only [writtenValue, x_changing, changingValue]
    decide
  case popReg | popAcc | load =>
    simp only [writtenValue, empty, readWord_nil, changingValue]
    decide
  case swap a b =>
    have apart : b ≠ a := fun e => notSelf a (e ▸ rfl)
    simp only [writtenValue, x_changing, changingValue, if_pos, if_neg apart]
    rcases List.mem_pair.1 written with rfl | rfl
    · simp [apart.symm]
    · simp [apart]
  all_goals exact absurd written List.not_mem_nil

/-- `s` with every register 1, and every label a target that no advance from PC reaches. -/
def State.ones (s : State) : State :=
  { s with regs := Vector.replicate 17 1, labels := Vector.replicate 16 s.pc }

@[simp] theorem pc_ones (s : State) : s.ones.pc = s.pc := rfl

@[simp] theorem x_ones (s : State) (r : RegIdx) : s.ones.x r = 1 := by
  simp [State.ones, State.x]

@[simp] theorem labelAt_ones (s : State) (l : LabelId) : s.ones.labelAt l = s.pc := by
  simp [State.ones, State.labelAt]

/-- The value of register `q` makes a difference between the next states `t` and `u` of the instruction,
beyond its being kept. -/
def Differs (i : Instr) (q : RegIdx) (t u : State) : Prop :=
  u.pc ≠ t.pc ∨ u.flag ≠ t.flag ∨ (∃ a, u.mem.read a ≠ t.mem.read a) ∨
    ∃ r, (r ≠ q ∨ r ∈ regsWritten i) ∧ u.x r ≠ t.x r

theorem differs_of_written {i : Instr} {q : RegIdx} {s s' : State} (r : RegIdx) (written : r ∈ regsWritten i)
    (other : writtenValue i s' r ≠ writtenValue i s r) : Differs i q (effect i s) (effect i s') := by
  refine .inr (.inr (.inr ⟨r, .inr written, ?_⟩))
  rwa [x_effect, x_effect, if_pos written, if_pos written]

/-- The register is what is stored, at an address that does not depend on it. -/
theorem differs_of_stored {i : Instr} {q : RegIdx} {s t u : State} {m : Memory} {a : Nat}
    (ht : t.mem = m.writeWord a (s.ones.x q)) (hu : u.mem = m.writeWord a ((s.ones.setX q 0).x q)) :
    Differs i q t u := by
  refine .inr (.inr (.inl ⟨a + 1, ?_⟩))
  rw [ht, hu, read_writeWord_lo, read_writeWord_lo, x_ones, x_setX_self]
  decide

theorem differs_of_read {i : Instr} (wf : i.wf = true) {q : RegIdx} (read : q ∈ regsRead i) (s : State) :
    Differs i q (effect i s.ones) (effect i (s.ones.setX q 0)) := by
  cases i
  case add n | sub n | mul n =>
    have nonzero : n ≠ 0 := bne_iff_ne.1 wf
    refine differs_of_written 0 (.head _) ?_
    rcases List.mem_pair.1 read with rfl | rfl
    · simp [writtenValue, x_setX, nonzero]
    · simp [writtenValue, x_setX, nonzero.symm]
  case pushReg | pushAcc =>
    obtain rfl := List.mem_singleton.1 read
    exact differs_of_stored (m := s.mem) (a := s.pushSlot) rfl rfl
  case store addr =>
    obtain rfl := List.mem_singleton.1 read
    exact differs_of_stored (m := s.mem) (a := addr.toNat) rfl rfl
  case goto l c =>
    obtain rfl := List.mem_singleton.1 read
    refine .inl ?_
    cases c <;> simp [effect, State.taken]
  case swap a b =>
    rcases List.mem_pair.1 read with rfl | rfl
    · refine differs_of_written b (.tail _ (.head _)) ?_
      simp [writtenValue]
    · refine differs_of_written a (.head _) ?_
      by_cases same : a = q <;> simp [writtenValue, same]
  case cmp =>
    refine .inr (.inl ?_)
    rcases List.mem_pair.1 read with rfl | rfl
    · simp [effect, State.compareFlag, x_setX]
    · simp [effect, State.compareFlag, x_setX]
  all_goals exact absurd read List.not_mem_nil

/-! ## SP and FLAG -/

/-- The effect of an instruction moves SP only by a push or a pop (R28). -/
theorem effect_sp (i : Instr) (s : State) :
    (effect i s).sp = s.sp ∨ (isPush i = true ∧ (effect i s).sp = s.sp - 2) ∨
      (isPop i = true ∧ (effect i s).sp = s.sp + 2) := by
  cases i
  case pushReg | pushAcc | call => exact .inr (.inl ⟨rfl, rfl⟩)
  case popReg | popAcc | ret => exact .inr (.inr ⟨rfl, rfl⟩)
  case goto l c => simp only [effect]; split <;> exact .inl rfl
  all_goals exact .inl rfl

section NotCmp

variable {i : Instr} (notCmp : i ≠ .cmp) (s : State)
include notCmp

theorem effect_flag : (effect i s).flag = s.flag := by
  cases i
  case cmp => exact absurd rfl notCmp
  case goto l c => simp only [effect]; split <;> rfl
  all_goals rfl

/-- An instruction other than CMP does the same whatever FLAG is. -/
theorem effect_setFlag (v : Bool) : effect i (s.setFlag v) = (effect i s).setFlag v := by
  cases i
  case cmp => exact absurd rfl notCmp
  case goto l c =>
    have same : (s.setFlag v).taken c = s.taken c := rfl
    simp only [effect, same]
    split <;> rfl
  all_goals rfl

end NotCmp

end Sys2Proof.Machine

namespace Sys2Proof.Proofs

open Sys2Proof.Machine

/-- Settles O35: the writes column is `x_effect`; a register outside the reads column makes no difference
(`effect_setX_regsKept`, `effect_setX_sameButRegs`); and both columns are reached from below in the states
`State.changing` and `State.ones`, where the instruction completes as it does in `s`. -/
theorem registersReadAndWrittenAreTheTables : Obligations.RegistersReadAndWrittenAreTheTables := by
  refine ⟨fun i s t => exec_regsKept, fun i s q v notRead => ?unread,
    fun i s r completes written notSelf => ?changes, fun i s q wf completes read => ?matters⟩
  case unread =>
    rcases completes_or_reports i s with completes | ⟨f, reports⟩
    · have completes' := (completes_congr (t := s.setX q v) rfl rfl rfl).2 completes
      exact ⟨_, _, exec_of_completes completes, exec_of_completes completes',
        effect_setX_regsKept notRead s v, fun _ => x_effect_setX_of_written notRead s v,
        effect_setX_sameButRegs notRead s v⟩
    · have reports' := (reports_congr (t := s.setX q v) rfl rfl rfl).2 reports
      exact ⟨_, _, exec_of_reports reports, exec_of_reports reports',
        fun r other => x_setX_ne s v (List.ne_of_not_mem_cons other),
        fun completes => absurd reports (completes f), rfl, rfl, rfl, rfl, rfl, rfl, rfl, rfl⟩
  case changes =>
    have completes' := (completes_changing i s).2 completes
    refine ⟨Vector.ofFn (changingValue i), [], effect i (s.changing i), exec_of_completes completes', ?_⟩
    rw [x_effect, if_pos written]
    exact writtenValue_changes notSelf written s
  case matters =>
    have completes' := (completes_congr (t := s.ones) rfl rfl rfl).2 completes
    have completes'' := (completes_congr (t := s.ones.setX q 0) rfl rfl rfl).2 completes'
    exact ⟨Vector.replicate 17 1, s.mem, Vector.replicate 16 s.pc, 0, effect i s.ones,
      effect i (s.ones.setX q 0), exec_of_completes completes', exec_of_completes completes'',
      differs_of_read wf read s⟩

/-- Settles O36: an instruction that writes R16 and is well-formed is POP R16, and a decoded SWAP is
well-formed. -/
theorem onlyPopReachesR16 : Obligations.OnlyPopReachesR16 := by
  constructor
  case left =>
    intro i s t wf run changed
    have written : 16 ∈ regsWritten i := by
      by_contra other
      exact changed (exec_regsKept run 16 other)
    cases i
    case popReg n => rw [List.mem_singleton.1 written]
    case swap a b =>
      obtain ⟨notLeft, notRight⟩ : a ≠ 16 ∧ b ≠ 16 := by simpa [Instr.wf] using wf
      rcases List.mem_pair.1 written with same | same
      · exact absurd same.symm notLeft
      · exact absurd same.symm notRight
    all_goals simp [regsWritten] at written
  case right =>
    intro b o1 o2 r q h
    have wf := wf_decodeWindow b o1 o2
    rw [h] at wf
    simpa [Instr.wf] using wf

/-- Settles O37: the effect of every other instruction keeps FLAG and does not look at it, and CMP writes it
from R0 and R1 alone. -/
theorem flagIsCmpsAlone : Obligations.FlagIsCmpsAlone := by
  intro i s
  refine ⟨fun t run notCmp => ?kept, fun v notCmp => ?same, fun v => rfl⟩
  case kept =>
    rcases exec_inv run with rfl | ⟨f, rfl⟩
    · exact effect_flag notCmp s
    · rfl
  case same =>
    rcases completes_or_reports i s with completes | ⟨f, reports⟩
    · have completes' := (completes_congr (t := s.setFlag v) rfl rfl rfl).2 completes
      exact ⟨_, exec_of_completes completes,
        (exec_of_completes completes').trans (congrArg _ (effect_setFlag notCmp s v))⟩
    · have reports' := (reports_congr (t := s.setFlag v) rfl rfl rfl).2 reports
      exact ⟨_, exec_of_reports reports, exec_of_reports reports'⟩

/-- Settles O38: SP after an instruction's effect is `effect_sp`, and a fault keeps it. -/
theorem onlyTheStackPrimitivesMoveSp : Obligations.OnlyTheStackPrimitivesMoveSp := by
  intro i s t run moved
  rcases exec_inv run with rfl | ⟨f, rfl⟩
  · exact (effect_sp i s).resolve_left moved
  · exact absurd rfl moved

end Sys2Proof.Proofs

/-! Memory after an instruction (R45, R50, R52, R64, R222): canonical memories are equal when they read alike,
what LOAD and the fetch read after a store, and the stack dump. -/

namespace Sys2Proof.Machine

/-! ## Canonical memories -/

/-- The order of the cells of a canonical memory. -/
def AddressLt (c d : Host.Cell) : Prop := c.1 < d.1

theorem addressLt_irrefl : Std.Irrefl AddressLt := ⟨fun c => Nat.lt_irrefl c.1⟩
theorem addressLt_anti : Std.Antisymm AddressLt :=
  ⟨fun _ _ h h' => absurd h' (Nat.lt_asymm h)⟩

theorem mem_of_read_ne_zero {m : Memory} {a : Nat} (h : m.read a ≠ 0) : (a, m.read a) ∈ m := by
  induction m with
  | nil => exact absurd rfl h
  | cons c m ih =>
    rw [read_cons] at h ⊢
    by_cases here : c.1 = a
    · subst here
      rw [if_pos rfl]
      exact .head _
    · rw [if_neg here] at h ⊢
      exact .tail _ (ih h)

theorem read_of_mem {m : Memory} (sorted : m.Pairwise AddressLt) {c : Host.Cell} (member : c ∈ m) :
    m.read c.1 = c.2 := by
  induction m with
  | nil => cases member
  | cons d m ih =>
    obtain ⟨below, sorted⟩ := List.pairwise_cons.1 sorted
    rw [read_cons]
    rcases List.mem_cons.1 member with rfl | member
    · exact if_pos rfl
    · rw [if_neg (Nat.ne_of_lt (below c member)), ih sorted member]

/-- The cells of a canonical memory are the bytes that do not read 0. -/
theorem mem_iff_read {m : Memory} (wf : m.wf = true) (c : Host.Cell) :
    c ∈ m ↔ m.read c.1 = c.2 ∧ c.2 ≠ 0 := by
  obtain ⟨sorted, nonzero⟩ := (wf_iff m).1 wf
  constructor
  · exact fun member => ⟨read_of_mem sorted member, nonzero c member⟩
  · rintro ⟨byte, listed⟩
    have := mem_of_read_ne_zero (byte.symm ▸ listed)
    rwa [byte] at this

theorem eq_of_read_eq {m n : Memory} (hm : m.wf = true) (hn : n.wf = true)
    (same : ∀ a, m.read a = n.read a) : m = n := by
  have := addressLt_irrefl
  have := addressLt_anti
  exact ((wf_iff m).1 hm).1.eq_of_mem_iff ((wf_iff n).1 hn).1 (r := AddressLt) fun c => by
    rw [mem_iff_read hm, mem_iff_read hn, same]

/-! ## Reading what was stored -/

/-- A word read one byte above a word written: its low byte, and the byte after it (R52). -/
theorem readWord_writeWord_succ (m : Memory) (a : Nat) (w : Word) :
    (m.writeWord a w).readWord (a + 1) = wordOf (loByte w) (m.read (a + 2)) :=
  congrArg₂ wordOf (read_writeWord_lo m a w) (read_writeWord_ne w (by omega))

/-- A fetch at the address of a word written reads its bytes (R64). -/
theorem fetch_of_writeWord {t : State} {m : Memory} {a w : Word} (mem : t.mem = m.writeWord a.toNat w)
    (inside : a.toNat + 1 < t.cfg.memSize) :
    (t.jump a).fetchByte 0 = hiByte w ∧ (t.jump a).fetchByte 1 = loByte w := by
  rw [fetchByte_of_inside (s := t.jump a) (Nat.lt_of_succ_lt inside),
    fetchByte_of_inside (s := t.jump a) inside, jump_pc, jump_mem, mem]
  exact ⟨read_writeWord_hi m _ w, read_writeWord_lo m _ w⟩

/-- The slot that a push with room writes lies in memory. -/
theorem pushSlot_inside {s : State} (inv : Inv s) (room : ¬ StackFull s) :
    (s.sp - 2).toNat + 1 < s.cfg.memSize := by
  have slot : (s.sp - 2).toNat + 2 = s.sp.toNat := pushSlot_add_two room
  have sizes := sizes_of_wf inv.cfgOk
  have high := inv.spHigh
  omega

/-- An instruction with a value to push pushes it, and memory, SP, the label table and the stack show
nothing else of what it does. -/
theorem effect_of_pushedValue {i : Instr} {s : State} {v : Word} (h : pushedValue i s = some v) :
    isPush i = true ∧ (effect i s).sp = s.sp - 2 ∧ (effect i s).mem = s.mem.writeWord s.pushSlot v ∧
      (effect i s).labels = s.labels ∧ (effect i s).stackDump = (s.pushed v).stackDump := by
  cases i
  case pushReg | pushAcc | call =>
    obtain rfl := Option.some.inj h
    exact ⟨rfl, rfl, rfl, rfl, rfl⟩
  all_goals cases h

/-- A fetch at the slot that an instruction pushed to reads the bytes of its value. -/
theorem fetch_of_push {i : Instr} {s t : State} {v : Word} (inv : Inv s) (completes : Completes i s)
    (run : exec i s = .next t) (value : pushedValue i s = some v) :
    (t.jump t.sp).fetchByte 0 = hiByte v ∧ (t.jump t.sp).fetchByte 1 = loByte v ∧ t.labels = s.labels := by
  obtain rfl : effect i s = t := by simpa [exec_of_completes completes] using run
  obtain ⟨pushes, sp, mem, labels, -⟩ := effect_of_pushedValue value
  obtain ⟨cfg, -⟩ := effect_tablesKept i s
  have inside := pushSlot_inside inv (not_stackFull_of_completes completes pushes)
  obtain ⟨high, low⟩ := fetch_of_writeWord (a := s.sp - 2) mem (by rw [cfg]; exact inside)
  rw [sp]
  exact ⟨high, low, labels⟩

/-! ## The stack dump -/

theorem stackDump_pushed {s : State} (room : ¬ StackFull s) (high : s.sp.toNat ≤ s.cfg.stackHead)
    (v : Word) : (s.pushed v).stackDump = v :: s.stackDump := by
  have slot := pushSlot_add_two room
  have deeper : (s.pushed v).depth = s.depth + 1 := by
    have sp : (s.pushed v).sp.toNat = s.pushSlot := rfl
    rw [State.depth, State.depth, sp, pushed_cfg]
    omega
  have below : wordsFrom (s.pushed v).mem s.depth (s.pushSlot + 2) = s.stackDump := by
    rw [pushed_mem, wordsFrom_writeWord_of_le (Nat.le_refl _), slot]
    rfl
  rw [State.stackDump, deeper]
  exact congrArg₂ List.cons (readWord_writeWord s.mem s.pushSlot v) below

theorem stackDump_popped {s : State} (slot : ¬ StackEmpty s) (head : s.cfg.stackHead ≤ 65535) :
    s.stackDump = s.mem.readWord s.sp.toNat :: s.popped.stackDump := by
  have sp := popped_sp_toNat head slot
  have deeper : s.depth = s.popped.depth + 1 := by
    rw [stackEmpty_iff] at slot
    rw [State.depth, State.depth, sp, popped_cfg]
    omega
  rw [State.stackDump, deeper, wordsFrom, State.stackDump, sp]
  rfl

/-- An instruction with a value popped has popped it off the old stack. -/
theorem effect_of_poppedValue {i : Instr} {s : State} {v : Word} (h : poppedValue i (effect i s) = some v) :
    isPop i = true ∧ s.mem.readWord s.sp.toNat = v ∧ (effect i s).stackDump = s.popped.stackDump := by
  cases i
  case popReg n => exact ⟨rfl, (x_setX_self s.popped n _).symm.trans (Option.some.inj h), rfl⟩
  case popAcc => exact ⟨rfl, (x_setX_self s.popped 0 _).symm.trans (Option.some.inj h), rfl⟩
  case ret => exact ⟨rfl, Option.some.inj h, rfl⟩
  all_goals cases h

end Sys2Proof.Machine

namespace Sys2Proof.Proofs

open Sys2Proof.Machine

/-- Settles O15: the cells of a canonical memory are told by its reads (`mem_iff_read`), and they stand in
the order of their addresses. -/
theorem canonicalMemoriesThatReadAlikeAreEqual : Obligations.CanonicalMemoriesThatReadAlikeAreEqual :=
  fun _ _ hm hn same => eq_of_read_eq hm hn same

/-- Settles O42: LOAD reads the word that STORE wrote, or the word one byte above it
(`readWord_writeWord_succ`). -/
theorem loadAfterStore : Obligations.LoadAfterStore := by
  intro a b s t u storeOk store loadOk load
  obtain rfl : effect (.store a) s = t := by simpa [exec_of_completes storeOk] using store
  obtain rfl : effect (.load b) (effect (.store a) s) = u := by
    simpa [exec_of_completes loadOk] using load
  have loaded : (effect (.load b) (effect (.store a) s)).x 0 =
      (s.mem.writeWord a.toNat (s.x 0)).readWord b.toNat := x_setX_self _ 0 _
  rw [loaded]
  constructor
  · rintro rfl
    exact readWord_writeWord s.mem _ _
  · intro next
    rw [next, readWord_writeWord_succ, wordOf_toNat, loByte_toNat]

/-- Settles O43: STORE and what pushes write a word that lies in memory, and a fetch at its address reads it
(`fetch_of_writeWord`, `fetch_of_push`). -/
theorem fetchSeesStoredBytes : Obligations.FetchSeesStoredBytes := by
  refine ⟨fun a s t completes run => ?store, fun n s t inv completes run => ?register,
    fun s t inv completes run => ?accumulator, fun a s t inv completes run => ?call⟩
  case store =>
    obtain rfl : effect (.store a) s = t := by simpa [exec_of_completes completes] using run
    have inside := word_inside_of_completes completes rfl
    obtain ⟨high, low⟩ := fetch_of_writeWord (t := effect (.store a) s) (m := s.mem) rfl inside
    exact ⟨high, low, rfl⟩
  all_goals exact fetch_of_push inv completes run rfl

/-- Settles O44: the dump of a push has the value on top of the old dump (`stackDump_pushed`), and the old
dump of a pop has it on top of the new one (`stackDump_popped`). -/
theorem stackDumpFollowsPushAndPop : Obligations.StackDumpFollowsPushAndPop := by
  intro i v s t wf high completes run
  obtain rfl : effect i s = t := by simpa [exec_of_completes completes] using run
  constructor
  · intro value
    obtain ⟨pushes, -, -, -, dump⟩ := effect_of_pushedValue value
    rw [dump, stackDump_pushed (not_stackFull_of_completes completes pushes) high]
  · intro value
    obtain ⟨pops, top, dump⟩ := effect_of_poppedValue value
    rw [dump, ← top]
    exact stackDump_popped (not_stackEmpty_of_completes completes pops) (stackHead_le_of_wf wf)

end Sys2Proof.Proofs

/-! The encoder of mnemonic strings outside its table (R105, R111): unknown names, the operands it refuses, and
whole programs, and the obligation about them. -/

namespace Sys2Proof.Machine

theorem mem_encoderNames_of_baseName? {cs : List Char} {op : BaseName} (h : baseName? cs = some op) :
    String.ofList cs ∈ encoderNames := by
  unfold baseName? at h
  split_ifs at h <;> subst cs <;> decide

/-- The name of a text is what stands before its first underscore. -/
theorem splitUnderscore_name {name rest : List Char} (noUnderscore : '_' ∉ name)
    (ends : rest = [] ∨ rest.head? = some '_') :
    ∃ parts, splitUnderscore (name ++ rest) = name :: parts := by
  cases rest with
  | nil => exact ⟨[], by rw [List.append_nil, splitUnderscore_self noUnderscore]⟩
  | cons c cs =>
    obtain rfl : c = '_' := by simpa using ends
    exact ⟨_, splitUnderscore_append noUnderscore cs⟩

theorem encodeMnemonic_unknown {name rest : List Char} (noUnderscore : '_' ∉ name)
    (unknown : String.ofList name ∉ encoderNames) (ends : rest = [] ∨ rest.head? = some '_') :
    encodeMnemonic (String.ofList (name ++ rest)) = .ok 0 := by
  obtain ⟨parts, split⟩ := splitUnderscore_name noUnderscore ends
  have noOperation : baseName? name = none :=
    Option.eq_none_iff_forall_ne_some.2 fun op h => unknown (mem_encoderNames_of_baseName? h)
  simp only [encodeMnemonic, String.toList_ofList, split, noOperation]

theorem ranged_eq_error {lo hi n base : Nat} (outside : n < lo ∨ hi < n) :
    ranged lo hi n base = .error .operandOutOfRange :=
  if_neg (by omega)

/-- What the encoder knows of each of its names: it has no underscore, and denotes an operation. -/
theorem baseName?_of_mem {name : String} (h : name ∈ encoderNames) :
    '_' ∉ name.toList ∧ ∃ op, baseName? name.toList = some op ∧
      operandCount name = if op = .goto then 2 else 1 := by
  simp only [encoderNames, List.mem_cons, List.not_mem_nil, or_false] at h
  rcases h with rfl | rfl | rfl | rfl | rfl | rfl | rfl | rfl <;>
    exact ⟨by decide, _, rfl, by decide⟩

/-- R111 and log 13: a known name with a wrong number of operands, or with one that is no numeral. -/
theorem encodeMnemonic_malformed {name : String} (known : name ∈ encoderNames) {parts : List String}
    (noUnderscore : ∀ p ∈ parts, '_' ∉ p.toList)
    (malformed : parts.length ≠ operandCount name ∨ ∃ p ∈ parts, NoNumeral p) :
    encodeMnemonic ("_".intercalate (name :: parts)) = .error .operandsMalformed := by
  obtain ⟨plain, op, denotes, count⟩ := baseName?_of_mem known
  simp only [encodeMnemonic_intercalate plain noUnderscore, denotes]
  apply encodeOperands_malformed
  rw [List.length_map, ← count]
  refine malformed.imp_right fun ⟨p, member, noNumeral⟩ => ?_
  have unread : numeral? p.toList = none :=
    numeral?_eq_none (noNumeral.imp_left fun empty => by rw [empty]; rfl)
  exact List.mem_map.2 ⟨p, member, unread⟩

/-! ## Programs -/

/-- A program is encoded if its first mnemonic and the program of the others are (R111). -/
theorem assemble_cons_inv {text : String} {texts : List String} {bytes : List Byte}
    (h : assemble (text :: texts) = .ok bytes) :
    ∃ b rest, bytes = b :: rest ∧ encodeMnemonic text = .ok b ∧ assemble texts = .ok rest := by
  rw [assemble] at h
  cases first : encodeMnemonic text with
  | error e => rw [first] at h; cases h
  | ok b =>
    cases others : assemble texts with
    | error e => rw [first, others] at h; cases h
    | ok rest =>
      rw [first, others] at h
      cases h
      exact ⟨b, rest, rfl, rfl, rfl⟩

theorem assemble_bytes {texts : List String} {bytes : List Byte} (h : assemble texts = .ok bytes) :
    List.Forall₂ (fun text b => encodeMnemonic text = .ok b) texts bytes := by
  induction texts generalizing bytes with
  | nil => cases h; exact .nil
  | cons text texts ih =>
    obtain ⟨b, rest, rfl, first, others⟩ := assemble_cons_inv h
    exact .cons first (ih others)

end Sys2Proof.Machine

namespace Sys2Proof.Proofs

open Sys2Proof.Machine

/-- Settles O9: a name is told from its text (`encodeMnemonic_unknown`), an operand out of range or malformed
is refused, and a program is encoded mnemonic by mnemonic (`assemble_bytes`). -/
theorem encoderOutsideItsTable : Obligations.EncoderOutsideItsTable := by
  refine ⟨fun _ _ plain unknown ends => encodeMnemonic_unknown plain unknown ends, fun n out => ?set,
    fun n out => ⟨?add, ?sub, ?mul⟩, fun n out => ⟨?push, ?pop⟩, fun l o out => ?goto, fun l out => ?label,
    fun l => ⟨_, encodeMnemonic_one .goto l⟩,
    fun name known parts plain malformed => ⟨_, encodeMnemonic_malformed known plain malformed⟩,
    fun texts bytes h => ?program⟩
  case set => exact ⟨_, (encodeMnemonic_one .set n).trans (ranged_eq_error (.inr out))⟩
  case add => exact ⟨_, (encodeMnemonic_one .add n).trans (ranged_eq_error (by omega))⟩
  case sub => exact ⟨_, (encodeMnemonic_one .sub n).trans (ranged_eq_error (by omega))⟩
  case mul => exact ⟨_, (encodeMnemonic_one .mul n).trans (ranged_eq_error (by omega))⟩
  case push =>
    exact ⟨_, (encodeMnemonic_one .push n).trans ((if_neg (by omega)).trans (ranged_eq_error (.inr out)))⟩
  case pop =>
    exact ⟨_, (encodeMnemonic_one .pop n).trans ((if_neg (by omega)).trans (ranged_eq_error (.inr out)))⟩
  case goto => exact ⟨_, (encodeMnemonic_two .goto l o).trans (if_neg (by omega))⟩
  case label => exact ⟨_, (encodeMnemonic_one .label l).trans (ranged_eq_error (.inr out))⟩
  case program =>
    obtain ⟨length, encoded⟩ := List.forall₂_iff_get.1 (assemble_bytes h)
    refine ⟨length.symm, fun k text found => ?_⟩
    obtain ⟨inside, rfl⟩ := List.getElem?_eq_some_iff.1 found
    have inside' : k < bytes.length := length ▸ inside
    exact ⟨bytes[k], List.getElem?_eq_getElem inside', encoded k inside inside'⟩

end Sys2Proof.Proofs

/-! One step (R62, R190, R191, R196, R211): it always has a next state, it serves one input, and a running
machine's tick runs the instruction at PC; and the obligations about it. -/

namespace Sys2Proof.Machine

/-! ## Next states -/

theorem exec_next (i : Instr) (s : State) : ∃ t, exec i s = .next t := by
  rcases exec_cases i s with e | ⟨f, e⟩ <;> exact ⟨_, e⟩

theorem tick_next (s : State) : ∃ t, tick s = .next t := by
  rcases tick_cases s with ⟨_, e⟩ | ⟨_, _, e⟩ | ⟨_, _, e⟩
  · exact ⟨_, e⟩
  · exact ⟨_, e⟩
  · rw [e]
    exact fetchExecute_next s

theorem commandLoad_next (bytes : List Byte) (s : State) : ∃ t, commandLoad bytes s = .next t := by
  unfold commandLoad
  split <;> exact ⟨_, rfl⟩

theorem commandStep_next (s : State) : ∃ t, commandStep s = .next t := by
  rcases commandStep_cases s with ⟨_, e⟩ | ⟨_, _, e⟩ | ⟨_, _, _, e⟩ | ⟨_, _, _, e⟩
  case inr.inr.inr =>
    obtain ⟨u, hu⟩ := fetchExecute_next s
    exact ⟨_, e u hu⟩
  all_goals exact ⟨_, e⟩

theorem runCommand_next (c : Command) (s : State) : ∃ t, runCommand c s = .next t := by
  cases c with
  | reset => exact ⟨_, rfl⟩
  | load bytes => exact commandLoad_next bytes s
  | run =>
    rcases commandRun_cases s with ⟨_, e⟩ | ⟨_, e⟩ | ⟨_, _, _, e⟩ | ⟨_, _, _, e⟩ <;> exact ⟨_, e⟩
  | step => exact commandStep_next s
  | pause => rcases commandPause_cases s with ⟨_, e⟩ | ⟨_, e⟩ <;> exact ⟨_, e⟩
  | halt => exact ⟨_, rfl⟩

theorem step_next (s : State) : ∃ t, step s = .next t := by
  rcases ready_or_tick s with ⟨c, rest, ready⟩ | ticks
  · rw [step_ready ready]
    exact runCommand_next c _
  · rw [step_tick ticks]
    exact tick_next _

/-! ## The instruction that a tick runs -/

section Running

variable {s : State} (running : s.status = .running)
include running

theorem tick_of_past (past : s.progLen.toNat ≤ s.pc.toNat) :
    tick s = .next ((s.setStatus .halted).emit .completed) := by
  rcases tick_cases s with ⟨other, _⟩ | ⟨_, _, e⟩ | ⟨_, inside, _⟩
  · exact absurd running other
  · exact e
  · omega

theorem tick_of_inside (inside : s.pc.toNat < s.progLen.toNat) : tick s = fetchExecute s := by
  rcases tick_cases s with ⟨other, _⟩ | ⟨_, past, _⟩ | ⟨_, _, e⟩
  · exact absurd running other
  · omega
  · exact e

end Running

theorem tick_of_not_running {s : State} (other : s.status ≠ .running) : tick s = .next s := by
  rcases tick_cases s with ⟨_, e⟩ | ⟨running, _⟩ | ⟨running, _⟩
  · exact e
  · exact absurd running other
  · exact absurd running other

/-! ## The placed word -/

theorem decode_of_decodeTableWord {nbits w : Nat} {i : Instr} (h : decodeTableWord nbits w = some i) :
    ∃ rest, decode (tableBytes nbits w) = .ok (i, rest) := by
  unfold decodeTableWord at h
  split at h
  next j rest decoded => cases h; exact ⟨rest, decoded⟩
  next => cases h

theorem pc_withFetchWord (s : State) (nbits w : Nat) : (s.withFetchWord nbits w).pc = s.pc := rfl

/-- The three bytes that stand at PC after the placing are those of the table word. -/
theorem fetchWindow_withFetchWord {s : State} (nbits w : Nat) (inside : s.pc.toNat + 3 ≤ s.cfg.memSize) :
    (s.withFetchWord nbits w).fetchWindow = tableBytes nbits w := by
  have byte (k : Nat) (hk : k < 3) :
      (s.withFetchWord nbits w).fetchByte k = (tableBytes nbits w).getD k 0 := by
    have window : s.pc.toNat ≤ s.pc.toNat + k ∧ s.pc.toNat + k < s.pc.toNat + (tableBytes nbits w).length :=
      ⟨Nat.le_add_right _ _, Nat.add_lt_add_left hk _⟩
    have here := fetchByte_of_inside (s := s.withFetchWord nbits w) (k := k)
    rw [pc_withFetchWord] at here
    refine (here (Nat.lt_of_lt_of_le (Nat.add_lt_add_left hk _) inside)).trans ?_
    exact (read_copyIn _ _ _ _).trans ((if_pos window).trans (by rw [Nat.add_sub_cancel_left]))
  rw [State.fetchWindow, byte 0 (by omega), byte 1 (by omega), byte 2 (by omega)]
  rfl

theorem pc_lt_progLen_withFetchWord {s : State} (nbits w : Nat) (wf : s.cfg.wf = true)
    (inside : s.pc.toNat + 3 ≤ s.cfg.memSize) (_ : s.progLen.toNat ≤ s.cfg.memSize) :
    s.pc.toNat < (s.withFetchWord nbits w).progLen.toNat := by
  have sizes := sizes_of_wf wf
  have value : (s.withFetchWord nbits w).progLen.toNat = max s.progLen.toNat (s.pc.toNat + 3) % 65536 := rfl
  omega

end Sys2Proof.Machine

namespace Sys2Proof.Proofs

open Sys2Proof.Machine

/-- Settles O12: `exec_next` and `step_next`, a fault being a next state too. -/
theorem everyStepHasANextState : Obligations.EveryStepHasANextState := ⟨exec_next, step_next⟩

/-- Settles O52: the three shapes of the command input. -/
theorem readyCommandGoesBeforeTheTick : Obligations.ReadyCommandGoesBeforeTheTick :=
  fun _ _ _ => ⟨step_ready, fun _ => step_waiting, step_nil⟩

/-- Settles O10: the step is a tick (`step_tick`), which fetches and executes. -/
theorem stepRunsDecodedInstruction : Obligations.StepRunsDecodedInstruction := by
  intro s i rest running ticks inProgram inMemory decoded
  rw [step_tick ticks, tick_of_inside (s := { s with inbox := waited s.inbox }) running inProgram]
  exact fetchExecute_of_decode (s := { s with inbox := waited s.inbox }) inMemory decoded

/-- Settles O11: the placed bytes are what the next tick fetches (`fetchWindow_withFetchWord`). -/
theorem placedWordIsRunNext : Obligations.PlacedWordIsRunNext := by
  intro s nbits w i wf inside fits word
  obtain ⟨rest, decoded⟩ := decode_of_decodeTableWord word
  rw [step_nil rfl, tick_of_inside rfl (pc_lt_progLen_withFetchWord nbits w wf inside fits)]
  have inMemory : s.pc.toNat < s.cfg.memSize := by omega
  refine fetchExecute_of_decode (rest := rest) inMemory ?_
  rw [fetchWindow_withFetchWord nbits w inside, decoded]

end Sys2Proof.Proofs

/-! The commands and the tick (R195, R200 to R211, R240 to R251): what each answers by its conditions, and the
obligations about them. -/

namespace Sys2Proof.Machine

/-- STATUS and the two streams are no part of what `CoreKept` keeps. -/
theorem coreKept_streams (s : State) (v : Status) (inbox : List Arrival) (events : List Event) :
    CoreKept s { s with status := v, inbox := inbox, events := events } := coreKept_refl s

theorem present_eq_false_iff (s : State) : s.present = false ↔ s.mem.read 0 = 0 ∧ s.mem.read 1 = 0 := by
  rw [← Bool.not_eq_true, present_iff, not_or, not_not, not_not]

/-! ## Reset and load -/

theorem asReset_resetAll {s : State} (wf : s.cfg.wf = true) : AsReset s.resetAll :=
  ⟨(inv_resetAll wf).fresh (.inl rfl), labelAt_resetAll s, rfl, read_nil, rfl⟩

theorem commandLoad_of_fits {s : State} {bytes : List Byte} (fits : bytes.length ≤ s.cfg.memSize) :
    commandLoad bytes s = .next (s.resetAll.install bytes) :=
  if_neg (Nat.not_lt.2 fits)

theorem commandLoad_of_too_large {s : State} {bytes : List Byte} (large : s.cfg.memSize < bytes.length) :
    commandLoad bytes s = .next (s.resetAll.emit (.diagnostic .programTooLarge)) :=
  if_pos large

/-- The program stands at offset 0, in memory that is 0 elsewhere (R201). -/
theorem read_install (s : State) (bytes : List Byte) (a : Nat) :
    (s.resetAll.install bytes).mem.read a = bytes.getD a 0 := by
  refine (read_copyIn bytes [] 0 a).trans ?_
  split
  next => rw [Nat.sub_zero]
  next outside => rw [read_nil, List.getD_eq_default _ _ (by omega)]

/-- The state whose bytes the Resolver passes over in a `load`. -/
def State.copied (s : State) (bytes : List Byte) : State :=
  { s with mem := s.mem.copyIn 0 bytes, progLen := BitVec.ofNat 16 bytes.length }

theorem install_eq (s : State) (bytes : List Byte) :
    s.install bytes = (s.copied bytes).preprocess.setStatus .loaded := rfl

/-- The label table of an installed program is what the Resolver finds in its bytes (R203). -/
theorem labelAt_install (s : State) {bytes : List Byte} (fits : bytes.length < 65536) :
    (∀ l k, DefinesLast bytes l k → ((s.resetAll.install bytes).labelAt l).toNat = k + 1) ∧
      ∀ l, (∀ k, ¬ Defines bytes l k) → (s.resetAll.install bytes).labelAt l = 0 := by
  have holds : ∀ k b, bytes[k]? = some b → (s.resetAll.copied bytes).mem.read k = b := fun k b found =>
    (read_install s bytes k).trans (by rw [List.getD_eq_getElem?_getD, found]; rfl)
  obtain ⟨defined, undefined, -⟩ := Proofs.resolverRecordsTheLastDefinition (s.resetAll.copied bytes) bytes
    (install_progLen_toNat s.resetAll fits).symm holds
  simp only [install_eq, labelAt_setStatus]
  exact ⟨defined, fun l never => (undefined l never).trans (labelAt_resetAll s l)⟩

/-! ## Pause -/

theorem commandPause_of_running {s : State} (running : s.status = .running) :
    commandPause s = .next ((s.setStatus .paused).emit .paused) := by
  rcases commandPause_cases s with ⟨_, e⟩ | ⟨other, _⟩
  · exact e
  · exact absurd running other

theorem commandPause_of_not_running {s : State} (other : s.status ≠ .running) :
    commandPause s = .next s := by
  rcases commandPause_cases s with ⟨running, _⟩ | ⟨_, e⟩
  · exact absurd running other
  · exact e

/-! ## Run -/

theorem commandRun_of_running {s : State} (running : s.status = .running) : commandRun s = .next s := by
  rcases commandRun_cases s with ⟨_, e⟩ | ⟨halted, _⟩ | ⟨other, _⟩ | ⟨other, _⟩
  · exact e
  · cases running.symm.trans halted
  all_goals exact absurd running other

section Startable

variable {s : State} (notRunning : s.status ≠ .running) (notHalted : s.status ≠ .halted)
include notRunning notHalted

theorem commandRun_of_present (present : s.present = true) :
    commandRun s = .next (s.setStatus .running) := by
  rcases commandRun_cases s with ⟨running, _⟩ | ⟨halted, _⟩ | ⟨_, _, absent, _⟩ | ⟨_, _, _, e⟩
  · exact absurd running notRunning
  · exact absurd halted notHalted
  · cases present.symm.trans absent
  · exact e

theorem commandRun_of_absent (absent : s.present = false) :
    commandRun s = .next (s.emit (.diagnostic .noProgram)) := by
  rcases commandRun_cases s with ⟨running, _⟩ | ⟨halted, _⟩ | ⟨_, _, _, e⟩ | ⟨_, _, present, _⟩
  · exact absurd running notRunning
  · exact absurd halted notHalted
  · exact e
  · cases present.symm.trans absent

end Startable

/-! ## Step -/

section Steppable

variable {s : State} (notHalted : s.status ≠ .halted)
include notHalted

theorem commandStep_of_absent (absent : s.present = false) :
    commandStep s = .next (s.emit (.diagnostic .noProgram)) := by
  rcases commandStep_cases s with ⟨halted, _⟩ | ⟨_, _, e⟩ | ⟨_, present, _⟩ | ⟨_, present, _⟩
  · exact absurd halted notHalted
  · exact e
  all_goals cases present.symm.trans absent

variable (present : s.present = true)
include present

theorem commandStep_of_pc_outside (outside : s.cfg.memSize ≤ s.pc.toNat) :
    commandStep s = .next (s.emit (.diagnostic .endOfMemory)) := by
  rcases commandStep_cases s with ⟨halted, _⟩ | ⟨_, absent, _⟩ | ⟨_, _, _, e⟩ | ⟨_, _, inside, _⟩
  · exact absurd halted notHalted
  · cases present.symm.trans absent
  · exact e
  · omega

variable (inside : s.pc.toNat < s.cfg.memSize)
include inside

theorem commandStep_of_fetchExecute {t : State} (run : fetchExecute s = .next t) :
    commandStep s = .next (afterStep t) := by
  rcases commandStep_cases s with ⟨halted, _⟩ | ⟨_, absent, _⟩ | ⟨_, _, outside, _⟩ | ⟨_, _, _, e⟩
  · exact absurd halted notHalted
  · cases present.symm.trans absent
  · omega
  · exact e t run

variable {i : Instr} {tail : List Byte} (decoded : decode s.fetchWindow = .ok (i, tail))
include decoded

theorem commandStep_of_exec {t : State} (run : exec i s = .next t) : commandStep s = .next (afterStep t) :=
  commandStep_of_fetchExecute notHalted present inside ((fetchExecute_of_decode inside decoded).trans run)

theorem commandStep_of_reports {f : Fault} (reports : Reports i s f) :
    commandStep s = .next (s.takeFault f) :=
  commandStep_of_exec notHalted present inside decoded (exec_of_reports reports)

theorem commandStep_of_halt (halts : i = .halt) : commandStep s = exec i s := by
  subst halts
  exact commandStep_of_exec notHalted present inside decoded (exec_halt s)

theorem commandStep_of_completes (completes : Completes i s) (notHalt : i ≠ .halt) :
    commandStep s = .next { effect i s with status := .paused, events := s.events ++ [.stepped] } := by
  obtain ⟨status, events⟩ := effect_runKept notHalt s
  rw [commandStep_of_exec notHalted present inside decoded (exec_of_completes completes)]
  rcases afterStep_cases (effect i s) with ⟨halted, _⟩ | ⟨_, e⟩
  · exact absurd (status.symm.trans halted) notHalted
  · rw [e, State.emit, setStatus_events, events]
    rfl

end Steppable

/-! ## Whole steps -/

/-- All that a command but `reset` and `load`, or a tick, does in Halted: it may emit something, and no
fault. -/
theorem halted_step_inv {s t : State} (halted : s.status = .halted) (noReload : NoReload s)
    (h : step s = .next t) :
    ∃ rest new, t = { s with inbox := rest, events := s.events ++ new } ∧ ∀ f, Event.faulted f ∉ new := by
  obtain ⟨noReset, noLoad⟩ := noReload
  have same : ∀ rest, { s with inbox := rest } = { s with inbox := rest, events := s.events ++ [] } :=
    fun rest => by rw [List.append_nil]
  rcases step_inv h with ⟨c, rest, ready, command⟩ | ⟨_, ticked⟩
  · cases c with
    | reset => exact absurd ⟨rest, ready⟩ noReset
    | load bytes => exact absurd ⟨rest, ready⟩ (noLoad bytes)
    | run =>
      cases (commandRun_of_halted (s := { s with inbox := rest }) halted).symm.trans command
      exact ⟨rest, [.diagnostic .machineHalted], rfl, by simp⟩
    | step =>
      cases (commandStep_of_halted (s := { s with inbox := rest }) halted).symm.trans command
      exact ⟨rest, [.diagnostic .machineHalted], rfl, by simp⟩
    | pause =>
      have notRunning : s.status ≠ .running := halted ▸ nofun
      cases (commandPause_of_not_running (s := { s with inbox := rest }) notRunning).symm.trans command
      exact ⟨rest, [], same rest, nofun⟩
    | halt =>
      cases command
      exact ⟨rest, [.halted], by rw [← halted]; rfl, by simp⟩
  · cases (tick_of_halted (s := { s with inbox := waited s.inbox }) halted).symm.trans ticked
    exact ⟨_, [], same _, nofun⟩

theorem runCommand_cfg {c : Command} {s t : State} (h : runCommand c s = .next t) : t.cfg = s.cfg := by
  have others : c ≠ .reset → (∀ bytes, c ≠ .load bytes) → t.cfg = s.cfg := by
    intro notReset notLoad
    rcases runCommand_inv h notReset notLoad with ⟨core, _⟩ | ⟨_, _, _, _, u, hu, rfl⟩
    · obtain ⟨_, _, _, _, _, _, _, cfg⟩ := core
      exact cfg
    · refine Eq.trans ?_ (fetchExecute_tablesKept hu).1
      rcases afterStep_cases u with ⟨_, e⟩ | ⟨_, e⟩
      · rw [e]
      · rw [e, emit_cfg, setStatus_cfg]
  cases c with
  | reset => cases h; rfl
  | load bytes =>
    simp only [runCommand, commandLoad, diagnose] at h
    split at h <;> cases h <;> rfl
  | run | step | pause | halt => exact others nofun nofun

theorem tick_cfg {s t : State} (h : tick s = .next t) : t.cfg = s.cfg := by
  rcases tick_cases s with ⟨_, e⟩ | ⟨_, _, e⟩ | ⟨_, _, e⟩ <;> rw [e] at h
  · cases h; rfl
  · cases h; rfl
  · exact (fetchExecute_tablesKept h).1

end Sys2Proof.Machine

namespace Sys2Proof.Proofs

open Sys2Proof.Machine

/-- Settles O45: every piece of the state has its value of R45 (`asReset_resetAll`). -/
theorem resetCommandZeroesTheMachine : Obligations.ResetCommandZeroesTheMachine := by
  intro s rest wf ready
  exact ⟨_, step_ready ready, asReset_resetAll (s := { s with inbox := rest }) wf, rfl, rfl, rfl⟩

/-- Settles O46: the program is copied to 0 (`read_install`), and its labels are what the Resolver finds in it
(`labelAt_install`). -/
theorem loadCommandInstallsTheProgram : Obligations.LoadCommandInstallsTheProgram := by
  intro s bytes rest wf ready
  rw [step_ready ready]
  let u : State := { s with inbox := rest }
  have sizes := sizes_of_wf wf
  constructor
  · intro fits
    have small : bytes.length < 65536 := by omega
    obtain ⟨defined, undefined⟩ := labelAt_install u small
    exact ⟨_, commandLoad_of_fits (s := u) fits, (inv_install (s := u) wf fits).fresh (.inr rfl),
      read_install u bytes, install_progLen_toNat u.resetAll small, defined, undefined, rfl, rfl, rfl, rfl⟩
  · intro large
    exact ⟨_, commandLoad_of_too_large (s := u) large, asReset_resetAll (s := u) wf, rfl, rfl, rfl⟩

/-- Settles O48: `run` in each of its four conditions (`commandRun_of_running` and the three after it). -/
theorem runCommandStartsOrRefuses : Obligations.RunCommandStartsOrRefuses := by
  intro s rest ready
  rw [step_ready ready]
  let u : State := { s with inbox := rest }
  by_cases running : s.status = .running
  · exact ⟨_, commandRun_of_running (s := u) running, coreKept_streams s _ _ _, rfl, fun _ => ⟨rfl, rfl⟩,
      fun halted => absurd (running.symm.trans halted) nofun, fun other => absurd running other,
      fun other => absurd running other⟩
  by_cases halted : s.status = .halted
  · exact ⟨_, commandRun_of_halted (s := u) halted, coreKept_streams s _ _ _, rfl,
      fun other => absurd other running, fun _ => ⟨halted, rfl⟩, fun _ other => absurd halted other,
      fun _ other => absurd halted other⟩
  cases present : s.present with
  | true =>
    exact ⟨_, commandRun_of_present (s := u) running halted present, coreKept_streams s _ _ _, rfl,
      fun other => absurd other running, fun other => absurd other halted,
      fun _ _ zero zero' => absurd ((present_iff s).1 present) (by simp [zero, zero']),
      fun _ _ _ => ⟨rfl, rfl⟩⟩
  | false =>
    have zeros := (present_eq_false_iff s).1 present
    exact ⟨_, commandRun_of_absent (s := u) running halted present, coreKept_streams s _ _ _, rfl,
      fun other => absurd other running, fun other => absurd other halted, fun _ _ _ _ => ⟨rfl, rfl⟩,
      fun _ _ some => some.elim (absurd zeros.1) (absurd zeros.2)⟩

/-- Settles O49: `step` in each of its conditions; what it executes it executes in the state without the
command, where the instruction reports what it reports in `s` (`reports_congr`). -/
theorem stepCommandExecutesOneInstruction : Obligations.StepCommandExecutesOneInstruction := by
  intro s rest ready
  rw [step_ready ready]
  let u : State := { s with inbox := rest }
  refine ⟨fun halted => ?halted, fun notHalted zero zero' => ?absent,
    fun notHalted present outside => ?outside, fun notHalted present inside i tail decoded => ?executes⟩
  case halted =>
    exact ⟨_, commandStep_of_halted (s := u) halted, coreKept_streams s _ _ _, rfl, halted, rfl⟩
  case absent =>
    exact ⟨_, commandStep_of_absent (s := u) notHalted ((present_eq_false_iff s).2 ⟨zero, zero'⟩),
      coreKept_streams s _ _ _, rfl, rfl, rfl⟩
  case outside =>
    exact ⟨_, commandStep_of_pc_outside (s := u) notHalted ((present_iff s).2 present) outside,
      coreKept_streams s _ _ _, rfl, rfl, rfl⟩
  case executes =>
    have some := (present_iff s).2 present
    have completes_u := completes_congr (i := i) (s := s) (t := u) rfl rfl rfl
    refine ⟨fun f reports => ?_, fun completes halts => ?_, fun completes notHalt => ?_⟩
    · have reports' := (reports_congr (s := s) (t := u) rfl rfl rfl).2 reports
      exact ⟨_, commandStep_of_reports (s := u) notHalted some inside decoded reports',
        takesFault_takeFault f u⟩
    · exact commandStep_of_halt (s := u) notHalted some inside decoded halts
    · exact ⟨_, exec_of_completes (completes_u.2 completes),
        commandStep_of_completes (s := u) notHalted some inside decoded (completes_u.2 completes) notHalt⟩

/-- Settles O50: `pause` writes STATUS in Running alone, `halt` everywhere. -/
theorem pauseAndHaltCommandsOnlyMoveTheStatus : Obligations.PauseAndHaltCommandsOnlyMoveTheStatus := by
  intro s rest
  let u : State := { s with inbox := rest }
  refine ⟨fun ready => ?pause, fun ready => ?halt⟩
  case pause =>
    rw [step_ready ready]
    by_cases running : s.status = .running
    · exact ⟨_, commandPause_of_running (s := u) running, coreKept_streams s _ _ _, rfl,
        fun _ => ⟨rfl, rfl⟩, fun other => absurd running other⟩
    · exact ⟨_, commandPause_of_not_running (s := u) running, coreKept_streams s _ _ _, rfl,
        fun other => absurd other running, fun _ => ⟨rfl, rfl⟩⟩
  case halt =>
    exact ⟨_, step_ready ready, coreKept_streams s _ _ _, rfl, rfl, rfl⟩

/-- Settles O51: a tick outside Running, past PROGLEN, and with an instruction to fetch, which runs as it does
in `s` (`reports_congr`). -/
theorem tickExecutesOneInstruction : Obligations.TickExecutesOneInstruction := by
  intro s ticks
  rw [step_tick ticks]
  let u : State := { s with inbox := waited s.inbox }
  refine ⟨tick_of_not_running (s := u), fun running past => ?past, fun running inside outside => ?outside,
    fun running inside inMemory i tail decoded => ?executes⟩
  case past =>
    exact ⟨_, tick_of_past (s := u) running past, coreKept_streams s _ _ _, rfl, rfl, rfl⟩
  case outside =>
    exact ⟨_, (tick_of_inside (s := u) running inside).trans (fetchExecute_of_pc_outside outside),
      takesFault_takeFault _ u⟩
  case executes =>
    have ticked : tick u = exec i u :=
      (tick_of_inside (s := u) running inside).trans (fetchExecute_of_decode inMemory decoded)
    refine ⟨fun f reports => ?_, fun completes => ?_⟩
    · have reports' := (reports_congr (s := s) (t := u) rfl rfl rfl).2 reports
      exact ⟨_, ticked.trans (exec_of_reports reports'), takesFault_takeFault f u⟩
    · have run := exec_of_completes ((completes_congr (s := s) (t := u) rfl rfl rfl).2 completes)
      refine ⟨_, ticked.trans run, run, fun notHalt => ?_, fun halts => ?_⟩
      · exact (effect_runKept notHalt u).1.trans running
      · subst halts
        rfl

/-- Settles O54: the fault is `exec_takesFault`, and a step in Halted is `halted_step_inv`. -/
theorem haltedIsLeftOnlyByResetOrLoad : Obligations.HaltedIsLeftOnlyByResetOrLoad := by
  refine ⟨fun i s f => exec_takesFault, fun s t halted noReload h => ?_⟩
  obtain ⟨rest, new, rfl, noFault⟩ := halted_step_inv halted noReload h
  exact ⟨halted, coreKept_streams s _ _ _, new, rfl, noFault⟩

/-- Settles O55: what a command or a tick executes keeps the tables, and nothing else writes the
configuration. -/
theorem configurationNeverChanges : Obligations.ConfigurationNeverChanges := by
  intro s t h
  rcases step_inv h with ⟨c, rest, _, command⟩ | ⟨_, ticked⟩
  · exact (runCommand_cfg command).trans rfl
  · exact (tick_cfg ticked).trans rfl

/-- Settles O56: `pause` writes STATUS and emits, and `run` puts STATUS back. -/
theorem pauseThenRunResumes : Obligations.PauseThenRunResumes := by
  intro s rest running present ready
  let u : State := { s with inbox := ⟨0, .run⟩ :: rest }
  let v : State := { (u.setStatus .paused).emit .paused with inbox := rest }
  have paused : step s = .next ((u.setStatus .paused).emit .paused) :=
    (step_ready ready).trans (commandPause_of_running (s := u) running)
  have resumed : step ((u.setStatus .paused).emit .paused) = .next (v.setStatus .running) :=
    (step_ready rfl).trans (commandRun_of_present (s := v) nofun nofun ((present_iff s).2 present))
  exact ⟨_, _, paused, resumed, rfl, coreKept_streams s _ _ _, coreKept_streams s _ _ _, rfl, rfl, rfl⟩

end Sys2Proof.Proofs

/-! The event output (R42, R220): no operation reads it back, and the obligation about it. -/

namespace Sys2Proof.Machine

/-- `s` with the events `old` before those it has emitted. -/
def State.withPast (s : State) (old : List Event) : State := { s with events := old ++ s.events }

/-- What `f` does in `s` does not depend on the events before, and `f` adds at most one. -/
def OnlyAdds (f : State → Host.Outcome State Fault Refusal) (s : State) : Prop :=
  ∃ t : State, (∀ old, f (s.withPast old) = .next (t.withPast old)) ∧
    ∃ new, t.events = s.events ++ new ∧ new.length ≤ 1

section Shapes

variable {f : State → Host.Outcome State Fault Refusal} {s t : State}

/-- An operation that adds no event. -/
theorem onlyAdds_of_silent (h : ∀ old, f (s.withPast old) = .next (t.withPast old))
    (silent : t.events = s.events) : OnlyAdds f s :=
  ⟨t, h, [], by rw [silent, List.append_nil], Nat.zero_le _⟩

theorem withPast_emit (t : State) (e : Event) (old : List Event) :
    (t.withPast old).emit e = (t.emit e).withPast old :=
  congrArg (fun events => { t with events := events }) (List.append_assoc old t.events [e])

/-- An operation that adds an event as its last act. -/
theorem onlyAdds_of_emit {e : Event} (h : ∀ old, f (s.withPast old) = .next ((t.withPast old).emit e))
    (silent : t.events = s.events) : OnlyAdds f s :=
  ⟨t.emit e, fun old => by rw [h, withPast_emit], [e], by rw [emit_events, silent], Nat.le_refl 1⟩

end Shapes

/-! ## Instructions -/

theorem effect_withPast (i : Instr) (s : State) (old : List Event) :
    effect i (s.withPast old) = (effect i s).withPast old := by
  cases i
  case halt => exact withPast_emit ((s.advance 1).setStatus .halted) .halted old
  case goto l c =>
    have same : (s.withPast old).taken c = s.taken c := rfl
    simp only [effect, same]
    split <;> rfl
  all_goals rfl

theorem takeFault_withPast (s : State) (f : Fault) (old : List Event) :
    (s.withPast old).takeFault f = (s.takeFault f).withPast old :=
  withPast_emit (s.setStatus .halted) (.faulted f) old

/-- An instruction goes from `s` to `t` whatever the events before, and it halts the machine with one event
more, or leaves STATUS and the events alone. -/
def RunsTo (f : State → Host.Outcome State Fault Refusal) (s t : State) : Prop :=
  (∀ old, f (s.withPast old) = .next (t.withPast old)) ∧
    (RunKept s t ∨ (t.status = .halted ∧ ∃ e, t.events = s.events ++ [e]))

theorem exec_runsTo (i : Instr) (s : State) : ∃ t, RunsTo (exec i) s t := by
  rcases completes_or_reports i s with completes | ⟨f, reports⟩
  · refine ⟨effect i s, fun old => ?_, ?_⟩
    · have completes' := (completes_congr (t := s.withPast old) rfl rfl rfl).2 completes
      rw [exec_of_completes completes', effect_withPast]
    · by_cases halts : i = .halt
      · subst halts
        exact .inr ⟨rfl, .halted, rfl⟩
      · exact .inl (effect_runKept halts s)
  · refine ⟨s.takeFault f, fun old => ?_, .inr ⟨rfl, .faulted f, rfl⟩⟩
    have reports' := (reports_congr (t := s.withPast old) rfl rfl rfl).2 reports
    rw [exec_of_reports reports', takeFault_withPast]

theorem fetchExecute_runsTo (s : State) : ∃ t, RunsTo fetchExecute s t := by
  by_cases outside : s.cfg.memSize ≤ s.pc.toNat
  · refine ⟨s.takeFault .endOfMemory, fun old => ?_, .inr ⟨rfl, .faulted _, rfl⟩⟩
    rw [fetchExecute_of_pc_outside (s := s.withPast old) outside, takeFault_withPast]
  · obtain ⟨t, runs, ends⟩ :=
      exec_runsTo (decodeWindow (s.fetchByte 0) (s.fetchByte 1) (s.fetchByte 2)) s
    exact ⟨t, fun old => (if_neg outside).trans (runs old), ends⟩

theorem RunsTo.onlyAdds {f : State → Host.Outcome State Fault Refusal} {s t : State} (h : RunsTo f s t) :
    OnlyAdds f s := by
  obtain ⟨runs, ⟨_, silent⟩ | ⟨_, e, added⟩⟩ := h
  · exact onlyAdds_of_silent runs silent
  · exact ⟨t, runs, [e], added, Nat.le_refl 1⟩

/-! ## Commands and ticks -/

theorem commandLoad_onlyAdds (bytes : List Byte) (s : State) : OnlyAdds (commandLoad bytes) s := by
  by_cases large : s.cfg.memSize < bytes.length
  · exact onlyAdds_of_emit (t := s.resetAll)
      (fun old => commandLoad_of_too_large (s := s.withPast old) large) rfl
  · exact onlyAdds_of_silent (t := s.resetAll.install bytes)
      (fun old => commandLoad_of_fits (s := s.withPast old) (Nat.le_of_not_lt large)) rfl

theorem commandRun_onlyAdds (s : State) : OnlyAdds commandRun s := by
  rcases commandRun_cases s with ⟨running, _⟩ | ⟨halted, _⟩ | ⟨running, halted, absent, _⟩ |
    ⟨running, halted, present, _⟩
  · exact onlyAdds_of_silent (t := s) (fun old => commandRun_of_running (s := s.withPast old) running) rfl
  · exact onlyAdds_of_emit (t := s) (fun old => commandRun_of_halted (s := s.withPast old) halted) rfl
  · exact onlyAdds_of_emit (t := s)
      (fun old => commandRun_of_absent (s := s.withPast old) running halted absent) rfl
  · exact onlyAdds_of_silent (t := s.setStatus .running)
      (fun old => commandRun_of_present (s := s.withPast old) running halted present) rfl

theorem afterStep_withPast_of_halted {t : State} (halted : t.status = .halted) (old : List Event) :
    afterStep (t.withPast old) = t.withPast old := by
  rcases afterStep_cases (t.withPast old) with ⟨_, e⟩ | ⟨other, _⟩
  · exact e
  · exact absurd halted other

theorem afterStep_withPast_of_not_halted {t : State} (notHalted : t.status ≠ .halted) (old : List Event) :
    afterStep (t.withPast old) = ((t.setStatus .paused).withPast old).emit .stepped := by
  rcases afterStep_cases (t.withPast old) with ⟨halted, _⟩ | ⟨_, e⟩
  · exact absurd halted notHalted
  · exact e

/-- The event of an instruction that halts the machine is all that `step` adds, and `Stepped` is all where the
instruction does not. -/
theorem commandStep_onlyAdds (s : State) : OnlyAdds commandStep s := by
  rcases commandStep_cases s with ⟨halted, _⟩ | ⟨notHalted, absent, _⟩ | ⟨notHalted, present, outside, _⟩ |
    ⟨notHalted, present, inside, _⟩
  · exact onlyAdds_of_emit (t := s) (fun old => commandStep_of_halted (s := s.withPast old) halted) rfl
  · exact onlyAdds_of_emit (t := s)
      (fun old => commandStep_of_absent (s := s.withPast old) notHalted absent) rfl
  · exact onlyAdds_of_emit (t := s)
      (fun old => commandStep_of_pc_outside (s := s.withPast old) notHalted present outside) rfl
  · obtain ⟨t, runs, ends⟩ := fetchExecute_runsTo s
    have stepped (old : List Event) : commandStep (s.withPast old) = .next (afterStep (t.withPast old)) :=
      commandStep_of_fetchExecute (s := s.withPast old) notHalted present inside (runs old)
    rcases ends with ⟨status, silent⟩ | ⟨halted, e, added⟩
    · refine onlyAdds_of_emit (t := t.setStatus .paused) (e := .stepped) (fun old => (stepped old).trans ?_) silent
      rw [afterStep_withPast_of_not_halted (status ▸ notHalted)]
    · refine ⟨t, fun old => (stepped old).trans ?_, [e], added, Nat.le_refl 1⟩
      rw [afterStep_withPast_of_halted halted]

theorem commandPause_onlyAdds (s : State) : OnlyAdds commandPause s := by
  by_cases running : s.status = .running
  · exact onlyAdds_of_emit (t := s.setStatus .paused)
      (fun old => commandPause_of_running (s := s.withPast old) running) rfl
  · exact onlyAdds_of_silent (t := s)
      (fun old => commandPause_of_not_running (s := s.withPast old) running) rfl

theorem runCommand_onlyAdds (c : Command) (s : State) : OnlyAdds (runCommand c) s := by
  cases c with
  | reset => exact onlyAdds_of_silent (t := s.resetAll) (fun _ => rfl) rfl
  | load bytes => exact commandLoad_onlyAdds bytes s
  | run => exact commandRun_onlyAdds s
  | step => exact commandStep_onlyAdds s
  | pause => exact commandPause_onlyAdds s
  | halt => exact onlyAdds_of_emit (t := s.setStatus .halted) (fun _ => rfl) rfl

theorem tick_onlyAdds (s : State) : OnlyAdds tick s := by
  rcases tick_cases s with ⟨other, _⟩ | ⟨running, past, _⟩ | ⟨running, inside, _⟩
  · exact onlyAdds_of_silent (t := s) (fun old => tick_of_not_running (s := s.withPast old) other) rfl
  · exact onlyAdds_of_emit (t := s.setStatus .halted)
      (fun old => tick_of_past (s := s.withPast old) running past) rfl
  · obtain ⟨t, runs, ends⟩ := fetchExecute_runsTo s
    have ticks : RunsTo tick s t :=
      ⟨fun old => (tick_of_inside (s := s.withPast old) running inside).trans (runs old), ends⟩
    exact ticks.onlyAdds

theorem step_onlyAdds (s : State) : OnlyAdds step s := by
  rcases ready_or_tick s with ⟨c, rest, ready⟩ | ticks
  · obtain ⟨t, same, added⟩ := runCommand_onlyAdds c { s with inbox := rest }
    exact ⟨t, fun old => (step_ready (s := s.withPast old) ready).trans (same old), added⟩
  · obtain ⟨t, same, added⟩ := tick_onlyAdds { s with inbox := waited s.inbox }
    exact ⟨t, fun old => (step_tick (s := s.withPast old) ticks).trans (same old), added⟩

end Sys2Proof.Machine

namespace Sys2Proof.Proofs

open Sys2Proof.Machine

/-- Settles O57: a step goes to the same state whatever the events before, and adds at most one
(`step_onlyAdds`). -/
theorem eventOutputIsNeverReadBack : Obligations.EventOutputIsNeverReadBack := by
  intro s old
  obtain ⟨t, same, added⟩ := step_onlyAdds s
  exact ⟨t, same [], same old, added⟩

end Sys2Proof.Proofs

/-! The table of transitions (R195): what a step does by its input and the status before, what the status after
it tells of them, and the obligation about both. -/

namespace Sys2Proof.Machine

theorem eq_of_next {o : Host.Outcome State Fault Refusal} {t t' : State} (h : o = .next t)
    (h' : o = .next t') : t = t' :=
  Host.Outcome.next.inj (h.symm.trans h')

/-- In Idle no program is installed, so the presence check cannot pass (R195). -/
theorem not_present_of_idle {s : State} (inv : Inv s) (idle : s.status = .idle) : ¬ Present s := by
  rw [Present, (inv.idleEmpty idle).1]
  simp

/-! ## The rows -/

section Rows

variable {s t : State} (h : step s = .next t)
include h

theorem next_of_ready {c : Command} {rest : List Arrival} {t' : State} (ready : s.inbox = ⟨0, c⟩ :: rest)
    (command : runCommand c { s with inbox := rest } = .next t') : t = t' :=
  eq_of_next h ((step_ready ready).trans command)

theorem next_of_tick {t' : State} (ticks : TickNext s)
    (ticked : tick { s with inbox := waited s.inbox } = .next t') : t = t' :=
  eq_of_next h ((step_tick ticks).trans ticked)

/-- Each of the three refusals of `step` (R207). -/
theorem refused_of_step (ready : Ready .step s)
    (why : s.status = .halted ∨ ¬ Present s ∨ s.cfg.memSize ≤ s.pc.toNat) : Refused s t := by
  obtain ⟨rest, ready⟩ := ready
  rcases commandStep_cases { s with inbox := rest } with ⟨_, e⟩ | ⟨_, _, e⟩ | ⟨_, _, _, e⟩ |
    ⟨notHalted, present, inside, _⟩
  case inr.inr.inr =>
    rcases why with halted | absent | outside
    · exact absurd halted notHalted
    · exact absurd ((present_iff s).1 present) absent
    · exact absurd inside (Nat.not_lt.2 outside)
  all_goals
    obtain rfl := next_of_ready h ready e
    exact ⟨coreKept_streams s _ _ _, rfl, _, rfl⟩

/-- The rows of `step` with an instruction that stops the machine. -/
theorem halted_of_step {i : Instr} (ready : Ready .step s) (notHalted : s.status ≠ .halted)
    (present : Present s) (inside : s.pc.toNat < s.cfg.memSize) (at_pc : InstrAt s i)
    (stops : i = .halt ∨ ∃ f, Reports i s f) : t.status = .halted := by
  obtain ⟨rest, ready⟩ := ready
  obtain ⟨tail, decoded⟩ := at_pc
  let u : State := { s with inbox := rest }
  have present' := (present_iff u).2 present
  rcases stops with rfl | ⟨f, reports⟩
  · have run := commandStep_of_halt (s := u) notHalted present' inside decoded rfl
    obtain rfl := next_of_ready h ready (run.trans (exec_halt u))
    rfl
  · have reports' := (reports_congr (s := s) (t := u) rfl rfl rfl).2 reports
    obtain rfl := next_of_ready h ready
      (commandStep_of_reports (s := u) notHalted present' inside decoded reports')
    rfl

/-- A tick of a running machine with PC below PROGLEN and in memory is the instruction at PC. -/
theorem exec_of_tick {i : Instr} (ticks : TickNext s) (running : s.status = .running)
    (inProgram : s.pc.toNat < s.progLen.toNat) (inMemory : s.pc.toNat < s.cfg.memSize) (at_pc : InstrAt s i) :
    exec i { s with inbox := waited s.inbox } = .next t := by
  obtain ⟨tail, decoded⟩ := at_pc
  exact (Proofs.stepRunsDecodedInstruction s i tail running ticks inProgram inMemory decoded).symm.trans h

/-- The rows of the tick with an instruction that stops the machine. -/
theorem halted_of_tick {i : Instr} (ticks : TickNext s) (running : s.status = .running)
    (inProgram : s.pc.toNat < s.progLen.toNat) (inMemory : s.pc.toNat < s.cfg.memSize) (at_pc : InstrAt s i)
    (stops : i = .halt ∨ ∃ f, Reports i s f) : t.status = .halted := by
  have run := exec_of_tick h ticks running inProgram inMemory at_pc
  rcases stops with rfl | ⟨f, reports⟩
  · obtain rfl := eq_of_next run (exec_halt _)
    rfl
  · obtain rfl := eq_of_next run (exec_of_reports ((reports_congr rfl rfl rfl).2 reports))
    rfl

/-- R195's table, row by row. -/
theorem statusTable_of_step (inv : Inv s) : StatusTable s t where
  reset := by
    rintro ⟨rest, ready⟩
    obtain rfl := next_of_ready h ready rfl
    rfl
  loadFits := by
    rintro bytes ⟨rest, ready⟩ fits
    obtain rfl := next_of_ready h ready (commandLoad_of_fits (s := { s with inbox := rest }) fits)
    rfl
  loadTooLarge := by
    rintro bytes ⟨rest, ready⟩ large
    obtain rfl := next_of_ready h ready (commandLoad_of_too_large (s := { s with inbox := rest }) large)
    rfl
  idleCannotPass := not_present_of_idle inv
  runPasses := by
    rintro ⟨rest, ready⟩ either present
    obtain ⟨notRunning, notHalted⟩ : s.status ≠ .running ∧ s.status ≠ .halted := by
      rcases either with status | status <;> rw [status] <;> exact ⟨nofun, nofun⟩
    obtain rfl := next_of_ready h ready (commandRun_of_present (s := { s with inbox := rest })
      notRunning notHalted ((present_iff s).2 present))
    rfl
  runRunning := by
    rintro ⟨rest, ready⟩ running
    obtain rfl := next_of_ready h ready (commandRun_of_running (s := { s with inbox := rest }) running)
    exact ⟨coreKept_streams s _ _ _, rfl, rfl⟩
  runHalted := by
    rintro ⟨rest, ready⟩ halted
    obtain rfl := next_of_ready h ready (commandRun_of_halted (s := { s with inbox := rest }) halted)
    exact ⟨coreKept_streams s _ _ _, rfl, _, rfl⟩
  runFails := by
    rintro ⟨rest, ready⟩ notRunning notHalted absent
    obtain rfl := next_of_ready h ready (commandRun_of_absent (s := { s with inbox := rest })
      notRunning notHalted (Bool.eq_false_iff.2 (mt (present_iff s).1 absent)))
    exact ⟨coreKept_streams s _ _ _, rfl, _, rfl⟩
  stepOk := by
    rintro i ⟨rest, ready⟩ notHalted present inside ⟨tail, decoded⟩ completes notHalt
    obtain rfl := next_of_ready h ready (commandStep_of_completes (s := { s with inbox := rest })
      notHalted ((present_iff s).2 present) inside decoded ((completes_congr rfl rfl rfl).2 completes) notHalt)
    rfl
  stepStops := fun _ => halted_of_step h
  stepRefused := refused_of_step h
  pauseRunning := by
    rintro ⟨rest, ready⟩ running
    obtain rfl := next_of_ready h ready (commandPause_of_running (s := { s with inbox := rest }) running)
    rfl
  pauseElse := by
    rintro ⟨rest, ready⟩ other
    obtain rfl := next_of_ready h ready (commandPause_of_not_running (s := { s with inbox := rest }) other)
    exact ⟨coreKept_streams s _ _ _, rfl, rfl⟩
  halt := by
    rintro ⟨rest, ready⟩
    obtain rfl := next_of_ready h ready rfl
    rfl
  tickElse := by
    intro ticks other
    obtain rfl := next_of_tick h ticks (tick_of_not_running other)
    exact ⟨coreKept_streams s _ _ _, rfl, rfl⟩
  tickOk := by
    intro i ticks running inProgram at_pc completes notHalt
    have inMemory := Nat.lt_of_lt_of_le inProgram inv.progLenInside
    obtain rfl := eq_of_next (exec_of_tick h ticks running inProgram inMemory at_pc)
      (exec_of_completes ((completes_congr rfl rfl rfl).2 completes))
    exact (effect_runKept notHalt _).1.trans running
  tickStops := fun i ticks running inProgram =>
    halted_of_tick h ticks running inProgram (Nat.lt_of_lt_of_le inProgram inv.progLenInside)
  tickPast := by
    intro ticks running past
    obtain rfl := next_of_tick h ticks (tick_of_past (s := { s with inbox := waited s.inbox }) running past)
    rfl

end Rows

/-! ## The converse -/

/-- What R195 allows to have led from `s` to STATUS `v`. -/
def Led (s : State) : Status → Prop
  | .idle => s.status = .idle ∨ Ready .reset s ∨ ∃ bytes, Ready (.load bytes) s
  | .loaded => s.status = .loaded ∨ ∃ bytes, Ready (.load bytes) s
  | .running => s.status = .running ∨ Ready .run s ∧ (s.status = .loaded ∨ s.status = .paused)
  | .paused => s.status = .paused ∨ (Ready .pause s ∧ s.status = .running) ∨
      Ready .step s ∧ (s.status = .loaded ∨ s.status = .running)
  | .halted => s.status = .halted ∨ Ready .halt s ∨ (TickNext s ∧ s.status = .running) ∨
      Ready .step s ∧ (s.status = .loaded ∨ s.status = .running ∨ s.status = .paused)

theorem led_self (s : State) : Led s s.status := by
  cases status : s.status <;> exact .inl status

/-- With a program present, and not in Halted, the machine is in one of the other three. -/
theorem status_of_present {s : State} (inv : Inv s) (present : Present s) (notHalted : s.status ≠ .halted) :
    s.status = .loaded ∨ s.status = .running ∨ s.status = .paused := by
  have notIdle : s.status ≠ .idle := fun idle => not_present_of_idle inv idle present
  cases status : s.status <;> simp_all

theorem led_of_commandLoad {s t : State} {bytes : List Byte} {rest : List Arrival}
    (ready : s.inbox = ⟨0, .load bytes⟩ :: rest)
    (h : commandLoad bytes { s with inbox := rest } = .next t) : Led s t.status := by
  unfold commandLoad at h
  split at h <;> cases h
  · exact .inr (.inr ⟨bytes, rest, ready⟩)
  · exact .inr ⟨bytes, rest, ready⟩

theorem led_of_commandRun {s t : State} (inv : Inv s) {rest : List Arrival}
    (ready : s.inbox = ⟨0, .run⟩ :: rest) (h : commandRun { s with inbox := rest } = .next t) :
    Led s t.status := by
  rcases commandRun_cases { s with inbox := rest } with ⟨_, e⟩ | ⟨_, e⟩ | ⟨_, _, _, e⟩ |
    ⟨notRunning, notHalted, present, e⟩ <;> obtain rfl := eq_of_next h e
  case inr.inr.inr =>
    have status := status_of_present inv ((present_iff s).1 present) notHalted
    exact .inr ⟨⟨rest, ready⟩, status.imp_right fun other => other.resolve_left notRunning⟩
  all_goals exact led_self s

theorem led_of_commandStep {s t : State} (inv : Inv s) {rest : List Arrival}
    (ready : s.inbox = ⟨0, .step⟩ :: rest) (h : commandStep { s with inbox := rest } = .next t) :
    Led s t.status := by
  rcases commandStep_cases { s with inbox := rest } with ⟨_, e⟩ | ⟨_, _, e⟩ | ⟨_, _, _, e⟩ |
    ⟨notHalted, present, _, e⟩
  case inr.inr.inr =>
    have status := status_of_present inv ((present_iff s).1 present) notHalted
    obtain ⟨u, run⟩ := fetchExecute_next { s with inbox := rest }
    obtain rfl := eq_of_next h (e u run)
    rcases afterStep_cases u with ⟨halted, e⟩ | ⟨_, e⟩ <;> rw [e]
    · rw [halted]
      exact .inr (.inr (.inr ⟨⟨rest, ready⟩, status⟩))
    · rcases status with loaded | running | paused
      · exact .inr (.inr ⟨⟨rest, ready⟩, .inl loaded⟩)
      · exact .inr (.inr ⟨⟨rest, ready⟩, .inr running⟩)
      · exact .inl paused
  all_goals
    obtain rfl := eq_of_next h e
    exact led_self s

theorem led_of_commandPause {s t : State} {rest : List Arrival} (ready : s.inbox = ⟨0, .pause⟩ :: rest)
    (h : commandPause { s with inbox := rest } = .next t) : Led s t.status := by
  rcases commandPause_cases { s with inbox := rest } with ⟨running, e⟩ | ⟨_, e⟩ <;>
    obtain rfl := eq_of_next h e
  · exact .inr (.inl ⟨⟨rest, ready⟩, running⟩)
  · exact led_self s

theorem led_of_runCommand {s t : State} (inv : Inv s) {c : Command} {rest : List Arrival}
    (ready : s.inbox = ⟨0, c⟩ :: rest) (h : runCommand c { s with inbox := rest } = .next t) :
    Led s t.status := by
  cases c with
  | reset => cases h; exact .inr (.inl ⟨rest, ready⟩)
  | load bytes => exact led_of_commandLoad ready h
  | run => exact led_of_commandRun inv ready h
  | step => exact led_of_commandStep inv ready h
  | pause => exact led_of_commandPause ready h
  | halt => cases h; exact .inr (.inl ⟨rest, ready⟩)

theorem led_of_tick {s t : State} (ticks : TickNext s)
    (h : tick { s with inbox := waited s.inbox } = .next t) : Led s t.status := by
  rcases tick_cases { s with inbox := waited s.inbox } with ⟨_, e⟩ | ⟨running, _, e⟩ | ⟨running, _, e⟩
  · obtain rfl := eq_of_next h e
    exact led_self s
  · obtain rfl := eq_of_next h e
    exact .inr (.inr (.inl ⟨ticks, running⟩))
  · rcases fetchExecute_status (e.symm.trans h) with same | halted
    · rw [same]
      exact led_self s
    · rw [halted]
      exact .inr (.inr (.inl ⟨ticks, running⟩))

theorem led_of_step {s t : State} (inv : Inv s) (h : step s = .next t) : Led s t.status := by
  rcases step_inv h with ⟨c, rest, ready, command⟩ | ⟨ticks, ticked⟩
  · exact led_of_runCommand inv ready command
  · exact led_of_tick ticks ticked

end Sys2Proof.Machine

namespace Sys2Proof.Proofs

open Sys2Proof.Machine

/-- Settles O53: the rows are `statusTable_of_step`, and STATUS after the step is one that R195 allows to have
been reached (`led_of_step`). -/
theorem statusMovesAsTheTableAllows : Obligations.StatusMovesAsTheTableAllows := by
  intro s t inv h
  have led : ∀ v, t.status = v → Led s v := fun v status => status ▸ led_of_step inv h
  exact ⟨statusTable_of_step h inv, led .idle, led .loaded, led .running, led .paused, led .halted⟩

end Sys2Proof.Proofs
